-- ==== Sys2Proof/Word.lean ====
section
/-! DEFINITION. The word types of the block: bytes, counts, command words and response words (00_scope R8, R9). -/

namespace Sys2Proof

/-- A byte of a stream, a byte value, a node index or a child field: 8 bits (R8). -/
abbrev Byte := BitVec 8

/-- A declared or progress byte count, a `FINFO` value or a response word: 64 bits (R8, R26, R27, R31). -/
abbrev Word64 := BitVec 64

/-- The argument field of a command word (R90) and the immediate of format W (R94): 32 bits. -/
abbrev Arg := BitVec 32

/-- A command word: 40 bits, `op` in bits 39:32 and `arg` in bits 31:0 (R90). -/
abbrev CmdWord := BitVec 40

/-- The stored bits of one code, one place for each of at most 255 bits (R25). -/
abbrev CodeBits := BitVec 255

end Sys2Proof
end

