-- ==== Sys2Proof/Syntax.lean ====
section
/-! DEFINITION. The eighteen commands of the opcode map (30_encoding R96) as syntax, the ten register names of `RD`
(10_state R33), and the pseudo-commands (30_encoding R102). -/

namespace Sys2Proof

/-- A command of the block, one constructor per row of the opcode map (R96), with the operands of its format (R91). -/
inductive Instr where
  /-- `RESET` (45_system R196). -/
  | reset
  /-- `RD csr` (45_system R197): any 8-bit register number is a legal encoding (R93). -/
  | rd (csr : Byte)
  /-- `TR.CLR` (41_tree_and_counts R142). -/
  | trClr
  /-- `TR.PUSH L, R, LL, RL` (41_tree_and_counts R143, 30_encoding R95). -/
  | trPush (l r : Byte) (ll rl : Bool)
  /-- `CT.BUILD` (42_code_table R160). -/
  | ctBuild
  /-- `SETN.LO imm32` (41_tree_and_counts R148). -/
  | setnLo (imm : Arg)
  /-- `SETN.HI imm32` (41_tree_and_counts R149). -/
  | setnHi (imm : Arg)
  /-- `SETM.LO imm32` (41_tree_and_counts R150). -/
  | setmLo (imm : Arg)
  /-- `SETM.HI imm32` (41_tree_and_counts R151). -/
  | setmHi (imm : Arg)
  /-- `BR.BIT` (40_bit_cursor R125). -/
  | brBit
  /-- `BR.END` (40_bit_cursor R126). -/
  | brEnd
  /-- `BW.BIT b` (40_bit_cursor R127). -/
  | bwBit (b : Bool)
  /-- `BW.FLUSH` (40_bit_cursor R128). -/
  | bwFlush
  /-- `ENC.STEP` (43_encoder R173). -/
  | encStep
  /-- `ENC.RUN` (43_encoder R172). -/
  | encRun
  /-- `DEC.STEP` (44_decoder R182). -/
  | decStep
  /-- `DEC.SYM` (44_decoder R184). -/
  | decSym
  /-- `DEC.RUN` (44_decoder R183). -/
  | decRun
  deriving DecidableEq, Repr

/-- The ten registers that `RD` can read (10_state R33). -/
inductive Csr where
  | status
  | finfo
  | nc
  | cur
  | encn
  | encd
  | decm
  | decd
  | rcur
  | wcur
  deriving DecidableEq, Repr

/-- The pseudo-commands of 30_encoding R102: each stands for a fixed sequence of commands and has no word of its own. -/
inductive Pseudo where
  /-- `SETN v`. -/
  | setn (v : Word64)
  /-- `SETM v`. -/
  | setm (v : Word64)
  /-- `TR.LEAVES a, b`. -/
  | trLeaves (a b : Byte)
  /-- `COMPRESS`. -/
  | compress
  /-- `DECOMPRESS`. -/
  | decompress
  deriving DecidableEq, Repr

end Sys2Proof
end

