-- ==== Sys2Proof/WellFormed.lean ====
section
/-! DEFINITION. Which words are commands (30_encoding R96, R97) and which commands name only things that exist (R93).
The table `opcodeMap` is R96 transcribed: it is written independently of the decoder, which goes by opcode and format. -/

namespace Sys2Proof

/-- One row of the opcode map (R96): a word `w` is the row's command exactly when `w &&& mask = word`. -/
structure OpcodeRow where
  mnemonic : String
  word : CmdWord
  mask : CmdWord
  deriving DecidableEq, Repr

/-- The opcode map, row by row (R96). -/
def opcodeMap : List OpcodeRow :=
  [⟨"RESET", 0x0100000000, 0xFFFFFFFFFF⟩,
   ⟨"RD", 0x0200000000, 0xFFFFFFFF00⟩,
   ⟨"TR.CLR", 0x1000000000, 0xFFFFFFFFFF⟩,
   ⟨"TR.PUSH", 0x1100000000, 0xFFFFFC0000⟩,
   ⟨"CT.BUILD", 0x1200000000, 0xFFFFFFFFFF⟩,
   ⟨"SETN.LO", 0x1400000000, 0xFF00000000⟩,
   ⟨"SETN.HI", 0x1500000000, 0xFF00000000⟩,
   ⟨"SETM.LO", 0x1600000000, 0xFF00000000⟩,
   ⟨"SETM.HI", 0x1700000000, 0xFF00000000⟩] ++
  [⟨"BR.BIT", 0x2000000000, 0xFFFFFFFFFF⟩,
   ⟨"BR.END", 0x2100000000, 0xFFFFFFFFFF⟩,
   ⟨"BW.BIT", 0x2400000000, 0xFFFFFFFFFE⟩,
   ⟨"BW.FLUSH", 0x2500000000, 0xFFFFFFFFFF⟩,
   ⟨"ENC.STEP", 0x3000000000, 0xFFFFFFFFFF⟩,
   ⟨"ENC.RUN", 0x3100000000, 0xFFFFFFFFFF⟩,
   ⟨"DEC.STEP", 0x4000000000, 0xFFFFFFFFFF⟩,
   ⟨"DEC.SYM", 0x4100000000, 0xFFFFFFFFFF⟩,
   ⟨"DEC.RUN", 0x4200000000, 0xFFFFFFFFFF⟩]

/-- The test of R96: `(w AND mask) = match`. -/
def OpcodeRow.covers (r : OpcodeRow) (w : CmdWord) : Bool :=
  w &&& r.mask == r.word

/-- Check (a) of R97: the opcode in bits 39:32 is one of the eighteen. -/
def CmdWord.opcodeListed (w : CmdWord) : Bool :=
  opcodeMap.any fun r => r.word.extractLsb' 32 8 == w.extractLsb' 32 8

/-- Check (b) of R97: no reserved bit is 1, that is no bit the mask of the opcode's row covers below bit 32. -/
def CmdWord.reservedZero (w : CmdWord) : Bool :=
  opcodeMap.all fun r =>
    r.word.extractLsb' 32 8 != w.extractLsb' 32 8 || w &&& r.mask &&& 0xFFFFFFFF == 0

/-- A word is legal when it is the command of some row (R97). -/
def CmdWord.legal (w : CmdWord) : Bool :=
  opcodeMap.any fun r => r.covers w

/-- The mnemonic of a command as the opcode map spells it (R96). -/
def Instr.mnemonic : Instr → String
  | .reset => "RESET"
  | .rd _ => "RD"
  | .trClr => "TR.CLR"
  | .trPush _ _ _ _ => "TR.PUSH"
  | .ctBuild => "CT.BUILD"
  | .setnLo _ => "SETN.LO"
  | .setnHi _ => "SETN.HI"
  | .setmLo _ => "SETM.LO"
  | .setmHi _ => "SETM.HI"
  | .brBit => "BR.BIT"
  | .brEnd => "BR.END"
  | .bwBit _ => "BW.BIT"
  | .bwFlush => "BW.FLUSH"
  | .encStep => "ENC.STEP"
  | .encRun => "ENC.RUN"
  | .decStep => "DEC.STEP"
  | .decSym => "DEC.SYM"
  | .decRun => "DEC.RUN"

/-- The one check an operand can fail that its type does not already make: the number of an `RD` names a register, 0x00 to
0x09 (R93). An `RD` that fails it is still a legal encoding: it decodes, and it is refused when it executes (R197).
Every other operand is a field of the format taken as it stands (R92, R94, R95). -/
def Instr.wellFormed : Instr → Bool
  | .rd csr => decide (csr ≤ 0x09)
  | .reset => true
  | .trClr => true
  | .trPush _ _ _ _ => true
  | .ctBuild => true
  | .setnLo _ => true
  | .setnHi _ => true
  | .setmLo _ => true
  | .setmHi _ => true
  | .brBit => true
  | .brEnd => true
  | .bwBit _ => true
  | .bwFlush => true
  | .encStep => true
  | .encRun => true
  | .decStep => true
  | .decSym => true
  | .decRun => true

end Sys2Proof
end

