-- ==== Sys2Proof/Decode.lean ====
section
/-! DEFINITION. The command decoder, total on every 40-bit word (30_encoding R90, R91, R97), and the encoder, both written
from the format table of R91 and the opcodes of R96. -/

namespace Sys2Proof

/-- Why a word is no command (R97). -/
inductive DecodeError where
  /-- Case (a): the opcode is none of the eighteen. -/
  | unknownOpcode (op : Byte)
  /-- Case (b): the opcode is listed and a reserved bit of its format is 1. -/
  | reservedBit (op : Byte)
  deriving DecidableEq, Repr

/-- The opcode, bits 39:32 (R90). -/
def opField (w : CmdWord) : Byte := w.extractLsb' 32 8

/-- The argument, bits 31:0 (R90). -/
def argField (w : CmdWord) : Arg := w.extractLsb' 0 32

/-- Format Z: all of `arg` is reserved (R91). -/
def decodeZ (i : Instr) (op : Byte) (arg : Arg) : Except DecodeError Instr :=
  if arg = 0 then .ok i else .error (.reservedBit op)

/-- Format B: `b` = `arg[0]`, `arg[31:1]` reserved (R91, R92). -/
def decodeB (mk : Bool → Instr) (op : Byte) (arg : Arg) : Except DecodeError Instr :=
  if arg.extractLsb' 1 31 = 0 then .ok (mk (arg.getLsbD 0)) else .error (.reservedBit op)

/-- Format C: `csr` = `arg[7:0]`, `arg[31:8]` reserved (R91, R93). -/
def decodeC (mk : Byte → Instr) (op : Byte) (arg : Arg) : Except DecodeError Instr :=
  if arg.extractLsb' 8 24 = 0 then .ok (mk (arg.extractLsb' 0 8)) else .error (.reservedBit op)

/-- Format T: `L` = `arg[7:0]`, `R` = `arg[15:8]`, `LL` = `arg[16]`, `RL` = `arg[17]`, `arg[31:18]` reserved (R91, R95). -/
def decodeT (mk : Byte → Byte → Bool → Bool → Instr) (op : Byte) (arg : Arg) : Except DecodeError Instr :=
  if arg.extractLsb' 18 14 = 0 then
    .ok (mk (arg.extractLsb' 0 8) (arg.extractLsb' 8 8) (arg.getLsbD 16) (arg.getLsbD 17))
  else .error (.reservedBit op)

/-- The command of an opcode and an argument: by opcode (R96), then by format (R91). Format W takes `arg` whole (R94). -/
def decodeFields (op : Byte) (arg : Arg) : Except DecodeError Instr :=
  match op with
  | 0x01#8 => decodeZ .reset op arg
  | 0x02#8 => decodeC .rd op arg
  | 0x10#8 => decodeZ .trClr op arg
  | 0x11#8 => decodeT .trPush op arg
  | 0x12#8 => decodeZ .ctBuild op arg
  | 0x14#8 => .ok (.setnLo arg)
  | 0x15#8 => .ok (.setnHi arg)
  | 0x16#8 => .ok (.setmLo arg)
  | 0x17#8 => .ok (.setmHi arg)
  | 0x20#8 => decodeZ .brBit op arg
  | 0x21#8 => decodeZ .brEnd op arg
  | 0x24#8 => decodeB .bwBit op arg
  | 0x25#8 => decodeZ .bwFlush op arg
  | 0x30#8 => decodeZ .encStep op arg
  | 0x31#8 => decodeZ .encRun op arg
  | 0x40#8 => decodeZ .decStep op arg
  | 0x41#8 => decodeZ .decSym op arg
  | 0x42#8 => decodeZ .decRun op arg
  | _ => .error (.unknownOpcode op)

/-- The decoder. Total: a word that is no command is refused by name (R97). -/
def decode (w : CmdWord) : Except DecodeError Instr := decodeFields (opField w) (argField w)

/-- The opcode of a command (R96). -/
def opcodeOf : Instr → Byte
  | .reset => 0x01
  | .rd _ => 0x02
  | .trClr => 0x10
  | .trPush _ _ _ _ => 0x11
  | .ctBuild => 0x12
  | .setnLo _ => 0x14
  | .setnHi _ => 0x15
  | .setmLo _ => 0x16
  | .setmHi _ => 0x17
  | .brBit => 0x20
  | .brEnd => 0x21
  | .bwBit _ => 0x24
  | .bwFlush => 0x25
  | .encStep => 0x30
  | .encRun => 0x31
  | .decStep => 0x40
  | .decSym => 0x41
  | .decRun => 0x42

/-- The argument of a command: its operands in the places of its format, reserved bits zero (R91). -/
def argOf : Instr → Arg
  | .rd csr => (0#24 ++ csr : BitVec 32)
  | .trPush l r ll rl => (0#14 ++ BitVec.ofBool rl ++ BitVec.ofBool ll ++ r ++ l : BitVec 32)
  | .setnLo imm => imm
  | .setnHi imm => imm
  | .setmLo imm => imm
  | .setmHi imm => imm
  | .bwBit b => (0#31 ++ BitVec.ofBool b : BitVec 32)
  | .reset => 0
  | .trClr => 0
  | .ctBuild => 0
  | .brBit => 0
  | .brEnd => 0
  | .bwFlush => 0
  | .encStep => 0
  | .encRun => 0
  | .decStep => 0
  | .decSym => 0
  | .decRun => 0

/-- The encoder: the one word of a command (R90, R96). A fault that records "the command's own word" (R141, R208) takes it
from here, which is the fetched word itself because a command has exactly one word. -/
def encode (i : Instr) : CmdWord := (opcodeOf i ++ argOf i : BitVec 40)

/-- The instruction read from a word given as a number whose bit 0 is the word's bit 0, as spec/opcode_table.json numbers
it. Every row is one whole 40-bit word with no byte order (R90), so the word is laid out as that number itself; bits from
`nbits` up are zero. -/
def decodeTableWord (nbits w : Nat) : Option Instr :=
  match decode (BitVec.ofNat 40 (w % 2 ^ nbits)) with
  | .ok i => some i
  | .error _ => none

end Sys2Proof
end

