-- ==== Sys2Proof/Config.lean ====
section
/-! DEFINITION. What the spec leaves free: the two draws of the block (10_state R37, 93 U1 and U2).
Each is an opaque constant with no body, so a claim that is proved holds whatever the values are.
The launch parameters `PROG`, `IBS0`, `PBS0` (R8) are arguments of `State.launch`, not configuration. -/

namespace Sys2Proof

/-- FREE VALUE. The padding draw `pad` of a flush that pushes a byte (40_bit_cursor R124, U1): the `n`-th draw of a run,
under no law. -/
opaque Config.padDraw : Nat → BitVec 8

/-- FREE VALUE. What bits 7:0 of a `RD WCUR` show where `WACC` holds no defined value (45_system R198, U2): the `n`-th draw
of a run, under no law and not tied to `Config.padDraw`. -/
opaque Config.wcurDraw : Nat → BitVec 8

end Sys2Proof
end

