-- ==== Sys2Proof/Machine/State.lean ====
section
/-! DEFINITION. The state of the block (10_state R20) with the streams of its environment beside it (R35), as plain data,
the reset state (R38), and the reasons a step of the model could stop. -/

namespace Sys2Proof.Machine

/-- One entry of the tree array: the two child fields (R22), each a literal byte value or a node index. -/
structure Node where
  l : Byte
  r : Byte
  deriving DecidableEq, Repr

/-- The nine fault causes (60_exceptions R208). -/
inductive Cause where
  /-- The word matches no command, or `RD` of an undefined register. -/
  | illegalCmd
  /-- Configuration after the engine concerned has started (R141). -/
  | seq
  /-- `TR.PUSH` when `NC = 255` (R146). -/
  | treeFull
  /-- `TR.PUSH` of a node whose index child is not below `NC` (R144). -/
  | treeInvalid
  /-- A decoder step owes a byte and there is no tree (R190). -/
  | noTree
  /-- An input byte has no code (R171). -/
  | lookup
  /-- `IBS` ended before `ENCN` bytes (R171). -/
  | truncEnc
  /-- The bits ran out before `DECM` bytes (R181). -/
  | truncDec
  /-- `BR.BIT` when no bit is left (R125). -/
  | rdAtEnd
  deriving DecidableEq, Repr

/-- The block's state (R20) and the streams (R35). Entries of `node`, `lleaf`, `rleaf` at or above `nc`, places of `ctBits`
at or above the entry's `ctLen`, and bits of `wacc` at or above `wfill` hold no value in the spec (R22, R23, R25, R29): here
they hold stale data that no rule reads. -/
structure State where
  /-- `NC`, the node count (R21). -/
  nc : Byte
  /-- `NODE[0..255]` (R22). -/
  node : Vector Node 256
  /-- `LLEAF[0..255]` (R23). -/
  lleaf : Vector Bool 256
  /-- `RLEAF[0..255]` (R23). -/
  rleaf : Vector Bool 256
  /-- `CT[0..255].LEN`; 0 means the byte value has no code (R25). -/
  ctLen : Vector Byte 256
  /-- `CT[0..255].BITS`, bit `k` being `BITS[k]`, the root bit first (R25). -/
  ctBits : Vector CodeBits 256
  /-- `ENCN`, the number of bytes the encoder is to consume (R26). -/
  encn : Word64
  /-- `ENCD`, the number of bytes encoded so far (R26). -/
  encd : Word64
  /-- `DECM`, the number of bytes the decoder is to produce (R27). -/
  decm : Word64
  /-- `DECD`, the number of bytes produced so far (R27). -/
  decd : Word64
  /-- `RBUF`, the payload byte being taken apart (R28). -/
  rbuf : Byte
  /-- `RCNT`, the number of bits of `RBUF` not yet handed out, 0 to 8 (R28). -/
  rcnt : BitVec 4
  /-- `WACC`, the byte being put together (R29). -/
  wacc : Byte
  /-- `WFILL`, the number of bits placed in `WACC`, 0 to 7 (R29). -/
  wfill : BitVec 3
  /-- `CUR`, the node the decoder stands at, meaningful while `walk` (R30). -/
  cur : Byte
  /-- `WALK`, true inside a symbol (R30). -/
  walk : Bool
  /-- `FCODE`, 0 or the code of the first fault since reset (R31). -/
  fcode : Byte
  /-- `FINFO`, the value recorded with that fault (R31). -/
  finfo : Word64
  /-- `pc`, the number of command words taken since launch (R34). -/
  pc : Nat
  /-- `PROG`, the command stream given at launch (R62). -/
  prog : List CmdWord
  /-- The unread remainder of `IBS` (R63). -/
  ibs : List Byte
  /-- The unread remainder of `PBS` (R63). -/
  pbs : List Byte
  /-- Everything pushed to `OBS` (R64). -/
  obs : List Byte
  /-- Everything pushed to `DBS` (R64). -/
  dbs : List Byte
  /-- Everything pushed to `RSP` (R64, R100). -/
  rsp : List Word64
  /-- THE MODEL'S OWN FIELD: how many free values have been drawn (R37). No rule of the spec reads it. -/
  draws : Nat
  deriving DecidableEq, Repr

/-- Why a step of the model stops with a fault: never. Every fault of the spec (60_exceptions R205 to R208) is recorded in
`FCODE` and `FINFO` and the step answers a next state, so this type has no constructor. SAFE: nothing is cut off. -/
inductive Fault where
  deriving DecidableEq, Repr

/-- Why a step of the model refuses a command. -/
inductive Refusal where
  /-- Raised by an arm of `exec` whose command has no meaning yet, by name. No arm raises it now. SAFE: it stops. -/
  | notModelled (mnemonic : String)
  deriving DecidableEq, Repr

/-- How the pseudocode of a command ends: normally, or by a `raise`, which abandons the rest of the command (R207). -/
inductive Flow where
  | done (s : State)
  | raised (s : State)
  deriving DecidableEq, Repr

/-- The reset state at launch (R38), with no command and empty streams (R35). The items the spec leaves unspecified hold
zero: `node`, `lleaf`, `rleaf` (log 1), `ctBits` (log 2), `wacc` (log 3). The launch parameters are empty (log 6). -/
def State.reset : State where
  nc := 0
  node := Vector.replicate 256 ⟨0, 0⟩
  lleaf := Vector.replicate 256 false
  rleaf := Vector.replicate 256 false
  ctLen := Vector.replicate 256 0
  ctBits := Vector.replicate 256 0
  encn := 0
  encd := 0
  decm := 0
  decd := 0
  rbuf := 0
  rcnt := 0
  wacc := 0
  wfill := 0
  cur := 0
  walk := false
  fcode := 0
  finfo := 0
  pc := 0
  prog := []
  ibs := []
  pbs := []
  obs := []
  dbs := []
  rsp := []
  draws := 0

/-- The state at launch with the parameters of a run (R8, R35, R37, R238): `PROG`, `IBS0`, `PBS0`. -/
def State.launch (prog : List CmdWord) (ibs0 pbs0 : List Byte) : State :=
  { State.reset with prog := prog, ibs := ibs0, pbs := pbs0 }

end Sys2Proof.Machine
end

