-- ==== Sys2Proof/Machine/Operands.lean ====
section
/-! DEFINITION. Operand forms: the halves of a 64-bit count (30_encoding R94), the register numbers of `RD` (R93), single bits
and bit fields (00_scope R9), table entries by index (R10), the child field a bit selects (44_decoder R181), and the code of
a byte value (10_state R25). -/

namespace Sys2Proof.Machine

/-- `v[k] <- b` (R9). -/
def setBit {w : Nat} (v : BitVec w) (k : Nat) (b : Bool) : BitVec w :=
  if b then v ||| (1#w <<< k) else v &&& ~~~(1#w <<< k)

/-- `{hi[7:n], lo[n-1:0]}`: bits below `n` from `lo`, the others from `hi` (R124, R198). -/
def joinAt (n : Nat) (hi lo : Byte) : Byte :=
  (lo &&& BitVec.ofNat 8 (2 ^ n - 1)) ||| (hi &&& ~~~(BitVec.ofNat 8 (2 ^ n - 1)))

/-- Write bits 31:0 of a count and leave bits 63:32 (R94). -/
def setLowHalf (v : Word64) (imm : Arg) : Word64 := (v.extractLsb' 32 32 ++ imm : BitVec 64)

/-- Write bits 63:32 of a count and leave bits 31:0 (R94). -/
def setHighHalf (v : Word64) (imm : Arg) : Word64 := (imm ++ v.extractLsb' 0 32 : BitVec 64)

/-- The register a number names, 0x00 to 0x09 (R33); 0x0A to 0xFF name nothing. -/
def csrOfNumber (n : Byte) : Option Csr :=
  match n.toNat with
  | 0 => some .status
  | 1 => some .finfo
  | 2 => some .nc
  | 3 => some .cur
  | 4 => some .encn
  | 5 => some .encd
  | 6 => some .decm
  | 7 => some .decd
  | 8 => some .rcur
  | 9 => some .wcur
  | _ => none

/-- `NODE[i]` (R10, R22). -/
def State.nodeAt (s : State) (i : Byte) : Node := s.node[i.toNat]'i.isLt

/-- `LLEAF[i]` (R10, R23). -/
def State.lleafAt (s : State) (i : Byte) : Bool := s.lleaf[i.toNat]'i.isLt

/-- `RLEAF[i]` (R10, R23). -/
def State.rleafAt (s : State) (i : Byte) : Bool := s.rleaf[i.toNat]'i.isLt

/-- `CT[v].LEN` (R10, R25). -/
def State.codeLen (s : State) (v : Byte) : Byte := s.ctLen[v.toNat]'v.isLt

/-- `CT[v].BITS` (R10, R25). -/
def State.codeBits (s : State) (v : Byte) : CodeBits := s.ctBits[v.toNat]'v.isLt

/-- The code of byte value `v`: `CT[v].BITS[0 .. LEN-1]`, the root bit first, empty when `v` has no code (R25). -/
def State.code (s : State) (v : Byte) : List Bool :=
  (List.range (s.codeLen v).toNat).map (s.codeBits v).getLsbD

/-- Whether the field that bit `b` selects at node `i` is a literal: `LLEAF[i]` on 0, `RLEAF[i]` on 1 (R181). -/
def State.childIsLeaf (s : State) (i : Byte) (b : Bool) : Bool := if b then s.rleafAt i else s.lleafAt i

/-- The child field that bit `b` selects at node `i`: `NODE[i].L` on 0, `NODE[i].R` on 1 (R181). -/
def State.child (s : State) (i : Byte) (b : Bool) : Byte := if b then (s.nodeAt i).r else (s.nodeAt i).l

end Sys2Proof.Machine
end

