-- ==== Sys2Proof/Machine/Flags.lean ====
section
/-! DEFINITION. The flags and the predicates on the state that are computed and not stored: `ATEND` (10_state R32,
40_bit_cursor R121), halted (R31), `EncStarted` and `DecStarted` (R36), the fault output (60_exceptions R214), and the
register images of `RD` (R33). -/

namespace Sys2Proof.Machine

/-- `AtEos(IBS)` (R63). -/
def State.ibsAtEos (s : State) : Bool := s.ibs.isEmpty

/-- `AtEos(PBS)` (R63). -/
def State.pbsAtEos (s : State) : Bool := s.pbs.isEmpty

/-- `at_end()`: no bit is left in the buffer and no byte in the stream (R121). It is also the flag `ATEND` (R32). -/
def State.atEnd (s : State) : Bool := s.rcnt == 0 && s.pbsAtEos

/-- The block is halted exactly when `FCODE != 0` (R31). -/
def State.halted (s : State) : Bool := s.fcode != 0

/-- The level output `fault` (R214). -/
def State.faultOutput (s : State) : Bool := s.halted

/-- `EncStarted := (ENCD != 0)` (R36). -/
def State.encStarted (s : State) : Bool := s.encd != 0

/-- `DecStarted := (DECD != 0) or (WALK = 1)` (R36). -/
def State.decStarted (s : State) : Bool := s.decd != 0 || s.walk

/-- The image of `STATUS`: `FCODE`, `WALK`, `ATEND` (R32, R33). -/
def State.statusImage (s : State) : Word64 :=
  (0#54 ++ BitVec.ofBool s.atEnd ++ BitVec.ofBool s.walk ++ s.fcode : BitVec 64)

/-- The image of `RCUR`: `RBUF`, `RCNT` (R33). -/
def State.rcurImage (s : State) : Word64 := (0#52 ++ s.rcnt ++ s.rbuf : BitVec 64)

/-- The image of `WCUR`: `WACC` with its undefined bits taken from the draw `free`, and `WFILL` (R33, R198). -/
def State.wcurImage (s : State) (free : Byte) : Word64 :=
  (0#53 ++ s.wfill ++ joinAt s.wfill.toNat free s.wacc : BitVec 64)

/-- The 64-bit image of a register (R33); `free` shows only in the undefined bits of `WCUR` (R198). -/
def State.csrImage (s : State) (free : Byte) : Csr → Word64
  | .status => s.statusImage
  | .finfo => s.finfo
  | .nc => s.nc.zeroExtend 64
  | .cur => s.cur.zeroExtend 64
  | .encn => s.encn
  | .encd => s.encd
  | .decm => s.decm
  | .decd => s.decd
  | .rcur => s.rcurImage
  | .wcur => s.wcurImage free

end Sys2Proof.Machine
end

