-- ==== Sys2Proof/Machine/Ops.lean ====
section
/-! DEFINITION. The shared operations: streams (20_memory R63, R64), table writes, raising a fault and leaving the halted
state (60_exceptions R207, R213), the execution frame (R206) and the fetch of a command word (10_state R34). -/

namespace Sys2Proof.Machine

/-! ### Streams -/

/-- `Pop(IBS)` guarded by `AtEos(IBS)`: `none` exactly when no byte is left (R63). -/
def State.popIbs (s : State) : Option (Byte × State) :=
  match s.ibs with
  | [] => none
  | v :: rest => some (v, { s with ibs := rest })

/-- `Push(OBS, v)` (R64). -/
def State.pushObs (s : State) (v : Byte) : State := { s with obs := s.obs ++ [v] }

/-- `Push(DBS, v)` (R64). -/
def State.pushDbs (s : State) (v : Byte) : State := { s with dbs := s.dbs ++ [v] }

/-- `Push(RSP, v)` (R64, R100). -/
def State.pushRsp (s : State) (v : Word64) : State := { s with rsp := s.rsp ++ [v] }

/-! ### Tables -/

/-- `for s in 0 .. 255: CT[s].LEN <- 0`; the bits stay in storage (R142, R143, R196). -/
def State.clearCodes (s : State) : State := { s with ctLen := Vector.replicate 256 0 }

/-- Store a node at index `NC` and count it (R143). -/
def State.storeNode (s : State) (l r : Byte) (ll rl : Bool) : State :=
  { s with
    node := s.node.set s.nc.toNat ⟨l, r⟩ s.nc.isLt
    lleaf := s.lleaf.set s.nc.toNat ll s.nc.isLt
    rleaf := s.rleaf.set s.nc.toNat rl s.nc.isLt
    nc := s.nc + 1 }

/-- `CT[v].LEN <- len`, `CT[v].BITS <- bits` (R161). -/
def State.storeCode (s : State) (v : Byte) (len : Byte) (bits : CodeBits) : State :=
  { s with
    ctLen := s.ctLen.set v.toNat len v.isLt
    ctBits := s.ctBits.set v.toNat bits v.isLt }

/-! ### Faults and reset -/

/-- The code `FCODE` records for a cause (R208). -/
def Cause.code : Cause → Byte
  | .illegalCmd => 1
  | .seq => 2
  | .treeFull => 3
  | .treeInvalid => 4
  | .noTree => 5
  | .lookup => 6
  | .truncEnc => 7
  | .truncDec => 8
  | .rdAtEnd => 9

/-- The fault record (R207): the cause's code and the value that goes with it. -/
def State.recordFault (s : State) (c : Cause) (info : Word64) : State := { s with fcode := c.code, finfo := info }

/-- `raise F(info)`: TAKING A FAULT, the block's one exceptional event (R207). It records the cause and ends the command;
everything done before it stays done. There is no handler, no saved pc, no mode (R212): the frame advances `pc` as after any
command, and the block is halted from then on (R210). -/
def raise (c : Cause) (info : Word64) (s : State) : Flow := .raised (s.recordFault c info)

/-- `raise F(zext_64(w))` with `w` the command's own word (R141, R143, R197). -/
def raiseWord (c : Cause) (i : Instr) (s : State) : Flow := raise c ((encode i).zeroExtend 64) s

/-- THE RETURN FROM THE HALTED STATE, and the start of every session (R213, R196, R235): the state items go to their reset
values. The storage of the tables and of `WACC` keeps its bits, which hold no value (R236, log 4); the streams and `pc`
are not touched (R236, R237), nor is the model's count of draws (log 5). -/
def State.toReset (s : State) : State :=
  { s with
    nc := 0
    ctLen := Vector.replicate 256 0
    encn := 0
    encd := 0
    decm := 0
    decd := 0
    rbuf := 0
    rcnt := 0
    wfill := 0
    cur := 0
    walk := false
    fcode := 0
    finfo := 0 }

/-! ### The execution frame -/

/-- The state at the end of a command's pseudocode, whichever way it ended (R206). -/
def Flow.state : Flow → State
  | .done s => s
  | .raised s => s

/-- `pc <- pc + 1`: the frame is the only place `pc` is written (R206, R34). -/
def State.advance (s : State) : State := { s with pc := s.pc + 1 }

/-- The frame of every command but `RESET` and a `RD` of a defined register: discarded when halted, its pseudocode run
otherwise, and `pc` advanced in either case (R206, R210). -/
def command (body : State → Flow) (s : State) : Host.Outcome State Fault Refusal :=
  if s.halted then .next s.advance else .next (body s).state.advance

/-- The frame of the commands that run while the block is halted too (R206). -/
def commandAlways (body : State → Flow) (s : State) : Host.Outcome State Fault Refusal :=
  .next (body s).state.advance

/-- What the frame does with a word that is no command (R206, R97). -/
def illegalWord (w : CmdWord) (s : State) : Host.Outcome State Fault Refusal :=
  command (raise .illegalCmd (w.zeroExtend 64)) s

/-! ### Fetching -/

/-- The word the block takes next, `PROG[pc]`; none when the run has ended (R34, R243). -/
def State.fetch (s : State) : Option CmdWord := s.prog[s.pc]?

/-- One command: fetch, decode, and run the command or refuse the word (R206). With no word left the block idles in whatever
state it is in (R243, log 7). -/
def stepWith (run : Instr → State → Host.Outcome State Fault Refusal) (s : State) : Host.Outcome State Fault Refusal :=
  match s.fetch with
  | none => .next s
  | some w =>
    match decode w with
    | .ok i => run i s
    | .error _ => illegalWord w s

/-- `PROG` with `w` at position `pc`. Places below `pc` that do not exist are filled with words that are never taken again. -/
def State.placeWord (s : State) (w : CmdWord) : State :=
  { s with prog := s.prog.take s.pc ++ List.replicate (s.pc - s.prog.length) 0 ++ w :: s.prog.drop (s.pc + 1) }

end Sys2Proof.Machine
end

