-- ==== Sys2Proof/Machine/Tree.lean ====
section
/-! DEFINITION. Loading the tree and the counts: `TR.CLR`, `TR.PUSH`, `SETN.LO`, `SETN.HI`, `SETM.LO`, `SETM.HI`
(41_tree_and_counts R140 to R151). -/

namespace Sys2Proof.Machine

/-- The guard of the tree commands and of `CT.BUILD`: `SEQ` once either engine has started (R141). -/
def guardTree (i : Instr) (body : State → Flow) (s : State) : Flow :=
  if s.encStarted || s.decStarted then raiseWord .seq i s else body s

/-- The guard of `SETN.LO` and `SETN.HI`: `SEQ` once the encoder has started (R141). -/
def guardEnc (i : Instr) (body : State → Flow) (s : State) : Flow :=
  if s.encStarted then raiseWord .seq i s else body s

/-- The guard of `SETM.LO` and `SETM.HI`: `SEQ` once the decoder has started (R141). -/
def guardDec (i : Instr) (body : State → Flow) (s : State) : Flow :=
  if s.decStarted then raiseWord .seq i s else body s

/-- `TR.CLR` (R142). -/
def execTrClr (s : State) : Host.Outcome State Fault Refusal :=
  command (guardTree .trClr fun s => .done { s with nc := 0 }.clearCodes) s

/-- The validity test of `TR.PUSH` fails: a child marked as node index is not below `NC` (R144). -/
def State.childInvalid (s : State) (l r : Byte) (ll rl : Bool) : Bool :=
  (!ll && decide (l ≥ s.nc)) || (!rl && decide (r ≥ s.nc))

/-- The pseudocode of `TR.PUSH` after the `SEQ` guard: `TREE_FULL` before `TREE_INVALID`, then the node (R143). -/
def trPushBody (l r : Byte) (ll rl : Bool) (s : State) : Flow :=
  if s.nc = 255 then raiseWord .treeFull (.trPush l r ll rl) s
  else if s.childInvalid l r ll rl then raiseWord .treeInvalid (.trPush l r ll rl) s
  else .done (s.storeNode l r ll rl).clearCodes

/-- `TR.PUSH L, R, LL, RL` (R143). -/
def execTrPush (l r : Byte) (ll rl : Bool) (s : State) : Host.Outcome State Fault Refusal :=
  command (guardTree (.trPush l r ll rl) (trPushBody l r ll rl)) s

/-- `SETN.LO imm32` (R148). -/
def execSetnLo (imm : Arg) (s : State) : Host.Outcome State Fault Refusal :=
  command (guardEnc (.setnLo imm) fun s => .done { s with encn := setLowHalf s.encn imm }) s

/-- `SETN.HI imm32` (R149). -/
def execSetnHi (imm : Arg) (s : State) : Host.Outcome State Fault Refusal :=
  command (guardEnc (.setnHi imm) fun s => .done { s with encn := setHighHalf s.encn imm }) s

/-- `SETM.LO imm32` (R150). -/
def execSetmLo (imm : Arg) (s : State) : Host.Outcome State Fault Refusal :=
  command (guardDec (.setmLo imm) fun s => .done { s with decm := setLowHalf s.decm imm }) s

/-- `SETM.HI imm32` (R151). -/
def execSetmHi (imm : Arg) (s : State) : Host.Outcome State Fault Refusal :=
  command (guardDec (.setmHi imm) fun s => .done { s with decm := setHighHalf s.decm imm }) s

end Sys2Proof.Machine
end

