-- ==== Sys2Proof/Machine/CodeTable.lean ====
section
/-! DEFINITION. The code table builder: `BuildTable` (42_code_table R161) and the command `CT.BUILD` (R160). -/

namespace Sys2Proof.Machine

/-- `BITS[k + j] <- p[j]` for each `j` of the list; the other places stay as they were (R161). -/
def writeBits (bits : CodeBits) (k : Nat) : List Bool → CodeBits
  | [] => bits
  | b :: rest => writeBits (setBit bits k b) (k + 1) rest

/-- `record(v, p)`: the first discovery wins (R161). -/
def recordCode (v : Byte) (p : List Bool) (s : State) : State :=
  if s.codeLen v = 0 then s.storeCode v (BitVec.ofNat 8 p.length) (writeBits (s.codeBits v) 0 p) else s

/-- `side(leaf, f, p)`: record a literal, or visit the node (R161). -/
def visitSide (visit : Byte → List Bool → State → State) (leaf : Bool) (f : Byte) (p : List Bool) (s : State) : State :=
  if leaf then recordCode f p s else visit f p s

/-- `visit(i, path)`: left first with bit 0, then right with bit 1 (R161). The first argument bounds the depth, which in a
well-formed tree never exceeds `i + 1` (R161), so the bound never bites there (log 12). -/
def visitNode : Nat → Byte → List Bool → State → State
  | 0 => fun _ _ s => s
  | depth + 1 => fun i path s =>
    let t := visitSide (visitNode depth) (s.lleafAt i) (s.nodeAt i).l (path ++ [false]) s
    visitSide (visitNode depth) (t.rleafAt i) (t.nodeAt i).r (path ++ [true]) t

/-- `BuildTable()` (R161). -/
def State.buildTable (s : State) : State :=
  if s.nc = 0 then s.clearCodes else visitNode s.nc.toNat (s.nc - 1) [] s.clearCodes

/-- `CT.BUILD` (R160). -/
def execCtBuild (s : State) : Host.Outcome State Fault Refusal :=
  command (guardTree .ctBuild fun s => .done s.buildTable) s

end Sys2Proof.Machine
end

