-- ==== Sys2Proof/Machine/Cursor.lean ====
section
/-! DEFINITION. The bit cursor: the primitives `next_bit`, `put_bit`, `flush` (40_bit_cursor R122 to R124) and the commands
`BR.BIT`, `BR.END`, `BW.BIT`, `BW.FLUSH` (R125 to R128). -/

namespace Sys2Proof.Machine

/-- The bit `RBUF[8 - RCNT]` and the buffer without it (R122). -/
def State.takeBit (s : State) : Bool × State :=
  (s.rbuf.getLsbD (8 - s.rcnt).toNat, { s with rcnt := s.rcnt - 1 })

/-- `next_bit()` with its precondition `not at_end()` (R122): `none` exactly when `at_end()` holds, so that every caller
raises its own fault there (U3). A byte is fetched only when a bit is asked for and the buffer is empty (R77). -/
def State.nextBit (s : State) : Option (Bool × State) :=
  if s.rcnt = 0 then
    match s.pbs with
    | [] => none
    | v :: rest => some ({ s with rbuf := v, rcnt := 8, pbs := rest }.takeBit)
  else some s.takeBit

/-- `put_bit(b)` (R123). -/
def State.putBit (s : State) (b : Bool) : State :=
  let acc := setBit s.wacc s.wfill.toNat b
  if s.wfill = 7 then { s with wacc := acc, wfill := 0 }.pushObs acc
  else { s with wacc := acc, wfill := s.wfill + 1 }

/-- `put_bit` of each bit of a list in order (R171). -/
def State.putBits (s : State) : List Bool → State
  | [] => s
  | b :: rest => (s.putBit b).putBits rest

/-- `flush()` (R124): with bits placed, push them completed by the padding draw, which is a free value; otherwise nothing. -/
def State.flush (s : State) : State :=
  if s.wfill = 0 then s
  else { s with wfill := 0, draws := s.draws + 1 }.pushObs (joinAt s.wfill.toNat (Config.padDraw s.draws) s.wacc)

/-- The pseudocode of `BR.BIT` (R125). -/
def brBitBody (s : State) : Flow :=
  match s.nextBit with
  | none => raise .rdAtEnd 0 s
  | some (b, t) => .done (t.pushRsp ((BitVec.ofBool b).zeroExtend 64))

/-- `BR.BIT` (R125). -/
def execBrBit (s : State) : Host.Outcome State Fault Refusal := command brBitBody s

/-- `BR.END` (R126). -/
def execBrEnd (s : State) : Host.Outcome State Fault Refusal :=
  command (fun s => .done (s.pushRsp (if s.atEnd then 1 else 0))) s

/-- `BW.BIT b` (R127). -/
def execBwBit (b : Bool) (s : State) : Host.Outcome State Fault Refusal :=
  command (fun s => .done (s.putBit b)) s

/-- `BW.FLUSH` (R128). -/
def execBwFlush (s : State) : Host.Outcome State Fault Refusal :=
  command (fun s => .done s.flush) s

end Sys2Proof.Machine
end

