-- ==== Sys2Proof/Machine/Decoder.lean ====
section
/-! DEFINITION. The decoder: `dec_step` (44_decoder R181) and the commands `DEC.STEP`, `DEC.SYM`, `DEC.RUN` (R182 to R184). -/

namespace Sys2Proof.Machine

/-- The start of a symbol: with `WALK = 0` the walker goes to the root (R181). -/
def State.startSymbol (s : State) : State :=
  if s.walk then s else { s with cur := s.nc - 1, walk := true }

/-- Follow the edge of bit `b` from `CUR`: emit a literal and end the symbol, or move to the child node (R181). -/
def State.followBit (s : State) (b : Bool) : State :=
  if s.childIsLeaf s.cur b then { s with decd := s.decd + 1, walk := false }.pushDbs (s.child s.cur b)
  else { s with cur := s.child s.cur b }

/-- `dec_step()`, one bit of the decompress loop (R181). -/
def decStep (s : State) : Flow :=
  if s.decd ≥ s.decm then .done s
  else if s.nc = 0 then raise .noTree 0 s
  else
    match s.startSymbol.nextBit with
    | none => raise .truncDec s.decd s.startSymbol
    | some (b, t) => .done (t.followBit b)

/-- The bits `next_bit` can still return: those in the buffer and eight for each byte of `PBS`. -/
def State.bitsLeft (s : State) : Nat := s.rcnt.toNat + 8 * s.pbs.length

/-- `while DECD < DECM: dec_step()`, a raise ending the loop (R183). The first argument bounds the iterations. -/
def decLoop : Nat → State → Flow
  | 0, s => .done s
  | n + 1, s =>
    if s.decd < s.decm then
      match decStep s with
      | .raised t => .raised t
      | .done t => decLoop n t
    else .done s

/-- `repeat dec_step() until WALK = 0`, a raise ending the loop (R184). The first argument bounds the iterations. -/
def symLoop : Nat → State → Flow
  | 0, s => .done s
  | n + 1, s =>
    match decStep s with
    | .raised t => .raised t
    | .done t => if t.walk then symLoop n t else .done t

/-- The loop of `DEC.RUN` (R183). Each iteration raises or reads a bit, so one more than the bits left suffices (log 11). -/
def decRunBody (s : State) : Flow := decLoop (s.bitsLeft + 1) s

/-- The pseudocode of `DEC.SYM` (R184). -/
def decSymBody (s : State) : Flow := if s.decd ≥ s.decm then .done s else symLoop (s.bitsLeft + 1) s

/-- `DEC.STEP` (R182). -/
def execDecStep (s : State) : Host.Outcome State Fault Refusal := command decStep s

/-- `DEC.SYM` (R184). -/
def execDecSym (s : State) : Host.Outcome State Fault Refusal := command decSymBody s

/-- `DEC.RUN` (R183). -/
def execDecRun (s : State) : Host.Outcome State Fault Refusal := command decRunBody s

end Sys2Proof.Machine
end

