-- ==== Sys2Proof/Machine/Encoder.lean ====
section
/-! DEFINITION. The encoder: `enc_step` (43_encoder R171) and the commands `ENC.STEP`, `ENC.RUN` (R173, R172). -/

namespace Sys2Proof.Machine

/-- `enc_step()`, one iteration of the compress loop (R171): the lookup comes before the first bit is put. -/
def encStep (s : State) : Flow :=
  if s.encd ≥ s.encn then .done s
  else
    match s.popIbs with
    | none => raise .truncEnc s.encd s
    | some (v, t) =>
      if t.codeLen v = 0 then raise .lookup (v.zeroExtend 64) t
      else
        let u := t.putBits (t.code v)
        .done { u with encd := u.encd + 1 }

/-- `while ENCD < ENCN: enc_step()`, a raise ending the loop (R172). The first argument bounds the iterations. -/
def encLoop : Nat → State → Flow
  | 0, s => .done s
  | n + 1, s =>
    if s.encd < s.encn then
      match encStep s with
      | .raised t => .raised t
      | .done t => encLoop n t
    else .done s

/-- The loop of `ENC.RUN` (R172). Each iteration raises or pops a byte, so one more than the bytes left suffices (log 11). -/
def encRunBody (s : State) : Flow := encLoop (s.ibs.length + 1) s

/-- `ENC.STEP` (R173). -/
def execEncStep (s : State) : Host.Outcome State Fault Refusal := command encStep s

/-- `ENC.RUN` (R172). It does not flush. -/
def execEncRun (s : State) : Host.Outcome State Fault Refusal := command encRunBody s

end Sys2Proof.Machine
end

