-- ==== Sys2Proof/Machine/System.lean ====
section
/-! DEFINITION. The system commands `RESET` and `RD` (45_system R196, R197), the two that run while the block is halted. -/

namespace Sys2Proof.Machine

/-- `RESET` (R196): runs when halted too (R206). -/
def execReset (s : State) : Host.Outcome State Fault Refusal := commandAlways (fun s => .done s.toReset) s

/-- Read a register: a `RD WCUR` draws the undefined bits of `WACC` afresh (R198), no other read draws. -/
def State.readCsr (s : State) (c : Csr) : State :=
  if c = .wcur then { s with draws := s.draws + 1 }.pushRsp (s.csrImage (Config.wcurDraw s.draws) c)
  else s.pushRsp (s.csrImage 0 c)

/-- `RD csr` (R197): a defined register is read, halted or not; an undefined number faults, and is discarded when halted
like any other command (R206). -/
def execRd (csr : Byte) (s : State) : Host.Outcome State Fault Refusal :=
  match csrOfNumber csr with
  | some c => commandAlways (fun s => .done (s.readCsr c)) s
  | none => command (raiseWord .illegalCmd (.rd csr)) s

end Sys2Proof.Machine
end

