-- ==== Sys2Proof/Machine/Dispatch.lean ====
section
/-! DEFINITION. The dispatch of a decoded command to its meaning, one arm per command. -/

namespace Sys2Proof.Machine

/-- What the block does when it is presented with the command `i` in state `s`, the execution frame R206 included. -/
def exec (i : Instr) (s : State) : Host.Outcome State Fault Refusal :=
  match i with
  | .reset => Sys2Proof.Machine.execReset s
  | .rd csr => Sys2Proof.Machine.execRd csr s
  | .trClr => Sys2Proof.Machine.execTrClr s
  | .trPush l r ll rl => Sys2Proof.Machine.execTrPush l r ll rl s
  | .ctBuild => Sys2Proof.Machine.execCtBuild s
  | .setnLo imm => Sys2Proof.Machine.execSetnLo imm s
  | .setnHi imm => Sys2Proof.Machine.execSetnHi imm s
  | .setmLo imm => Sys2Proof.Machine.execSetmLo imm s
  | .setmHi imm => Sys2Proof.Machine.execSetmHi imm s
  | .brBit => Sys2Proof.Machine.execBrBit s
  | .brEnd => Sys2Proof.Machine.execBrEnd s
  | .bwBit b => Sys2Proof.Machine.execBwBit b s
  | .bwFlush => Sys2Proof.Machine.execBwFlush s
  | .encStep => Sys2Proof.Machine.execEncStep s
  | .encRun => Sys2Proof.Machine.execEncRun s
  | .decStep => Sys2Proof.Machine.execDecStep s
  | .decSym => Sys2Proof.Machine.execDecSym s
  | .decRun => Sys2Proof.Machine.execDecRun s

end Sys2Proof.Machine
end

