-- ==== Sys2Proof/Machine/Step.lean ====
section
/-! DEFINITION. One step of the machine: one command word of `PROG` (60_exceptions R206), and the host's way to place a word
where the next step takes it. -/

namespace Sys2Proof.Machine

/-- One step: take `PROG[pc]` and execute it (R206); idle when `PROG` has ended (R243). -/
def step (s : State) : Host.Outcome State Fault Refusal := stepWith exec s

/-- `s` with the word numbered `w` as spec/opcode_table.json numbers it stored at `PROG[pc]`, where `step` takes its next
command (log 6). Bits of the word from `nbits` up are zero. -/
def State.withFetchWord (s : State) (nbits w : Nat) : State := s.placeWord (BitVec.ofNat 40 (w % 2 ^ nbits))

end Sys2Proof.Machine
end

