-- ==== Sys2Proof/Machine/Pseudo.lean ====
section
/-! DEFINITION. The pseudo-commands (30_encoding R102): the command sequences they stand for. -/

namespace Sys2Proof.Machine

/-- The expansion of a pseudo-command (R102). -/
def expandPseudo : Pseudo → List Instr
  | .setn v => [.setnLo (v.extractLsb' 0 32), .setnHi (v.extractLsb' 32 32)]
  | .setm v => [.setmLo (v.extractLsb' 0 32), .setmHi (v.extractLsb' 32 32)]
  | .trLeaves a b => [.trPush a b true true]
  | .compress => [.encRun, .bwFlush]
  | .decompress => [.decRun]

end Sys2Proof.Machine
end

