-- ==== Sys2Proof/Safety.lean ====
section
/-! DEFINITION. The terms claims are stated in: the invariants of the block (10_state R24, R40), the bit views of the two cursor
halves and the functions `Pack` and `Unpack` (20_memory R67), leaf paths of the tree (42_code_table R162), the reset state
(R38), and when two states agree on everything that holds a value (R22, R23, R25, R29). -/

namespace Sys2Proof.Machine

/-! ### Bits and bytes -/

/-- `Unpack` (R67): element `8j + k` is bit `k` of byte `j`. -/
def unpack (bytes : List Byte) : List Bool :=
  bytes.flatMap fun v => (List.range 8).map v.getLsbD

/-- The byte with the given bits from bit 0 up, and the bits of `pad` above them. -/
def packByte (pad : Byte) (k : Nat) : List Bool → Byte
  | [] => pad
  | b :: rest => packByte (setBit pad k b) (k + 1) rest

/-- `Pack` (R67): eight bits to a byte, the first in bit 0; the last byte is completed from `pad`. -/
def pack (pad : Byte) : List Bool → List Byte
  | [] => []
  | b0 :: b1 :: b2 :: b3 :: b4 :: b5 :: b6 :: b7 :: rest => packByte pad 0 [b0, b1, b2, b3, b4, b5, b6, b7] :: pack pad rest
  | short => [packByte pad 0 short]

/-- The bits `next_bit` will return, in order: those left in `RBUF`, then those of the bytes left on `PBS` (R28, R122). -/
def State.unreadBits (s : State) : List Bool :=
  (List.range s.rcnt.toNat).map (fun j => s.rbuf.getLsbD (8 - s.rcnt.toNat + j)) ++ unpack s.pbs

/-- The bits put since the last whole byte, in order: `WACC[WFILL-1 : 0]` (R29). -/
def State.pendingBits (s : State) : List Bool :=
  (List.range s.wfill.toNat).map s.wacc.getLsbD

/-! ### The tree -/

/-- `WF` (R24): every child field that is a node index is below its own node's index. -/
def State.TreeWF (s : State) : Prop :=
  ∀ i : Byte, i < s.nc →
    (s.lleafAt i = false → (s.nodeAt i).l < i) ∧ (s.rleafAt i = false → (s.nodeAt i).r < i)

/-- The literal a bit sequence leads to from node `i`, when its last bit and no earlier one lands on a literal field (R162). -/
def State.leafFrom (s : State) (i : Byte) : List Bool → Option Byte
  | [] => none
  | b :: rest =>
    if s.childIsLeaf i b then (if rest = [] then some (s.child i b) else none)
    else s.leafFrom (s.child i b) rest

/-- The value of a leaf path of the tree, walked from the root (R162); none for a sequence that is no leaf path. -/
def State.leafValue (s : State) (p : List Bool) : Option Byte :=
  if s.nc = 0 then none else s.leafFrom (s.nc - 1) p

/-- The node the next decoder step stands at: `CUR` inside a symbol, the root between symbols (R30, R181). -/
def State.walkNode (s : State) : Byte := if s.walk then s.cur else s.nc - 1

/-! ### Invariants -/

/-- What holds in every state reachable from reset (R40, R24, R208), and three facts R40 does not list (log 22): `WALK = 1` only
while a byte is owed, a table that is not empty is complete, and `pc` never passes the end of `PROG`. `NC <= 255` and
`WFILL <= 7` hold by width. -/
structure State.Inv (s : State) : Prop where
  treeWF : s.TreeWF
  encd_le : s.encd ≤ s.encn
  decd_le : s.decd ≤ s.decm
  rcnt_le : s.rcnt ≤ 8
  walking : s.walk = true → s.cur < s.nc
  owing : s.walk = true → s.decd < s.decm
  table : ∀ v : Byte, s.codeLen v ≠ 0 → s.code v = s.buildTable.code v
  tableWhole : (∀ v : Byte, s.codeLen v = 0) ∨ ∀ v : Byte, s.code v = s.buildTable.code v
  fcode_le : s.fcode ≤ 9
  finfo_zero : s.fcode = 0 → s.finfo = 0
  pc_le : s.pc ≤ s.prog.length

/-- The reset state (R38), in the items that have a value after reset. -/
structure State.IsReset (s : State) : Prop where
  nc : s.nc = 0
  codeLen : ∀ v : Byte, s.codeLen v = 0
  encn : s.encn = 0
  encd : s.encd = 0
  decm : s.decm = 0
  decd : s.decd = 0
  rbuf : s.rbuf = 0
  rcnt : s.rcnt = 0
  wfill : s.wfill = 0
  cur : s.cur = 0
  walk : s.walk = false
  fcode : s.fcode = 0
  finfo : s.finfo = 0

/-- The two states differ at most in storage that holds no value: `NODE`, `LLEAF`, `RLEAF` at or above `NC` (R22, R23), `BITS`
at or above `LEN` (R25), `WACC` at or above `WFILL` (R29). -/
structure State.Agrees (s t : State) : Prop where
  rest : { s with node := t.node, lleaf := t.lleaf, rleaf := t.rleaf, ctLen := t.ctLen, ctBits := t.ctBits, wacc := t.wacc } = t
  node : ∀ i : Byte, i < s.nc → s.nodeAt i = t.nodeAt i
  lleaf : ∀ i : Byte, i < s.nc → s.lleafAt i = t.lleafAt i
  rleaf : ∀ i : Byte, i < s.nc → s.rleafAt i = t.rleafAt i
  code : ∀ v : Byte, s.code v = t.code v
  pending : s.pendingBits = t.pendingBits

/-! ### What a command leaves -/

/-- `s` after a command that changed nothing but `pc` (R206). -/
def State.passed (s : State) : State := { s with pc := s.pc + 1 }

/-- `s` after a command that faulted with this code and `FINFO` and changed nothing else (R207). -/
def State.faulted (s : State) (code : Byte) (info : Word64) : State :=
  { s with fcode := code, finfo := info, pc := s.pc + 1 }

/-- `s` after a command that pushed one word to `RSP` and changed nothing else (R100). -/
def State.answered (s : State) (v : Word64) : State := { s with rsp := s.rsp ++ [v], pc := s.pc + 1 }

/-- The write cursor of `t` is that of `s` after exactly `bits` have been put: what was pushed since, unpacked, and what is
pending make up what was pending and `bits` (R67, R123). -/
def State.Wrote (s t : State) (bits : List Bool) : Prop :=
  ∃ pushed : List Byte, t.obs = s.obs ++ pushed ∧ unpack pushed ++ t.pendingBits = s.pendingBits ++ bits

/-- The read cursor of `t` is that of `s` after exactly `bits` have been read, with no byte fetched ahead (R77, R122): after a
read at most seven bits are buffered. -/
def State.Consumed (s t : State) (bits : List Bool) : Prop :=
  s.unreadBits = bits ++ t.unreadBits ∧ t.rcnt ≤ 8 ∧ (bits ≠ [] → t.rcnt ≤ 7)

/-! ### Runs -/

/-- Commands presented one after another (R3, R66); none when one of them does not answer a next state. -/
def execAll : List Instr → State → Option State
  | [], s => some s
  | i :: rest, s =>
    match exec i s with
    | .next t => execAll rest t
    | _ => none

/-- The run has ended: every word of `PROG` has been taken (R243). -/
def State.ended (s : State) : Bool := decide (s.prog.length ≤ s.pc)

/-- A run is clean when its final `FCODE` is 0 (R243). -/
def State.clean (s : State) : Bool := s.ended && !s.halted

end Sys2Proof.Machine
end

