-- ==== Sys2Proof/Certificates/Slice0/Obligations.lean ====
section
/-! DEFINITION. The statements for the provers, in the order of the spec: encoding, frame, system commands, bit cursor, tree and
counts, code table, encoder, decoder, round trip, the whole machine. Each docstring names the rules it formalises. -/

open Sys2Proof Sys2Proof.Machine

/-! ### Encoding -/

/-- Words written out in 30_encoding section 6 and 95_test_vectors section 2.1 decode to the commands they stand for, one or
more of every format, and words that are no command are refused by name. -/
def Obligations.SpecWordsDecode : Prop :=
  decode 0x0100000000 = .ok .reset ∧ decode 0x0200000007 = .ok (.rd 0x07) ∧
  decode 0x1100027A02 = .ok (.trPush 0x02 0x7A false true) ∧ decode 0x1200000000 = .ok .ctBuild ∧
  decode 0x14000003E8 = .ok (.setnLo 1000) ∧ decode 0x16FFFFFFFF = .ok (.setmLo 0xFFFFFFFF) ∧
  decode 0x2400000001 = .ok (.bwBit true) ∧ decode 0x3100000000 = .ok .encRun ∧ decode 0x4100000000 = .ok .decSym ∧
  decode 0x0200000100 = .error (.reservedBit 0x02) ∧ decode 0x1100040000 = .error (.reservedBit 0x11) ∧
  decode 0x4300000000 = .error (.unknownOpcode 0x43)

/-- Decoding the word of a command gives the command back, whatever its operands (R90 to R96). -/
def Obligations.DecodeEncodeRoundTrip : Prop := ∀ i : Instr, decode (encode i) = .ok i

/-- A command has exactly one word: whatever decodes to it is its encoding (R90, R91). -/
def Obligations.EncodeDecodeRoundTrip : Prop := ∀ (w : CmdWord) (i : Instr), decode w = .ok i → encode i = w

/-- R96: a word is the command of a row exactly when `(w AND mask) = match`; no word matches two rows; a word that matches no
row is illegal. -/
def Obligations.DecoderAgreesWithOpcodeMap : Prop :=
  (∀ r ∈ opcodeMap, ∀ w : CmdWord, r.covers w = true ↔ ∃ i, decode w = .ok i ∧ i.mnemonic = r.mnemonic) ∧
  (∀ w : CmdWord, (∀ r ∈ opcodeMap, r.covers w = false) ↔ ∃ e, decode w = .error e) ∧
  (∀ r ∈ opcodeMap, ∀ q ∈ opcodeMap, ∀ w : CmdWord, r.covers w = true → q.covers w = true → r = q)

/-- R97: an illegal word is illegal for one of two reasons, and the decoder names the right one: (a) the opcode is not listed,
(b) the opcode is listed and a reserved bit is 1. -/
def Obligations.DecoderNamesTheReason : Prop :=
  ∀ w : CmdWord,
    (decode w = .error (.unknownOpcode (w.extractLsb' 32 8)) ↔ CmdWord.opcodeListed w = false) ∧
    (decode w = .error (.reservedBit (w.extractLsb' 32 8)) ↔
      CmdWord.opcodeListed w = true ∧ CmdWord.reservedZero w = false) ∧
    ((∃ i, decode w = .ok i) ↔ CmdWord.opcodeListed w = true ∧ CmdWord.reservedZero w = true)

/-! ### The execution frame -/

/-- A step takes `PROG[pc]` and runs the command it decodes to, with nothing around it; a word that is no command faults with
`ILLEGAL_CMD` and the word, or is discarded when the block is halted; a word placed for the next step is the one it runs. -/
def Obligations.StepRunsTheDecodedCommand : Prop :=
  (∀ (s : State) (w : CmdWord), s.prog[s.pc]? = some w →
    (∀ i, decode w = .ok i → step s = exec i s) ∧
    (∀ e, decode w = .error e → s.fcode = 0 → step s = .next (s.faulted 1 (w.zeroExtend 64))) ∧
    (∀ e, decode w = .error e → s.fcode ≠ 0 → step s = .next s.passed)) ∧
  (∀ (s : State) (i : Instr),
    step (s.withFetchWord 40 (encode i).toNat) = exec i (s.withFetchWord 40 (encode i).toNat))

/-- R34: `pc` counts the command words taken: 0 at launch, one more after every command whatever it does (`RESET` and faulting
and discarded commands too), the command executed being `PROG[pc]`, no word left exactly when `pc` has reached the length of
`PROG`, and no command reads `pc`. -/
def Obligations.PcCountsCommands : Prop :=
  (∀ prog ibs0 pbs0, (State.launch prog ibs0 pbs0).pc = 0) ∧
  (∀ s : State, s.pc < s.prog.length → ∃ t, step s = .next t ∧ t.pc = s.pc + 1 ∧ t.prog = s.prog) ∧
  (∀ s : State, s.fetch = s.prog[s.pc]? ∧ (s.fetch = none ↔ s.prog.length ≤ s.pc)) ∧
  (∀ (i : Instr) (s : State) (n : Nat), ∃ t, exec i s = .next t ∧ t.pc = s.pc + 1 ∧
    exec i { s with pc := n } = .next { t with pc := n + 1 })

/-- With no word left the block idles in whatever state it is in (R243; that idling is a step that changes nothing is the
model's choice, log 7). -/
def Obligations.EndedRunIdles : Prop := ∀ s : State, s.prog.length ≤ s.pc → step s = .next s

/-- R210: while halted, every command but `RESET` and a `RD` of a defined register is discarded and only `pc` advances, an
illegal word included; `RD` answers as always; `RESET` ends the halt. -/
def Obligations.HaltedCommandsAreDiscarded : Prop :=
  ∀ s : State, s.fcode ≠ 0 →
    (∀ i : Instr, i ≠ .reset → (∀ csr, i = .rd csr → 0x09 < csr) → exec i s = .next s.passed) ∧
    (∀ w e, s.prog[s.pc]? = some w → decode w = .error e → step s = .next s.passed) ∧
    (∀ csr : Byte, csr ≤ 0x09 → ∃ c, csrOfNumber csr = some c ∧ exec (.rd csr) s = .next (s.readCsr c).passed) ∧
    (∃ t, exec .reset s = .next t ∧ t.fcode = 0)

/-- R213 and R31: the only exit from the halted state is `RESET`; until then no step changes the record of the first fault. -/
def Obligations.OnlyResetClearsTheFault : Prop :=
  ∀ (s t : State), s.fcode ≠ 0 → step s = .next t →
    (s.prog[s.pc]? ≠ some 0x0100000000 → t.fcode = s.fcode ∧ t.finfo = s.finfo) ∧
    (s.prog[s.pc]? = some 0x0100000000 → t.IsReset)

/-- R208: which faults a step records, from which command, on which condition, with which `FINFO`; codes 10 to 255 never;
`RESET`, `BR.END`, `BW.BIT` and `BW.FLUSH` cannot fault. Conditions on counts and streams are read in the state the fault leaves. -/
def Obligations.FaultCausesAreTheTable : Prop :=
  (∀ (s t : State) (w : CmdWord), s.fcode = 0 → s.prog[s.pc]? = some w → step s = .next t → t.fcode ≠ 0 →
    (t.fcode = 1 ∧ t.finfo = w.zeroExtend 64 ∧
      ((∃ e, decode w = .error e) ∨ ∃ csr, decode w = .ok (.rd csr) ∧ 0x09 < csr)) ∨
    (∃ i, decode w = .ok i ∧
      ((t.fcode = 2 ∧ t.finfo = w.zeroExtend 64 ∧
          ((i = .trClr ∨ (∃ l r ll rl, i = .trPush l r ll rl) ∨ i = .ctBuild) ∧ (s.encd ≠ 0 ∨ s.decd ≠ 0 ∨ s.walk = true) ∨
           ((∃ imm, i = .setnLo imm) ∨ (∃ imm, i = .setnHi imm)) ∧ s.encd ≠ 0 ∨
           ((∃ imm, i = .setmLo imm) ∨ (∃ imm, i = .setmHi imm)) ∧ (s.decd ≠ 0 ∨ s.walk = true))) ∨
       (t.fcode = 3 ∧ t.finfo = w.zeroExtend 64 ∧ (∃ l r ll rl, i = .trPush l r ll rl) ∧ s.nc = 255) ∨
       (t.fcode = 4 ∧ t.finfo = w.zeroExtend 64 ∧
          ∃ l r ll rl, i = .trPush l r ll rl ∧ (ll = false ∧ s.nc ≤ l ∨ rl = false ∧ s.nc ≤ r)) ∨
       (t.fcode = 5 ∧ t.finfo = 0 ∧ (i = .decStep ∨ i = .decSym ∨ i = .decRun) ∧ s.decd < s.decm ∧ s.nc = 0) ∨
       (t.fcode = 6 ∧ (i = .encStep ∨ i = .encRun) ∧ ∃ v : Byte, t.finfo = v.zeroExtend 64 ∧ s.codeLen v = 0 ∧ v ∈ s.ibs) ∨
       (t.fcode = 7 ∧ (i = .encStep ∨ i = .encRun) ∧ t.finfo = t.encd ∧ t.encd < t.encn ∧ t.ibs = []) ∨
       (t.fcode = 8 ∧ (i = .decStep ∨ i = .decSym ∨ i = .decRun) ∧ t.finfo = t.decd ∧ t.decd < t.decm ∧
          t.rcnt = 0 ∧ t.pbs = []) ∨
       (t.fcode = 9 ∧ t.finfo = 0 ∧ i = .brBit ∧ s.rcnt = 0 ∧ s.pbs = [])))) ∧
  (∀ (s t : State) (i : Instr), s.fcode = 0 → exec i s = .next t →
    (i = .reset ∨ i = .brEnd ∨ (∃ b, i = .bwBit b) ∨ i = .bwFlush) → t.fcode = 0)

/-! ### System commands -/

/-- R38: at launch and after `RESET` the block is in the reset state; launch sets `pc` to 0 and the streams to their parameters
and to empty (R35); `RESET` does not reset `pc`, which goes on counting. -/
def Obligations.LaunchAndResetReachTheResetState : Prop :=
  (∀ prog ibs0 pbs0, (State.launch prog ibs0 pbs0).IsReset ∧
    (State.launch prog ibs0 pbs0).prog = prog ∧ (State.launch prog ibs0 pbs0).pc = 0 ∧
    (State.launch prog ibs0 pbs0).ibs = ibs0 ∧ (State.launch prog ibs0 pbs0).pbs = pbs0 ∧
    (State.launch prog ibs0 pbs0).obs = [] ∧ (State.launch prog ibs0 pbs0).dbs = [] ∧
    (State.launch prog ibs0 pbs0).rsp = []) ∧
  (∀ s : State, ∃ t, exec .reset s = .next t ∧ t.IsReset ∧ t.pc = s.pc + 1)

/-- R196 and R237: `RESET`, halted or not, reaches the reset state, touches no stream, loses the bits in both cursor buffers
without pushing them, and only advances `pc`. -/
def Obligations.ResetBeginsASession : Prop :=
  encode .reset = 0x0100000000 ∧
  ∀ s : State, ∃ t, exec .reset s = .next t ∧ t.IsReset ∧ t.pc = s.pc + 1 ∧ t.prog = s.prog ∧
    t.ibs = s.ibs ∧ t.pbs = s.pbs ∧ t.obs = s.obs ∧ t.dbs = s.dbs ∧ t.rsp = s.rsp ∧
    t.pendingBits = [] ∧ t.unreadBits = unpack s.pbs

/-- R197 and R33: `RD` pushes the 64-bit image of the register, halted or not, and changes nothing else; the bits of `WCUR` from
`WFILL` up are free (R198). An undefined number faults with the command word, and is discarded when halted. -/
def Obligations.RdPushesTheImage : Prop :=
  (∀ csr : Byte, encode (.rd csr) = (0x02000000#32 ++ csr : BitVec 40)) ∧
  (∀ s : State,
    exec (.rd 0x00) s = .next (s.answered
      (0#54 ++ BitVec.ofBool (decide (s.rcnt = 0 ∧ s.pbs = [])) ++ BitVec.ofBool s.walk ++ s.fcode : BitVec 64)) ∧
    exec (.rd 0x01) s = .next (s.answered s.finfo) ∧
    exec (.rd 0x02) s = .next (s.answered (0#56 ++ s.nc : BitVec 64)) ∧
    exec (.rd 0x03) s = .next (s.answered (0#56 ++ s.cur : BitVec 64)) ∧
    exec (.rd 0x04) s = .next (s.answered s.encn) ∧
    exec (.rd 0x05) s = .next (s.answered s.encd) ∧
    exec (.rd 0x06) s = .next (s.answered s.decm) ∧
    exec (.rd 0x07) s = .next (s.answered s.decd) ∧
    exec (.rd 0x08) s = .next (s.answered (0#52 ++ s.rcnt ++ s.rbuf : BitVec 64)) ∧
    (∃ v : Byte, exec (.rd 0x09) s =
        .next { s with rsp := s.rsp ++ [(0#53 ++ s.wfill ++ v : BitVec 64)], draws := s.draws + 1, pc := s.pc + 1 } ∧
      ∀ k < s.wfill.toNat, v.getLsbD k = s.wacc.getLsbD k) ∧
    ∀ csr : Byte, 0x09 < csr →
      (s.fcode = 0 → exec (.rd csr) s = .next (s.faulted 1 ((encode (.rd csr)).zeroExtend 64))) ∧
      (s.fcode ≠ 0 → exec (.rd csr) s = .next s.passed))

/-- R100: `BR.BIT`, `BR.END` and `RD` push exactly one word when they complete without fault; no other command pushes to
`RSP`, and a command that faults or is discarded pushes nothing. -/
def Obligations.ResponsesAreOneWordEach : Prop :=
  ∀ (i : Instr) (s t : State), exec i s = .next t →
    ((i ≠ .brBit ∧ i ≠ .brEnd ∧ ∀ csr, i ≠ .rd csr) → t.rsp = s.rsp) ∧
    (s.fcode = 0 → t.fcode = 0 → (i = .brBit ∨ i = .brEnd ∨ ∃ csr, i = .rd csr) → ∃ v, t.rsp = s.rsp ++ [v]) ∧
    (s.fcode = 0 → t.fcode ≠ 0 → t.rsp = s.rsp) ∧
    (s.fcode ≠ 0 → i ≠ .reset → (∀ csr, i = .rd csr → 0x09 < csr) → t.rsp = s.rsp)

/-! ### The bit cursor -/

/-- R125: `BR.BIT` faults `RD_AT_END` with nothing popped or pushed when no bit is left; otherwise it pushes the next bit, bit 0
of a fresh byte first, fetching a byte only when the buffer is empty. -/
def Obligations.BrBitReadsOneBit : Prop :=
  encode .brBit = 0x2000000000 ∧
  ∀ s : State, s.fcode = 0 →
    (s.rcnt = 0 → s.pbs = [] → exec .brBit s = .next (s.faulted 9 0)) ∧
    (∀ v rest, s.rcnt = 0 → s.pbs = v :: rest → exec .brBit s =
      .next { s with rbuf := v, rcnt := 7, pbs := rest,
                     rsp := s.rsp ++ [(BitVec.ofBool (v.getLsbD 0)).zeroExtend 64], pc := s.pc + 1 }) ∧
    (s.rcnt ≠ 0 → s.rcnt ≤ 8 → exec .brBit s =
      .next { s with rcnt := s.rcnt - 1,
                     rsp := s.rsp ++ [(BitVec.ofBool (s.rbuf.getLsbD (8 - s.rcnt.toNat))).zeroExtend 64], pc := s.pc + 1 })

/-- R126 and R121: `BR.END` pushes 1 exactly when no bit is left in the buffer and no byte in the stream, and consumes nothing. -/
def Obligations.BrEndAnswersAtEnd : Prop :=
  encode .brEnd = 0x2100000000 ∧
  ∀ s : State, s.fcode = 0 →
    exec .brEnd s = .next (s.answered (if s.rcnt = 0 ∧ s.pbs = [] then 1 else 0))

/-- R127 and R123: `BW.BIT b` places the bit at the next free low-order slot, above the bits already placed, which stay; the eighth
bit pushes the byte. Nothing is said of the bits of `WACC` that are not placed. -/
def Obligations.BwBitPlacesOneBit : Prop :=
  encode (.bwBit false) = 0x2400000000 ∧ encode (.bwBit true) = 0x2400000001 ∧
  ∀ (s : State) (b : Bool), s.fcode = 0 →
    ∃ acc : Byte, acc.getLsbD s.wfill.toNat = b ∧ (∀ k < s.wfill.toNat, acc.getLsbD k = s.wacc.getLsbD k) ∧
      (s.wfill = 7 → exec (.bwBit b) s =
        .next { s with wacc := acc, wfill := 0, obs := s.obs ++ [acc], pc := s.pc + 1 }) ∧
      (s.wfill ≠ 7 → exec (.bwBit b) s = .next { s with wacc := acc, wfill := s.wfill + 1, pc := s.pc + 1 })

/-- R128 and R124: `BW.FLUSH` pushes nothing with no bit pending, and otherwise one byte whose low `WFILL` bits are the pending
ones and whose other bits are the padding draw, a free value about which nothing is claimed. -/
def Obligations.BwFlushPushesThePartialByte : Prop :=
  encode .bwFlush = 0x2500000000 ∧
  ∀ s : State, s.fcode = 0 →
    (s.wfill = 0 → exec .bwFlush s = .next s.passed) ∧
    (s.wfill ≠ 0 → ∃ v : Byte,
      exec .bwFlush s = .next { s with wfill := 0, obs := s.obs ++ [v], draws := s.draws + 1, pc := s.pc + 1 } ∧
      (∀ k < s.wfill.toNat, v.getLsbD k = s.wacc.getLsbD k) ∧
      (∀ k, s.wfill.toNat ≤ k → v.getLsbD k = (Config.padDraw s.draws).getLsbD k))

/-- The read cursor hands out the bits of the buffer and then of the stream, in order, each once (R122, R67, R79): `at_end` says
whether one is left, and a `BR.BIT` answers the first and leaves the rest, having popped no byte ahead. -/
def Obligations.ReadCursorFollowsTheStream : Prop :=
  ∀ s : State, s.rcnt ≤ 8 →
    s.unreadBits.length = s.rcnt.toNat + 8 * s.pbs.length ∧
    (s.atEnd = true ↔ s.unreadBits = []) ∧
    (s.fcode = 0 → ∀ b rest, s.unreadBits = b :: rest → ∃ t, exec .brBit s = .next t ∧ t.unreadBits = rest ∧
      s.Consumed t [b] ∧ t.rsp = s.rsp ++ [(BitVec.ofBool b).zeroExtend 64] ∧ t.pbs.length = rest.length / 8)

/-- R67: the first `T` bits of `Unpack(Pack(s, pads))` are `s`, whatever the padding, and `Pack` gives `ceil(T / 8)` bytes. -/
def Obligations.UnpackUndoesPack : Prop :=
  ∀ (bits : List Bool) (pad : Byte),
    (unpack (pack pad bits)).take bits.length = bits ∧ (pack pad bits).length = (bits.length + 7) / 8 ∧
    (∀ bytes : List Byte, (unpack bytes).length = 8 * bytes.length)

/-- R67 and R78: the bytes pushed to `OBS` by a sequence of `put_bit` from an empty write cursor followed by one `BW.FLUSH` are
`Pack` of the bits put, `ceil(T / 8)` of them; before the flush `floor(T / 8)` have been pushed and `WFILL` is `T mod 8`. -/
def Obligations.PutAndFlushPack : Prop :=
  ∀ (s : State) (bits : List Bool), s.fcode = 0 → s.wfill = 0 →
    (∃ t, exec .bwFlush (s.putBits bits) = .next t ∧ t.wfill = 0 ∧
      t.obs = s.obs ++ pack (Config.padDraw s.draws) bits ∧ t.obs.length = s.obs.length + (bits.length + 7) / 8) ∧
    (s.putBits bits).wfill.toNat = bits.length % 8 ∧
    (s.putBits bits).obs.length = s.obs.length + bits.length / 8

/-- R129: what a write cursor put and flushed, a read cursor that starts on those bytes returns in order, whatever the padding
draw was, and `8 * ceil(T / 8) - T` padding bits remain. -/
def Obligations.CursorRoundTrip : Prop :=
  ∀ (s t r : State) (bits : List Bool), s.fcode = 0 → s.wfill = 0 →
    exec .bwFlush (s.putBits bits) = .next t → t.obs = s.obs ++ r.pbs → r.rcnt = 0 →
    ∃ padding : List Bool, r.unreadBits = bits ++ padding ∧ padding.length = 8 * ((bits.length + 7) / 8) - bits.length

/-- R120: the read half touches nothing of the write half and the other way round, and neither looks at counts, tree or table. -/
def Obligations.CursorHalvesAreIndependent : Prop :=
  (∀ (i : Instr) (s : State), i = .brBit ∨ i = .brEnd →
    ∃ t, exec i s = .next t ∧ t.wacc = s.wacc ∧ t.wfill = s.wfill ∧ t.obs = s.obs ∧
      ∀ acc fill obs, exec i { s with wacc := acc, wfill := fill, obs := obs } =
        .next { t with wacc := acc, wfill := fill, obs := obs }) ∧
  (∀ (i : Instr) (s : State), (∃ b, i = .bwBit b) ∨ i = .bwFlush →
    ∃ t, exec i s = .next t ∧ t.rbuf = s.rbuf ∧ t.rcnt = s.rcnt ∧ t.pbs = s.pbs ∧
      ∀ buf cnt pbs, exec i { s with rbuf := buf, rcnt := cnt, pbs := pbs } =
        .next { t with rbuf := buf, rcnt := cnt, pbs := pbs }) ∧
  (∀ (i : Instr) (s : State), i = .brBit ∨ i = .brEnd ∨ (∃ b, i = .bwBit b) ∨ i = .bwFlush →
    ∃ t, exec i s = .next t ∧
      ∀ nc node lleaf rleaf ctLen ctBits encn encd decm decd,
        exec i { s with nc := nc, node := node, lleaf := lleaf, rleaf := rleaf, ctLen := ctLen, ctBits := ctBits,
                        encn := encn, encd := encd, decm := decm, decd := decd } =
          .next { t with nc := nc, node := node, lleaf := lleaf, rleaf := rleaf, ctLen := ctLen, ctBits := ctBits,
                         encn := encn, encd := encd, decm := decm, decd := decd })

/-! ### Tree and counts -/

/-- R141: the configuration commands fault with `SEQ` and the command's own word, and do nothing else, once the engine concerned
has started. -/
def Obligations.ConfigurationIsFrozen : Prop :=
  ∀ (s : State) (i : Instr), s.fcode = 0 →
    ((i = .trClr ∨ (∃ l r ll rl, i = .trPush l r ll rl) ∨ i = .ctBuild) →
      (s.encd ≠ 0 ∨ s.decd ≠ 0 ∨ s.walk = true) → exec i s = .next (s.faulted 2 ((encode i).zeroExtend 64))) ∧
    (((∃ imm, i = .setnLo imm) ∨ ∃ imm, i = .setnHi imm) → s.encd ≠ 0 →
      exec i s = .next (s.faulted 2 ((encode i).zeroExtend 64))) ∧
    (((∃ imm, i = .setmLo imm) ∨ ∃ imm, i = .setmHi imm) → (s.decd ≠ 0 ∨ s.walk = true) →
      exec i s = .next (s.faulted 2 ((encode i).zeroExtend 64)))

/-- R142: `TR.CLR` leaves `NC = 0` and an empty code table. -/
def Obligations.TrClrForgetsTheTree : Prop :=
  encode .trClr = 0x1000000000 ∧
  ∀ s : State, s.fcode = 0 →
    (s.encd = 0 → s.decd = 0 → s.walk = false → ∃ t, exec .trClr s = .next t ∧ t.nc = 0 ∧ (∀ v, t.codeLen v = 0) ∧
      t = { s with nc := t.nc, ctLen := t.ctLen, pc := s.pc + 1 }) ∧
    ((s.encd ≠ 0 ∨ s.decd ≠ 0 ∨ s.walk = true) → exec .trClr s = .next (s.faulted 2 0x1000000000))

/-- R143, R144, R146: `TR.PUSH` tests `SEQ`, then `TREE_FULL`, then `TREE_INVALID`, writing nothing on any of them; otherwise it
stores the node with its flags at index `NC`, counts it, leaves every other node and empties the code table. -/
def Obligations.TrPushAppendsOneNode : Prop :=
  ∀ (l r : Byte) (ll rl : Bool),
    (encode (.trPush l r ll rl)).toNat =
      0x1100000000 + l.toNat + 256 * r.toNat + 65536 * ll.toNat + 131072 * rl.toNat ∧
    ∀ s : State, s.fcode = 0 →
      ((s.encd ≠ 0 ∨ s.decd ≠ 0 ∨ s.walk = true) →
        exec (.trPush l r ll rl) s = .next (s.faulted 2 ((encode (.trPush l r ll rl)).zeroExtend 64))) ∧
      (s.encd = 0 → s.decd = 0 → s.walk = false →
        (s.nc = 255 →
          exec (.trPush l r ll rl) s = .next (s.faulted 3 ((encode (.trPush l r ll rl)).zeroExtend 64))) ∧
        (s.nc ≠ 255 → (ll = false ∧ s.nc ≤ l ∨ rl = false ∧ s.nc ≤ r) →
          exec (.trPush l r ll rl) s = .next (s.faulted 4 ((encode (.trPush l r ll rl)).zeroExtend 64))) ∧
        (s.nc ≠ 255 → (ll = true ∨ l < s.nc) → (rl = true ∨ r < s.nc) →
          ∃ t, exec (.trPush l r ll rl) s = .next t ∧
            t.nc.toNat = s.nc.toNat + 1 ∧ t.nodeAt s.nc = ⟨l, r⟩ ∧ t.lleafAt s.nc = ll ∧ t.rleafAt s.nc = rl ∧
            (∀ i, i ≠ s.nc → t.nodeAt i = s.nodeAt i ∧ t.lleafAt i = s.lleafAt i ∧ t.rleafAt i = s.rleafAt i) ∧
            (∀ v, t.codeLen v = 0) ∧
            t = { s with nc := t.nc, node := t.node, lleaf := t.lleaf, rleaf := t.rleaf, ctLen := t.ctLen, pc := s.pc + 1 }))

/-- R148 and R149: `SETN.LO` and `SETN.HI` write one half of `ENCN` and leave the other; `SEQ` once the encoder has started. -/
def Obligations.SetnWritesOneHalf : Prop :=
  ∀ imm : Arg,
    encode (.setnLo imm) = (0x14#8 ++ imm : BitVec 40) ∧ encode (.setnHi imm) = (0x15#8 ++ imm : BitVec 40) ∧
    ∀ s : State, s.fcode = 0 →
      (s.encd = 0 → ∃ n : Word64, exec (.setnLo imm) s = .next { s with encn := n, pc := s.pc + 1 } ∧
        n.extractLsb' 0 32 = imm ∧ n.extractLsb' 32 32 = s.encn.extractLsb' 32 32) ∧
      (s.encd = 0 → ∃ n : Word64, exec (.setnHi imm) s = .next { s with encn := n, pc := s.pc + 1 } ∧
        n.extractLsb' 32 32 = imm ∧ n.extractLsb' 0 32 = s.encn.extractLsb' 0 32) ∧
      (s.encd ≠ 0 →
        exec (.setnLo imm) s = .next (s.faulted 2 ((encode (.setnLo imm)).zeroExtend 64)) ∧
        exec (.setnHi imm) s = .next (s.faulted 2 ((encode (.setnHi imm)).zeroExtend 64)))

/-- R150 and R151: `SETM.LO` and `SETM.HI` write one half of `DECM` and leave the other; `SEQ` once the decoder has started. -/
def Obligations.SetmWritesOneHalf : Prop :=
  ∀ imm : Arg,
    encode (.setmLo imm) = (0x16#8 ++ imm : BitVec 40) ∧ encode (.setmHi imm) = (0x17#8 ++ imm : BitVec 40) ∧
    ∀ s : State, s.fcode = 0 →
      (s.decd = 0 → s.walk = false → ∃ n : Word64, exec (.setmLo imm) s = .next { s with decm := n, pc := s.pc + 1 } ∧
        n.extractLsb' 0 32 = imm ∧ n.extractLsb' 32 32 = s.decm.extractLsb' 32 32) ∧
      (s.decd = 0 → s.walk = false → ∃ n : Word64, exec (.setmHi imm) s = .next { s with decm := n, pc := s.pc + 1 } ∧
        n.extractLsb' 32 32 = imm ∧ n.extractLsb' 0 32 = s.decm.extractLsb' 0 32) ∧
      ((s.decd ≠ 0 ∨ s.walk = true) →
        exec (.setmLo imm) s = .next (s.faulted 2 ((encode (.setmLo imm)).zeroExtend 64)) ∧
        exec (.setmHi imm) s = .next (s.faulted 2 ((encode (.setmHi imm)).zeroExtend 64)))

/-- R94: a full 64-bit count `v` is loaded by the pair `.LO v[31:0]`, `.HI v[63:32]`, in either order. -/
def Obligations.CountsLoadInEitherOrder : Prop :=
  ∀ (s : State) (v : Word64), s.fcode = 0 →
    (s.encd = 0 → ∃ a b c d,
      exec (.setnLo (v.extractLsb' 0 32)) s = .next a ∧ exec (.setnHi (v.extractLsb' 32 32)) a = .next b ∧ b.encn = v ∧
      exec (.setnHi (v.extractLsb' 32 32)) s = .next c ∧ exec (.setnLo (v.extractLsb' 0 32)) c = .next d ∧ d = b) ∧
    (s.decd = 0 → s.walk = false → ∃ a b c d,
      exec (.setmLo (v.extractLsb' 0 32)) s = .next a ∧ exec (.setmHi (v.extractLsb' 32 32)) a = .next b ∧ b.decm = v ∧
      exec (.setmHi (v.extractLsb' 32 32)) s = .next c ∧ exec (.setmLo (v.extractLsb' 0 32)) c = .next d ∧ d = b)

/-- R147: from an empty tree, at most 255 nodes whose index children are below their own index, pushed in order, are the tree:
`NC` counts them and each stands at its own index with its flags. -/
def Obligations.PushingLoadsTheWholeTree : Prop :=
  ∀ (s : State) (ns : List (Byte × Byte × Bool × Bool)),
    s.fcode = 0 → s.encd = 0 → s.decd = 0 → s.walk = false → s.nc = 0 → ns.length ≤ 255 →
    (∀ (k : Nat) (l r : Byte) (ll rl : Bool), ns[k]? = some (l, r, ll, rl) →
      (ll = false → l.toNat < k) ∧ (rl = false → r.toNat < k)) →
    ∃ t, execAll (ns.map fun n => .trPush n.1 n.2.1 n.2.2.1 n.2.2.2) s = some t ∧ t.fcode = 0 ∧ t.nc.toNat = ns.length ∧
      ∀ (k : Nat) (l r : Byte) (ll rl : Bool), ns[k]? = some (l, r, ll, rl) →
        t.nodeAt (BitVec.ofNat 8 k) = ⟨l, r⟩ ∧ t.lleafAt (BitVec.ofNat 8 k) = ll ∧ t.rleafAt (BitVec.ofNat 8 k) = rl

/-- R102: what the pseudo-commands stand for, and what the two that load a count do. -/
def Obligations.PseudoCommandsExpand : Prop :=
  (∀ v : Word64, expandPseudo (.setn v) = [.setnLo (v.extractLsb' 0 32), .setnHi (v.extractLsb' 32 32)] ∧
    expandPseudo (.setm v) = [.setmLo (v.extractLsb' 0 32), .setmHi (v.extractLsb' 32 32)]) ∧
  (∀ a b : Byte, expandPseudo (.trLeaves a b) = [.trPush a b true true]) ∧
  expandPseudo .compress = [.encRun, .bwFlush] ∧ expandPseudo .decompress = [.decRun] ∧
  (∀ (s : State) (v : Word64), s.fcode = 0 →
    (s.encd = 0 → execAll (expandPseudo (.setn v)) s = some { s with encn := v, pc := s.pc + 2 }) ∧
    (s.decd = 0 → s.walk = false → execAll (expandPseudo (.setm v)) s = some { s with decm := v, pc := s.pc + 2 }))

/-! ### The code table -/

/-- R160: `CT.BUILD` faults with `SEQ` once an engine has started; otherwise it writes the code table and nothing else, the empty
table when `NC = 0`. -/
def Obligations.CtBuildWritesOnlyTheTable : Prop :=
  encode .ctBuild = 0x1200000000 ∧
  ∀ s : State, s.fcode = 0 →
    ((s.encd ≠ 0 ∨ s.decd ≠ 0 ∨ s.walk = true) → exec .ctBuild s = .next (s.faulted 2 0x1200000000)) ∧
    (s.encd = 0 → s.decd = 0 → s.walk = false →
      ∃ t, exec .ctBuild s = .next t ∧ t = { s with ctLen := t.ctLen, ctBits := t.ctBits, pc := s.pc + 1 } ∧
        (s.nc = 0 → ∀ v, t.codeLen v = 0))

/-- R162: no leaf path goes on past another; after `CT.BUILD` on a well-formed tree a byte value has no code exactly when no leaf
path has that value, and otherwise its code is the lexicographically least leaf path of that value, of 1 to `NC` bits. -/
def Obligations.CodesAreLeastLeafPaths : Prop :=
  ∀ s : State, s.TreeWF → s.fcode = 0 → s.encd = 0 → s.decd = 0 → s.walk = false →
    ∃ t, exec .ctBuild s = .next t ∧
      (∀ p q v u, s.leafValue p = some v → s.leafValue (p ++ q) = some u → q = []) ∧
      ∀ v : Byte,
        (t.codeLen v = 0 ↔ ∀ p, s.leafValue p ≠ some v) ∧
        (t.codeLen v ≠ 0 → s.leafValue (t.code v) = some v ∧ (∀ p, s.leafValue p = some v → t.code v ≤ p) ∧
          1 ≤ (t.code v).length ∧ (t.code v).length ≤ s.nc.toNat)

/-- R163: after `CT.BUILD` on a well-formed tree (a) a code is a leaf path of its value, (b) a value that stands at a leaf that
can be reached has a code, (c) one, and (d) the codes of different values are different and none is a prefix of another. -/
def Obligations.CodesAreSoundCompleteAndPrefixFree : Prop :=
  ∀ s : State, s.TreeWF → s.fcode = 0 → s.encd = 0 → s.decd = 0 → s.walk = false →
    ∃ t, exec .ctBuild s = .next t ∧
      (∀ v : Byte, t.codeLen v ≠ 0 → t.leafValue (t.code v) = some v) ∧
      (∀ p v, t.leafValue p = some v → t.codeLen v ≠ 0) ∧
      ∀ v u : Byte, v ≠ u → t.codeLen v ≠ 0 → t.codeLen u ≠ 0 → t.code v ≠ t.code u ∧ ¬ t.code v <+: t.code u

/-- R164 and R187, the degenerate tree `(v, v)` with both flags set: `CT.BUILD` retains the left path, so the code of `v` is the
one bit 0 and no other value has a code; and every decoder step yields `v` whatever its bit is, so that `DEC.RUN` yields `v`
for every bit, one bit a symbol. -/
def Obligations.DegenerateTree : Prop :=
  ∀ (s : State) (v : Byte), s.fcode = 0 → s.nc = 1 → s.nodeAt 0 = ⟨v, v⟩ → s.lleafAt 0 = true → s.rleafAt 0 = true →
    (s.encd = 0 → s.decd = 0 → s.walk = false → ∃ t, exec .ctBuild s = .next t ∧ t.code v = [false] ∧
      ∀ u, u ≠ v → t.codeLen u = 0) ∧
    (∀ b rest, s.rcnt ≤ 8 → s.walk = false → s.decd < s.decm → s.unreadBits = b :: rest →
      ∃ t, exec .decStep s = .next t ∧ t.fcode = 0 ∧ t.walk = false ∧ t.decd = s.decd + 1 ∧ t.dbs = s.dbs ++ [v] ∧
        t.unreadBits = rest) ∧
    (s.rcnt ≤ 8 → s.walk = false → s.decd ≤ s.decm → (s.decm - s.decd).toNat ≤ s.unreadBits.length →
      ∃ t, exec .decRun s = .next t ∧ t.fcode = 0 ∧ t.decd = s.decm ∧
        t.dbs = s.dbs ++ List.replicate (s.decm - s.decd).toNat v ∧
        t.unreadBits = s.unreadBits.drop (s.decm - s.decd).toNat)

/-! ### The encoder -/

/-- R171 and R173: `ENC.STEP` is a no-op at the count; faults `TRUNC_ENC` with nothing popped, or `LOOKUP` with the byte popped and
nothing put; otherwise it pops one byte, puts the bits of its code, the root bit first, and counts it. -/
def Obligations.EncStepEncodesOneByte : Prop :=
  encode .encStep = 0x3000000000 ∧
  ∀ s : State, s.fcode = 0 →
    (s.encn ≤ s.encd → exec .encStep s = .next s.passed) ∧
    (s.encd < s.encn → s.ibs = [] → exec .encStep s = .next (s.faulted 7 s.encd)) ∧
    (∀ v rest, s.encd < s.encn → s.ibs = v :: rest → s.codeLen v = 0 →
      exec .encStep s = .next ({ s with ibs := rest }.faulted 6 (v.zeroExtend 64))) ∧
    (∀ v rest, s.encd < s.encn → s.ibs = v :: rest → s.codeLen v ≠ 0 →
      ∃ t, exec .encStep s = .next t ∧ s.Wrote t (s.code v) ∧
        t = { s with ibs := rest, encd := s.encd + 1, wacc := t.wacc, wfill := t.wfill, obs := t.obs, pc := s.pc + 1 })

/-- R172 and R174: with enough input and a code for each byte, `ENC.RUN` pops exactly `ENCN - ENCD` bytes, puts the concatenation
of their codes, ends with `ENCD = ENCN`, and does not flush. -/
def Obligations.EncRunEncodesToTheCount : Prop :=
  encode .encRun = 0x3100000000 ∧
  ∀ (s : State) (n : Nat), s.fcode = 0 → s.encd ≤ s.encn → n = (s.encn - s.encd).toNat → n ≤ s.ibs.length →
    (∀ v ∈ s.ibs.take n, s.codeLen v ≠ 0) →
    ∃ t, exec .encRun s = .next t ∧ s.Wrote t ((s.ibs.take n).flatMap s.code) ∧
      t = { s with ibs := s.ibs.drop n, encd := s.encn, wacc := t.wacc, wfill := t.wfill, obs := t.obs, pc := s.pc + 1 }

/-- R172, where `ENC.RUN` faults: at the first byte with no code (`LOOKUP`, that byte popped), or when the input ends before the
count (`TRUNC_ENC`), with the bits of every earlier byte already put and those bytes counted. -/
def Obligations.EncRunFaultsAtTheFirstBadByte : Prop :=
  ∀ (s : State) (good : List Byte), s.fcode = 0 → s.encd ≤ s.encn → good.length < (s.encn - s.encd).toNat →
    (∀ v ∈ good, s.codeLen v ≠ 0) →
    (∀ v rest, s.ibs = good ++ v :: rest → s.codeLen v = 0 →
      ∃ t, exec .encRun s = .next t ∧ s.Wrote t (good.flatMap s.code) ∧
        t = { s with ibs := rest, encd := s.encd + BitVec.ofNat 64 good.length, fcode := 6, finfo := v.zeroExtend 64,
                     wacc := t.wacc, wfill := t.wfill, obs := t.obs, pc := s.pc + 1 }) ∧
    (s.ibs = good →
      ∃ t, exec .encRun s = .next t ∧ s.Wrote t (good.flatMap s.code) ∧
        t = { s with ibs := [], encd := s.encd + BitVec.ofNat 64 good.length, fcode := 7,
                     finfo := s.encd + BitVec.ofNat 64 good.length,
                     wacc := t.wacc, wfill := t.wfill, obs := t.obs, pc := s.pc + 1 })

/-- R176: `ENC.RUN` faults with `LOOKUP` exactly when the bytes it is to encode hold one that stands at no leaf path of the loaded
tree, or, with at least one byte to encode, when the table is empty (that a table not empty is complete is inferred, log 22). -/
def Obligations.LookupMeansNoLeafOrNoTable : Prop :=
  ∀ s t : State, s.Inv → s.fcode = 0 → exec .encRun s = .next t →
    (t.fcode = 6 ↔ ∃ v ∈ s.ibs.take (s.encn - s.encd).toNat, (∀ p, s.leafValue p ≠ some v) ∨ ∀ u, s.codeLen u = 0)

/-- Steps and runs compose (R173, R184): in every state, one `ENC.STEP` and then `ENC.RUN` do what `ENC.RUN` does, and one
`DEC.STEP` or one `DEC.SYM` and then `DEC.RUN` do what `DEC.RUN` does, up to the count of commands in `pc`. -/
def Obligations.StepsThenRunEqualRun : Prop :=
  ∀ s : State,
    (∃ t u, exec .encStep s = .next t ∧ exec .encRun t = .next u ∧ exec .encRun s = .next { u with pc := s.pc + 1 }) ∧
    (∃ t u, exec .decStep s = .next t ∧ exec .decRun t = .next u ∧ exec .decRun s = .next { u with pc := s.pc + 1 }) ∧
    (∃ t u, exec .decSym s = .next t ∧ exec .decRun t = .next u ∧ exec .decRun s = .next { u with pc := s.pc + 1 })

/-! ### The decoder -/

/-- R181 and R182: `DEC.STEP` is a no-op at the count; faults `NO_TREE` with nothing changed, or `TRUNC_DEC` with the walk at its
node; otherwise it reads exactly one bit and emits the literal of that side or moves to its child node. -/
def Obligations.DecStepMovesOneEdge : Prop :=
  encode .decStep = 0x4000000000 ∧
  ∀ s : State, s.fcode = 0 → s.rcnt ≤ 8 →
    (s.decm ≤ s.decd → exec .decStep s = .next s.passed) ∧
    (s.decd < s.decm → s.nc = 0 → exec .decStep s = .next (s.faulted 5 0)) ∧
    (s.decd < s.decm → s.nc ≠ 0 → s.unreadBits = [] →
      exec .decStep s = .next ({ s with cur := s.walkNode, walk := true }.faulted 8 s.decd)) ∧
    (∀ b rest, s.decd < s.decm → s.nc ≠ 0 → s.unreadBits = b :: rest →
      ∃ t, exec .decStep s = .next t ∧ s.Consumed t [b] ∧ t.unreadBits = rest ∧
        (s.childIsLeaf s.walkNode b = true →
          t = { s with cur := s.walkNode, walk := false, decd := s.decd + 1, dbs := s.dbs ++ [s.child s.walkNode b],
                       rbuf := t.rbuf, rcnt := t.rcnt, pbs := t.pbs, pc := s.pc + 1 }) ∧
        (s.childIsLeaf s.walkNode b = false →
          t = { s with cur := s.child s.walkNode b, walk := true,
                       rbuf := t.rbuf, rcnt := t.rcnt, pbs := t.pbs, pc := s.pc + 1 }))

/-- R184 and R185: `DEC.SYM` is a no-op at the count; otherwise it reads exactly the bits of the path to the next literal, emits
that literal, and grows `DECD` by one with `WALK = 0`; when the bits end inside the path it faults `TRUNC_DEC`. -/
def Obligations.DecSymDecodesOneByte : Prop :=
  encode .decSym = 0x4100000000 ∧
  ∀ s : State, s.fcode = 0 → s.rcnt ≤ 8 →
    (s.decm ≤ s.decd → exec .decSym s = .next s.passed) ∧
    (s.decd < s.decm → s.nc = 0 → exec .decSym s = .next (s.faulted 5 0)) ∧
    (∀ p rest v, s.decd < s.decm → s.nc ≠ 0 → s.leafFrom s.walkNode p = some v → s.unreadBits = p ++ rest →
      ∃ t, exec .decSym s = .next t ∧ s.Consumed t p ∧ t.unreadBits = rest ∧
        t = { s with decd := s.decd + 1, walk := false, dbs := s.dbs ++ [v],
                     cur := t.cur, rbuf := t.rbuf, rcnt := t.rcnt, pbs := t.pbs, pc := s.pc + 1 }) ∧
    (∀ p v, s.decd < s.decm → s.nc ≠ 0 → s.leafFrom s.walkNode p = some v → s.unreadBits <+: p → s.unreadBits ≠ p →
      ∃ t, exec .decSym s = .next t ∧ t.unreadBits = [] ∧
        t = { s with fcode := 8, finfo := s.decd, walk := true,
                     cur := t.cur, rbuf := t.rbuf, rcnt := t.rcnt, pbs := t.pbs, pc := s.pc + 1 })

/-- R186: no walk can go wrong inside a well-formed tree: from a loaded node a literal is reached after at most `c + 1` bits
whatever the bits are, so `DEC.SYM` with `NC` bits left completes, reading 1 to `NC` of them. -/
def Obligations.NoWalkGoesWrong : Prop :=
  (∀ (s : State) (c : Byte) (bits : List Bool), s.TreeWF → c < s.nc → c.toNat < bits.length →
    ∃ p rest v, bits = p ++ rest ∧ s.leafFrom c p = some v ∧ 1 ≤ p.length ∧ p.length ≤ c.toNat + 1) ∧
  (∀ s : State, s.TreeWF → s.fcode = 0 → s.rcnt ≤ 8 → (s.walk = true → s.cur < s.nc) → s.decd < s.decm → s.nc ≠ 0 →
    s.nc.toNat ≤ s.unreadBits.length →
    ∃ t p, exec .decSym s = .next t ∧ t.fcode = 0 ∧ t.walk = false ∧ t.decd = s.decd + 1 ∧ s.Consumed t p ∧
      1 ≤ p.length ∧ p.length ≤ s.nc.toNat)

/-- R183: with symbols enough on `PBS`, `DEC.RUN` between symbols decodes exactly the values of the leaf paths it meets, to the
count, and leaves the bits after them unread. -/
def Obligations.DecRunDecodesThePaths : Prop :=
  encode .decRun = 0x4200000000 ∧
  ∀ (s : State) (ps : List (List Bool)) (vs : List Byte) (rest : List Bool),
    s.fcode = 0 → s.rcnt ≤ 8 → s.walk = false → s.decd ≤ s.decm → vs.length = (s.decm - s.decd).toNat →
    List.Forall₂ (fun p v => s.leafValue p = some v) ps vs → s.unreadBits = ps.flatten ++ rest →
    ∃ t, exec .decRun s = .next t ∧ s.Consumed t ps.flatten ∧ t.unreadBits = rest ∧
      t = { s with decd := s.decm, dbs := s.dbs ++ vs, cur := t.cur, rbuf := t.rbuf, rcnt := t.rcnt, pbs := t.pbs, pc := s.pc + 1 }

/-- R183 and R257: on a well-formed tree `DEC.RUN` completes without fault whenever `NC x (DECM - DECD)` bits are left, in the
middle of a symbol too: it emits `DECM - DECD` bytes and ends with `WALK = 0`. -/
def Obligations.DecRunCompletes : Prop :=
  ∀ s : State, s.TreeWF → s.fcode = 0 → s.rcnt ≤ 8 → s.nc ≠ 0 → s.decd ≤ s.decm →
    (s.walk = true → s.cur < s.nc ∧ s.decd < s.decm) →
    s.nc.toNat * (s.decm - s.decd).toNat ≤ s.unreadBits.length →
    ∃ t out, exec .decRun s = .next t ∧ t.fcode = 0 ∧ t.walk = false ∧ t.decd = s.decm ∧ t.dbs = s.dbs ++ out ∧
      out.length = (s.decm - s.decd).toNat

/-- R188: when the payload on `PBS` is a proper prefix of the bits the owed symbols need, `DEC.RUN` ends in `TRUNC_DEC` with
`DECD < DECM` and `FINFO = DECD`, never silently; the bytes already decoded are right and stay pushed. -/
def Obligations.TruncationIsDetected : Prop :=
  ∀ (s : State) (ps : List (List Bool)) (vs : List Byte),
    s.fcode = 0 → s.rcnt ≤ 8 → s.walk = false → s.decd ≤ s.decm → vs.length = (s.decm - s.decd).toNat →
    List.Forall₂ (fun p v => s.leafValue p = some v) ps vs →
    s.unreadBits <+: ps.flatten → s.unreadBits.length < ps.flatten.length →
    ∃ t k, exec .decRun s = .next t ∧ t.fcode = 8 ∧ t.finfo = t.decd ∧ t.decd < t.decm ∧ t.walk = true ∧
      t.unreadBits = [] ∧ k < vs.length ∧ t.decd = s.decd + BitVec.ofNat 64 k ∧ t.dbs = s.dbs ++ vs.take k

/-- R190: `NO_TREE` is raised by exactly the decoder commands that owe a byte while `NC = 0`; with the count satisfied no tree is
needed. -/
def Obligations.NoTreeOnlyWhenAByteIsOwed : Prop :=
  (∀ (s : State) (i : Instr), s.fcode = 0 → s.nc = 0 → i = .decStep ∨ i = .decSym ∨ i = .decRun →
    (s.decd < s.decm → exec i s = .next (s.faulted 5 0)) ∧ (s.decm ≤ s.decd → exec i s = .next s.passed)) ∧
  (∀ (s t : State) (i : Instr), s.fcode = 0 → exec i s = .next t → t.fcode = 5 →
    (i = .decStep ∨ i = .decSym ∨ i = .decRun) ∧ s.decd < s.decm ∧ s.nc = 0)

/-- R170, R180 and the empty file: with its count satisfied an engine reads nothing, pops nothing, pushes nothing and needs no
tree and no table, whatever is on the streams. -/
def Obligations.SatisfiedCountsReadNothing : Prop :=
  ∀ s : State, s.fcode = 0 →
    (s.encn ≤ s.encd → exec .encRun s = .next s.passed ∧ exec .encStep s = .next s.passed) ∧
    (s.decm ≤ s.decd → exec .decRun s = .next s.passed ∧ exec .decSym s = .next s.passed ∧
      exec .decStep s = .next s.passed)

/-- R241: the encoder and the decoder share the tree and nothing else: an encoder command neither reads nor writes the decoder's
counts, walker, read cursor or output, and a decoder command neither reads nor writes the table or the encoder's counts, input,
write cursor or output. -/
def Obligations.EnginesShareOnlyTheTree : Prop :=
  (∀ (i : Instr) (s : State), i = .encStep ∨ i = .encRun → ∃ t, exec i s = .next t ∧
    ∀ decm decd cur walk rbuf rcnt pbs dbs,
      exec i { s with decm := decm, decd := decd, cur := cur, walk := walk, rbuf := rbuf, rcnt := rcnt, pbs := pbs, dbs := dbs } =
        .next { t with decm := decm, decd := decd, cur := cur, walk := walk, rbuf := rbuf, rcnt := rcnt, pbs := pbs, dbs := dbs }) ∧
  (∀ (i : Instr) (s : State), i = .decStep ∨ i = .decSym ∨ i = .decRun → ∃ t, exec i s = .next t ∧
    ∀ encn encd ctLen ctBits wacc wfill ibs obs,
      exec i { s with encn := encn, encd := encd, ctLen := ctLen, ctBits := ctBits, wacc := wacc, wfill := wfill, ibs := ibs, obs := obs } =
        .next { t with encn := encn, encd := encd, ctLen := ctLen, ctBits := ctBits, wacc := wacc, wfill := wfill, ibs := ibs, obs := obs })

/-- R175, the round trip: an encoding session `s` with the table of its well-formed tree, every one of the `N` input bytes in the
table, run and flushed; a decoding session `d` with the same tree, `DECM = N`, and `PBS` the bytes the encoding session pushed.
Then `DEC.RUN` ends without fault with `DBS` the `N` input bytes, having read no padding bit. -/
def Obligations.CompressThenDecompress : Prop :=
  ∀ (s a b c d : State) (n : Nat),
    s.TreeWF → s.fcode = 0 → s.encd = 0 → s.decd = 0 → s.walk = false → s.wfill = 0 →
    n = s.encn.toNat → n ≤ s.ibs.length →
    exec .ctBuild s = .next a → (∀ v ∈ s.ibs.take n, a.codeLen v ≠ 0) →
    exec .encRun a = .next b → exec .bwFlush b = .next c →
    d.fcode = 0 → d.nc = s.nc → d.node = s.node → d.lleaf = s.lleaf → d.rleaf = s.rleaf →
    d.decm = s.encn → d.decd = 0 → d.walk = false → d.rcnt = 0 → c.obs = s.obs ++ d.pbs →
    ∃ t padding, exec .decRun d = .next t ∧ b.fcode = 0 ∧ t.fcode = 0 ∧ t.dbs = d.dbs ++ s.ibs.take n ∧
      d.unreadBits = (s.ibs.take n).flatMap a.code ++ padding ∧ t.unreadBits = padding ∧ padding.length < 8

/-! ### The whole machine -/

/-- The invariants of R40, and the three of log 22, hold at launch. -/
def Obligations.LaunchMeetsTheInvariants : Prop := ∀ prog ibs0 pbs0, (State.launch prog ibs0 pbs0).Inv

/-- R40: every step keeps the invariants, from every state that meets them (the three that R40 does not list are inferred, log
22). -/
def Obligations.StepKeepsTheInvariants : Prop := ∀ s t : State, s.Inv → step s = .next t → t.Inv

/-- R24: no command can break the well-formedness of the tree, from any state whose tree is well formed, whatever else holds. -/
def Obligations.StepKeepsTheTreeWellFormed : Prop := ∀ s t : State, s.TreeWF → step s = .next t → t.TreeWF

/-- R63 and R64: an output stream only grows at its end, and an input stream only loses bytes at its front, in every step. -/
def Obligations.StreamsMoveOneWay : Prop :=
  ∀ s t : State, step s = .next t →
    s.obs <+: t.obs ∧ s.dbs <+: t.dbs ∧ s.rsp <+: t.rsp ∧ t.ibs <:+ s.ibs ∧ t.pbs <:+ s.pbs

/-- U4, U5, U6: storage that holds no value is never observed: two states that agree on everything else step to states that agree
on everything else, so no stream, register or later command can tell them apart. -/
def Obligations.ValuelessStorageIsUnobservable : Prop :=
  ∀ s t : State, s.Inv → s.Agrees t → ∃ u v, step s = .next u ∧ step t = .next v ∧ u.Agrees v

/-- Frame of the system commands (R39): `RD` writes nothing but `RSP` and, when it faults, the record; `RESET` writes the block's
state and no stream. -/
def Obligations.FrameOfSystemCommands : Prop :=
  (∀ (s t : State) (csr : Byte), exec (.rd csr) s = .next t →
    t = { s with fcode := t.fcode, finfo := t.finfo, rsp := t.rsp, pc := t.pc, draws := t.draws }) ∧
  (∀ s t : State, exec .reset s = .next t →
    t = { s with nc := t.nc, node := t.node, lleaf := t.lleaf, rleaf := t.rleaf, ctLen := t.ctLen, ctBits := t.ctBits,
                 encn := t.encn, encd := t.encd, decm := t.decm, decd := t.decd, rbuf := t.rbuf, rcnt := t.rcnt,
                 wacc := t.wacc, wfill := t.wfill, cur := t.cur, walk := t.walk, fcode := t.fcode, finfo := t.finfo,
                 pc := t.pc })

/-- Frame of the cursor commands (R39): the read side writes the read cursor, `PBS`, `RSP` and the record; `BR.END` only `RSP`; the
write side the write cursor and `OBS`. -/
def Obligations.FrameOfCursorCommands : Prop :=
  ∀ s t : State,
    (exec .brBit s = .next t →
      t = { s with rbuf := t.rbuf, rcnt := t.rcnt, pbs := t.pbs, rsp := t.rsp, fcode := t.fcode, finfo := t.finfo, pc := t.pc }) ∧
    (exec .brEnd s = .next t → t = { s with rsp := t.rsp, pc := t.pc }) ∧
    (∀ b, exec (.bwBit b) s = .next t → t = { s with wacc := t.wacc, wfill := t.wfill, obs := t.obs, pc := t.pc }) ∧
    (exec .bwFlush s = .next t → t = { s with wfill := t.wfill, obs := t.obs, draws := t.draws, pc := t.pc })

/-- Frame of the configuration commands (R39, R140): none touches a stream or a cursor buffer; `TR.CLR` and `TR.PUSH` write the
tree and the table, `CT.BUILD` the table, `SETN.*` `ENCN`, `SETM.*` `DECM`; each may write the record. -/
def Obligations.FrameOfConfigurationCommands : Prop :=
  ∀ s t : State,
    (exec .trClr s = .next t →
      t = { s with nc := t.nc, ctLen := t.ctLen, fcode := t.fcode, finfo := t.finfo, pc := t.pc }) ∧
    (∀ l r ll rl, exec (.trPush l r ll rl) s = .next t →
      t = { s with nc := t.nc, node := t.node, lleaf := t.lleaf, rleaf := t.rleaf, ctLen := t.ctLen,
                   fcode := t.fcode, finfo := t.finfo, pc := t.pc }) ∧
    (exec .ctBuild s = .next t →
      t = { s with ctLen := t.ctLen, ctBits := t.ctBits, fcode := t.fcode, finfo := t.finfo, pc := t.pc }) ∧
    (∀ imm, exec (.setnLo imm) s = .next t ∨ exec (.setnHi imm) s = .next t →
      t = { s with encn := t.encn, fcode := t.fcode, finfo := t.finfo, pc := t.pc }) ∧
    (∀ imm, exec (.setmLo imm) s = .next t ∨ exec (.setmHi imm) s = .next t →
      t = { s with decm := t.decm, fcode := t.fcode, finfo := t.finfo, pc := t.pc })

/-- Frame of the engines (R39, R76): the encoder writes `ENCD`, the write cursor, `IBS` and `OBS`; the decoder `DECD`, the walker, the
read cursor, `PBS` and `DBS`; each may write the record; neither writes a table. -/
def Obligations.FrameOfTheEngines : Prop :=
  ∀ (i : Instr) (s t : State), exec i s = .next t →
    (i = .encStep ∨ i = .encRun →
      t = { s with encd := t.encd, wacc := t.wacc, wfill := t.wfill, ibs := t.ibs, obs := t.obs,
                   fcode := t.fcode, finfo := t.finfo, pc := t.pc }) ∧
    (i = .decStep ∨ i = .decSym ∨ i = .decRun →
      t = { s with decd := t.decd, cur := t.cur, walk := t.walk, rbuf := t.rbuf, rcnt := t.rcnt, pbs := t.pbs, dbs := t.dbs,
                   fcode := t.fcode, finfo := t.finfo, pc := t.pc })
end

