-- ==== Sys2Proof/Laws/State.lean ====
section
/-! SUPPORT. One lemma per field per named update of the state, each true by `rfl`, so that no later proof unfolds a record update.
Every lemma about a field an update leaves alone says so; the others say what it writes. -/

namespace Sys2Proof.Machine

variable (s : State)

/-! ### `advance` -/

@[simp] theorem State.advance_nc : (s.advance).nc = s.nc := rfl
@[simp] theorem State.advance_node : (s.advance).node = s.node := rfl
@[simp] theorem State.advance_lleaf : (s.advance).lleaf = s.lleaf := rfl
@[simp] theorem State.advance_rleaf : (s.advance).rleaf = s.rleaf := rfl
@[simp] theorem State.advance_ctLen : (s.advance).ctLen = s.ctLen := rfl
@[simp] theorem State.advance_ctBits : (s.advance).ctBits = s.ctBits := rfl
@[simp] theorem State.advance_encn : (s.advance).encn = s.encn := rfl
@[simp] theorem State.advance_encd : (s.advance).encd = s.encd := rfl
@[simp] theorem State.advance_decm : (s.advance).decm = s.decm := rfl
@[simp] theorem State.advance_decd : (s.advance).decd = s.decd := rfl
@[simp] theorem State.advance_rbuf : (s.advance).rbuf = s.rbuf := rfl
@[simp] theorem State.advance_rcnt : (s.advance).rcnt = s.rcnt := rfl
@[simp] theorem State.advance_wacc : (s.advance).wacc = s.wacc := rfl
@[simp] theorem State.advance_wfill : (s.advance).wfill = s.wfill := rfl
@[simp] theorem State.advance_cur : (s.advance).cur = s.cur := rfl
@[simp] theorem State.advance_walk : (s.advance).walk = s.walk := rfl
@[simp] theorem State.advance_fcode : (s.advance).fcode = s.fcode := rfl
@[simp] theorem State.advance_finfo : (s.advance).finfo = s.finfo := rfl
@[simp] theorem State.advance_pc : (s.advance).pc = s.pc + 1 := rfl
@[simp] theorem State.advance_prog : (s.advance).prog = s.prog := rfl
@[simp] theorem State.advance_ibs : (s.advance).ibs = s.ibs := rfl
@[simp] theorem State.advance_pbs : (s.advance).pbs = s.pbs := rfl
@[simp] theorem State.advance_obs : (s.advance).obs = s.obs := rfl
@[simp] theorem State.advance_dbs : (s.advance).dbs = s.dbs := rfl
@[simp] theorem State.advance_rsp : (s.advance).rsp = s.rsp := rfl
@[simp] theorem State.advance_draws : (s.advance).draws = s.draws := rfl

/-! ### `recordFault` -/

@[simp] theorem State.recordFault_nc (c : Cause) (info : Word64) : (s.recordFault c info).nc = s.nc := rfl
@[simp] theorem State.recordFault_node (c : Cause) (info : Word64) : (s.recordFault c info).node = s.node := rfl
@[simp] theorem State.recordFault_lleaf (c : Cause) (info : Word64) : (s.recordFault c info).lleaf = s.lleaf := rfl
@[simp] theorem State.recordFault_rleaf (c : Cause) (info : Word64) : (s.recordFault c info).rleaf = s.rleaf := rfl
@[simp] theorem State.recordFault_ctLen (c : Cause) (info : Word64) : (s.recordFault c info).ctLen = s.ctLen := rfl
@[simp] theorem State.recordFault_ctBits (c : Cause) (info : Word64) : (s.recordFault c info).ctBits = s.ctBits := rfl
@[simp] theorem State.recordFault_encn (c : Cause) (info : Word64) : (s.recordFault c info).encn = s.encn := rfl
@[simp] theorem State.recordFault_encd (c : Cause) (info : Word64) : (s.recordFault c info).encd = s.encd := rfl
@[simp] theorem State.recordFault_decm (c : Cause) (info : Word64) : (s.recordFault c info).decm = s.decm := rfl
@[simp] theorem State.recordFault_decd (c : Cause) (info : Word64) : (s.recordFault c info).decd = s.decd := rfl
@[simp] theorem State.recordFault_rbuf (c : Cause) (info : Word64) : (s.recordFault c info).rbuf = s.rbuf := rfl
@[simp] theorem State.recordFault_rcnt (c : Cause) (info : Word64) : (s.recordFault c info).rcnt = s.rcnt := rfl
@[simp] theorem State.recordFault_wacc (c : Cause) (info : Word64) : (s.recordFault c info).wacc = s.wacc := rfl
@[simp] theorem State.recordFault_wfill (c : Cause) (info : Word64) : (s.recordFault c info).wfill = s.wfill := rfl
@[simp] theorem State.recordFault_cur (c : Cause) (info : Word64) : (s.recordFault c info).cur = s.cur := rfl
@[simp] theorem State.recordFault_walk (c : Cause) (info : Word64) : (s.recordFault c info).walk = s.walk := rfl
@[simp] theorem State.recordFault_fcode (c : Cause) (info : Word64) : (s.recordFault c info).fcode = c.code := rfl
@[simp] theorem State.recordFault_finfo (c : Cause) (info : Word64) : (s.recordFault c info).finfo = info := rfl
@[simp] theorem State.recordFault_pc (c : Cause) (info : Word64) : (s.recordFault c info).pc = s.pc := rfl
@[simp] theorem State.recordFault_prog (c : Cause) (info : Word64) : (s.recordFault c info).prog = s.prog := rfl
@[simp] theorem State.recordFault_ibs (c : Cause) (info : Word64) : (s.recordFault c info).ibs = s.ibs := rfl
@[simp] theorem State.recordFault_pbs (c : Cause) (info : Word64) : (s.recordFault c info).pbs = s.pbs := rfl
@[simp] theorem State.recordFault_obs (c : Cause) (info : Word64) : (s.recordFault c info).obs = s.obs := rfl
@[simp] theorem State.recordFault_dbs (c : Cause) (info : Word64) : (s.recordFault c info).dbs = s.dbs := rfl
@[simp] theorem State.recordFault_rsp (c : Cause) (info : Word64) : (s.recordFault c info).rsp = s.rsp := rfl
@[simp] theorem State.recordFault_draws (c : Cause) (info : Word64) : (s.recordFault c info).draws = s.draws := rfl

/-! ### `pushObs` -/

@[simp] theorem State.pushObs_nc (v : Byte) : (s.pushObs v).nc = s.nc := rfl
@[simp] theorem State.pushObs_node (v : Byte) : (s.pushObs v).node = s.node := rfl
@[simp] theorem State.pushObs_lleaf (v : Byte) : (s.pushObs v).lleaf = s.lleaf := rfl
@[simp] theorem State.pushObs_rleaf (v : Byte) : (s.pushObs v).rleaf = s.rleaf := rfl
@[simp] theorem State.pushObs_ctLen (v : Byte) : (s.pushObs v).ctLen = s.ctLen := rfl
@[simp] theorem State.pushObs_ctBits (v : Byte) : (s.pushObs v).ctBits = s.ctBits := rfl
@[simp] theorem State.pushObs_encn (v : Byte) : (s.pushObs v).encn = s.encn := rfl
@[simp] theorem State.pushObs_encd (v : Byte) : (s.pushObs v).encd = s.encd := rfl
@[simp] theorem State.pushObs_decm (v : Byte) : (s.pushObs v).decm = s.decm := rfl
@[simp] theorem State.pushObs_decd (v : Byte) : (s.pushObs v).decd = s.decd := rfl
@[simp] theorem State.pushObs_rbuf (v : Byte) : (s.pushObs v).rbuf = s.rbuf := rfl
@[simp] theorem State.pushObs_rcnt (v : Byte) : (s.pushObs v).rcnt = s.rcnt := rfl
@[simp] theorem State.pushObs_wacc (v : Byte) : (s.pushObs v).wacc = s.wacc := rfl
@[simp] theorem State.pushObs_wfill (v : Byte) : (s.pushObs v).wfill = s.wfill := rfl
@[simp] theorem State.pushObs_cur (v : Byte) : (s.pushObs v).cur = s.cur := rfl
@[simp] theorem State.pushObs_walk (v : Byte) : (s.pushObs v).walk = s.walk := rfl
@[simp] theorem State.pushObs_fcode (v : Byte) : (s.pushObs v).fcode = s.fcode := rfl
@[simp] theorem State.pushObs_finfo (v : Byte) : (s.pushObs v).finfo = s.finfo := rfl
@[simp] theorem State.pushObs_pc (v : Byte) : (s.pushObs v).pc = s.pc := rfl
@[simp] theorem State.pushObs_prog (v : Byte) : (s.pushObs v).prog = s.prog := rfl
@[simp] theorem State.pushObs_ibs (v : Byte) : (s.pushObs v).ibs = s.ibs := rfl
@[simp] theorem State.pushObs_pbs (v : Byte) : (s.pushObs v).pbs = s.pbs := rfl
@[simp] theorem State.pushObs_obs (v : Byte) : (s.pushObs v).obs = s.obs ++ [v] := rfl
@[simp] theorem State.pushObs_dbs (v : Byte) : (s.pushObs v).dbs = s.dbs := rfl
@[simp] theorem State.pushObs_rsp (v : Byte) : (s.pushObs v).rsp = s.rsp := rfl
@[simp] theorem State.pushObs_draws (v : Byte) : (s.pushObs v).draws = s.draws := rfl

/-! ### `pushDbs` -/

@[simp] theorem State.pushDbs_nc (v : Byte) : (s.pushDbs v).nc = s.nc := rfl
@[simp] theorem State.pushDbs_node (v : Byte) : (s.pushDbs v).node = s.node := rfl
@[simp] theorem State.pushDbs_lleaf (v : Byte) : (s.pushDbs v).lleaf = s.lleaf := rfl
@[simp] theorem State.pushDbs_rleaf (v : Byte) : (s.pushDbs v).rleaf = s.rleaf := rfl
@[simp] theorem State.pushDbs_ctLen (v : Byte) : (s.pushDbs v).ctLen = s.ctLen := rfl
@[simp] theorem State.pushDbs_ctBits (v : Byte) : (s.pushDbs v).ctBits = s.ctBits := rfl
@[simp] theorem State.pushDbs_encn (v : Byte) : (s.pushDbs v).encn = s.encn := rfl
@[simp] theorem State.pushDbs_encd (v : Byte) : (s.pushDbs v).encd = s.encd := rfl
@[simp] theorem State.pushDbs_decm (v : Byte) : (s.pushDbs v).decm = s.decm := rfl
@[simp] theorem State.pushDbs_decd (v : Byte) : (s.pushDbs v).decd = s.decd := rfl
@[simp] theorem State.pushDbs_rbuf (v : Byte) : (s.pushDbs v).rbuf = s.rbuf := rfl
@[simp] theorem State.pushDbs_rcnt (v : Byte) : (s.pushDbs v).rcnt = s.rcnt := rfl
@[simp] theorem State.pushDbs_wacc (v : Byte) : (s.pushDbs v).wacc = s.wacc := rfl
@[simp] theorem State.pushDbs_wfill (v : Byte) : (s.pushDbs v).wfill = s.wfill := rfl
@[simp] theorem State.pushDbs_cur (v : Byte) : (s.pushDbs v).cur = s.cur := rfl
@[simp] theorem State.pushDbs_walk (v : Byte) : (s.pushDbs v).walk = s.walk := rfl
@[simp] theorem State.pushDbs_fcode (v : Byte) : (s.pushDbs v).fcode = s.fcode := rfl
@[simp] theorem State.pushDbs_finfo (v : Byte) : (s.pushDbs v).finfo = s.finfo := rfl
@[simp] theorem State.pushDbs_pc (v : Byte) : (s.pushDbs v).pc = s.pc := rfl
@[simp] theorem State.pushDbs_prog (v : Byte) : (s.pushDbs v).prog = s.prog := rfl
@[simp] theorem State.pushDbs_ibs (v : Byte) : (s.pushDbs v).ibs = s.ibs := rfl
@[simp] theorem State.pushDbs_pbs (v : Byte) : (s.pushDbs v).pbs = s.pbs := rfl
@[simp] theorem State.pushDbs_obs (v : Byte) : (s.pushDbs v).obs = s.obs := rfl
@[simp] theorem State.pushDbs_dbs (v : Byte) : (s.pushDbs v).dbs = s.dbs ++ [v] := rfl
@[simp] theorem State.pushDbs_rsp (v : Byte) : (s.pushDbs v).rsp = s.rsp := rfl
@[simp] theorem State.pushDbs_draws (v : Byte) : (s.pushDbs v).draws = s.draws := rfl

/-! ### `pushRsp` -/

@[simp] theorem State.pushRsp_nc (v : Word64) : (s.pushRsp v).nc = s.nc := rfl
@[simp] theorem State.pushRsp_node (v : Word64) : (s.pushRsp v).node = s.node := rfl
@[simp] theorem State.pushRsp_lleaf (v : Word64) : (s.pushRsp v).lleaf = s.lleaf := rfl
@[simp] theorem State.pushRsp_rleaf (v : Word64) : (s.pushRsp v).rleaf = s.rleaf := rfl
@[simp] theorem State.pushRsp_ctLen (v : Word64) : (s.pushRsp v).ctLen = s.ctLen := rfl
@[simp] theorem State.pushRsp_ctBits (v : Word64) : (s.pushRsp v).ctBits = s.ctBits := rfl
@[simp] theorem State.pushRsp_encn (v : Word64) : (s.pushRsp v).encn = s.encn := rfl
@[simp] theorem State.pushRsp_encd (v : Word64) : (s.pushRsp v).encd = s.encd := rfl
@[simp] theorem State.pushRsp_decm (v : Word64) : (s.pushRsp v).decm = s.decm := rfl
@[simp] theorem State.pushRsp_decd (v : Word64) : (s.pushRsp v).decd = s.decd := rfl
@[simp] theorem State.pushRsp_rbuf (v : Word64) : (s.pushRsp v).rbuf = s.rbuf := rfl
@[simp] theorem State.pushRsp_rcnt (v : Word64) : (s.pushRsp v).rcnt = s.rcnt := rfl
@[simp] theorem State.pushRsp_wacc (v : Word64) : (s.pushRsp v).wacc = s.wacc := rfl
@[simp] theorem State.pushRsp_wfill (v : Word64) : (s.pushRsp v).wfill = s.wfill := rfl
@[simp] theorem State.pushRsp_cur (v : Word64) : (s.pushRsp v).cur = s.cur := rfl
@[simp] theorem State.pushRsp_walk (v : Word64) : (s.pushRsp v).walk = s.walk := rfl
@[simp] theorem State.pushRsp_fcode (v : Word64) : (s.pushRsp v).fcode = s.fcode := rfl
@[simp] theorem State.pushRsp_finfo (v : Word64) : (s.pushRsp v).finfo = s.finfo := rfl
@[simp] theorem State.pushRsp_pc (v : Word64) : (s.pushRsp v).pc = s.pc := rfl
@[simp] theorem State.pushRsp_prog (v : Word64) : (s.pushRsp v).prog = s.prog := rfl
@[simp] theorem State.pushRsp_ibs (v : Word64) : (s.pushRsp v).ibs = s.ibs := rfl
@[simp] theorem State.pushRsp_pbs (v : Word64) : (s.pushRsp v).pbs = s.pbs := rfl
@[simp] theorem State.pushRsp_obs (v : Word64) : (s.pushRsp v).obs = s.obs := rfl
@[simp] theorem State.pushRsp_dbs (v : Word64) : (s.pushRsp v).dbs = s.dbs := rfl
@[simp] theorem State.pushRsp_rsp (v : Word64) : (s.pushRsp v).rsp = s.rsp ++ [v] := rfl
@[simp] theorem State.pushRsp_draws (v : Word64) : (s.pushRsp v).draws = s.draws := rfl

/-! ### `clearCodes` -/

@[simp] theorem State.clearCodes_nc : (s.clearCodes).nc = s.nc := rfl
@[simp] theorem State.clearCodes_node : (s.clearCodes).node = s.node := rfl
@[simp] theorem State.clearCodes_lleaf : (s.clearCodes).lleaf = s.lleaf := rfl
@[simp] theorem State.clearCodes_rleaf : (s.clearCodes).rleaf = s.rleaf := rfl
@[simp] theorem State.clearCodes_ctLen : (s.clearCodes).ctLen = Vector.replicate 256 0 := rfl
@[simp] theorem State.clearCodes_ctBits : (s.clearCodes).ctBits = s.ctBits := rfl
@[simp] theorem State.clearCodes_encn : (s.clearCodes).encn = s.encn := rfl
@[simp] theorem State.clearCodes_encd : (s.clearCodes).encd = s.encd := rfl
@[simp] theorem State.clearCodes_decm : (s.clearCodes).decm = s.decm := rfl
@[simp] theorem State.clearCodes_decd : (s.clearCodes).decd = s.decd := rfl
@[simp] theorem State.clearCodes_rbuf : (s.clearCodes).rbuf = s.rbuf := rfl
@[simp] theorem State.clearCodes_rcnt : (s.clearCodes).rcnt = s.rcnt := rfl
@[simp] theorem State.clearCodes_wacc : (s.clearCodes).wacc = s.wacc := rfl
@[simp] theorem State.clearCodes_wfill : (s.clearCodes).wfill = s.wfill := rfl
@[simp] theorem State.clearCodes_cur : (s.clearCodes).cur = s.cur := rfl
@[simp] theorem State.clearCodes_walk : (s.clearCodes).walk = s.walk := rfl
@[simp] theorem State.clearCodes_fcode : (s.clearCodes).fcode = s.fcode := rfl
@[simp] theorem State.clearCodes_finfo : (s.clearCodes).finfo = s.finfo := rfl
@[simp] theorem State.clearCodes_pc : (s.clearCodes).pc = s.pc := rfl
@[simp] theorem State.clearCodes_prog : (s.clearCodes).prog = s.prog := rfl
@[simp] theorem State.clearCodes_ibs : (s.clearCodes).ibs = s.ibs := rfl
@[simp] theorem State.clearCodes_pbs : (s.clearCodes).pbs = s.pbs := rfl
@[simp] theorem State.clearCodes_obs : (s.clearCodes).obs = s.obs := rfl
@[simp] theorem State.clearCodes_dbs : (s.clearCodes).dbs = s.dbs := rfl
@[simp] theorem State.clearCodes_rsp : (s.clearCodes).rsp = s.rsp := rfl
@[simp] theorem State.clearCodes_draws : (s.clearCodes).draws = s.draws := rfl

/-! ### `storeNode` -/

@[simp] theorem State.storeNode_nc (l r : Byte) (ll rl : Bool) : (s.storeNode l r ll rl).nc = s.nc + 1 := rfl
@[simp] theorem State.storeNode_node (l r : Byte) (ll rl : Bool) : (s.storeNode l r ll rl).node = s.node.set s.nc.toNat ⟨l, r⟩ s.nc.isLt := rfl
@[simp] theorem State.storeNode_lleaf (l r : Byte) (ll rl : Bool) : (s.storeNode l r ll rl).lleaf = s.lleaf.set s.nc.toNat ll s.nc.isLt := rfl
@[simp] theorem State.storeNode_rleaf (l r : Byte) (ll rl : Bool) : (s.storeNode l r ll rl).rleaf = s.rleaf.set s.nc.toNat rl s.nc.isLt := rfl
@[simp] theorem State.storeNode_ctLen (l r : Byte) (ll rl : Bool) : (s.storeNode l r ll rl).ctLen = s.ctLen := rfl
@[simp] theorem State.storeNode_ctBits (l r : Byte) (ll rl : Bool) : (s.storeNode l r ll rl).ctBits = s.ctBits := rfl
@[simp] theorem State.storeNode_encn (l r : Byte) (ll rl : Bool) : (s.storeNode l r ll rl).encn = s.encn := rfl
@[simp] theorem State.storeNode_encd (l r : Byte) (ll rl : Bool) : (s.storeNode l r ll rl).encd = s.encd := rfl
@[simp] theorem State.storeNode_decm (l r : Byte) (ll rl : Bool) : (s.storeNode l r ll rl).decm = s.decm := rfl
@[simp] theorem State.storeNode_decd (l r : Byte) (ll rl : Bool) : (s.storeNode l r ll rl).decd = s.decd := rfl
@[simp] theorem State.storeNode_rbuf (l r : Byte) (ll rl : Bool) : (s.storeNode l r ll rl).rbuf = s.rbuf := rfl
@[simp] theorem State.storeNode_rcnt (l r : Byte) (ll rl : Bool) : (s.storeNode l r ll rl).rcnt = s.rcnt := rfl
@[simp] theorem State.storeNode_wacc (l r : Byte) (ll rl : Bool) : (s.storeNode l r ll rl).wacc = s.wacc := rfl
@[simp] theorem State.storeNode_wfill (l r : Byte) (ll rl : Bool) : (s.storeNode l r ll rl).wfill = s.wfill := rfl
@[simp] theorem State.storeNode_cur (l r : Byte) (ll rl : Bool) : (s.storeNode l r ll rl).cur = s.cur := rfl
@[simp] theorem State.storeNode_walk (l r : Byte) (ll rl : Bool) : (s.storeNode l r ll rl).walk = s.walk := rfl
@[simp] theorem State.storeNode_fcode (l r : Byte) (ll rl : Bool) : (s.storeNode l r ll rl).fcode = s.fcode := rfl
@[simp] theorem State.storeNode_finfo (l r : Byte) (ll rl : Bool) : (s.storeNode l r ll rl).finfo = s.finfo := rfl
@[simp] theorem State.storeNode_pc (l r : Byte) (ll rl : Bool) : (s.storeNode l r ll rl).pc = s.pc := rfl
@[simp] theorem State.storeNode_prog (l r : Byte) (ll rl : Bool) : (s.storeNode l r ll rl).prog = s.prog := rfl
@[simp] theorem State.storeNode_ibs (l r : Byte) (ll rl : Bool) : (s.storeNode l r ll rl).ibs = s.ibs := rfl
@[simp] theorem State.storeNode_pbs (l r : Byte) (ll rl : Bool) : (s.storeNode l r ll rl).pbs = s.pbs := rfl
@[simp] theorem State.storeNode_obs (l r : Byte) (ll rl : Bool) : (s.storeNode l r ll rl).obs = s.obs := rfl
@[simp] theorem State.storeNode_dbs (l r : Byte) (ll rl : Bool) : (s.storeNode l r ll rl).dbs = s.dbs := rfl
@[simp] theorem State.storeNode_rsp (l r : Byte) (ll rl : Bool) : (s.storeNode l r ll rl).rsp = s.rsp := rfl
@[simp] theorem State.storeNode_draws (l r : Byte) (ll rl : Bool) : (s.storeNode l r ll rl).draws = s.draws := rfl

/-! ### `storeCode` -/

@[simp] theorem State.storeCode_nc (v len : Byte) (bits : CodeBits) : (s.storeCode v len bits).nc = s.nc := rfl
@[simp] theorem State.storeCode_node (v len : Byte) (bits : CodeBits) : (s.storeCode v len bits).node = s.node := rfl
@[simp] theorem State.storeCode_lleaf (v len : Byte) (bits : CodeBits) : (s.storeCode v len bits).lleaf = s.lleaf := rfl
@[simp] theorem State.storeCode_rleaf (v len : Byte) (bits : CodeBits) : (s.storeCode v len bits).rleaf = s.rleaf := rfl
@[simp] theorem State.storeCode_ctLen (v len : Byte) (bits : CodeBits) : (s.storeCode v len bits).ctLen = s.ctLen.set v.toNat len v.isLt := rfl
@[simp] theorem State.storeCode_ctBits (v len : Byte) (bits : CodeBits) : (s.storeCode v len bits).ctBits = s.ctBits.set v.toNat bits v.isLt := rfl
@[simp] theorem State.storeCode_encn (v len : Byte) (bits : CodeBits) : (s.storeCode v len bits).encn = s.encn := rfl
@[simp] theorem State.storeCode_encd (v len : Byte) (bits : CodeBits) : (s.storeCode v len bits).encd = s.encd := rfl
@[simp] theorem State.storeCode_decm (v len : Byte) (bits : CodeBits) : (s.storeCode v len bits).decm = s.decm := rfl
@[simp] theorem State.storeCode_decd (v len : Byte) (bits : CodeBits) : (s.storeCode v len bits).decd = s.decd := rfl
@[simp] theorem State.storeCode_rbuf (v len : Byte) (bits : CodeBits) : (s.storeCode v len bits).rbuf = s.rbuf := rfl
@[simp] theorem State.storeCode_rcnt (v len : Byte) (bits : CodeBits) : (s.storeCode v len bits).rcnt = s.rcnt := rfl
@[simp] theorem State.storeCode_wacc (v len : Byte) (bits : CodeBits) : (s.storeCode v len bits).wacc = s.wacc := rfl
@[simp] theorem State.storeCode_wfill (v len : Byte) (bits : CodeBits) : (s.storeCode v len bits).wfill = s.wfill := rfl
@[simp] theorem State.storeCode_cur (v len : Byte) (bits : CodeBits) : (s.storeCode v len bits).cur = s.cur := rfl
@[simp] theorem State.storeCode_walk (v len : Byte) (bits : CodeBits) : (s.storeCode v len bits).walk = s.walk := rfl
@[simp] theorem State.storeCode_fcode (v len : Byte) (bits : CodeBits) : (s.storeCode v len bits).fcode = s.fcode := rfl
@[simp] theorem State.storeCode_finfo (v len : Byte) (bits : CodeBits) : (s.storeCode v len bits).finfo = s.finfo := rfl
@[simp] theorem State.storeCode_pc (v len : Byte) (bits : CodeBits) : (s.storeCode v len bits).pc = s.pc := rfl
@[simp] theorem State.storeCode_prog (v len : Byte) (bits : CodeBits) : (s.storeCode v len bits).prog = s.prog := rfl
@[simp] theorem State.storeCode_ibs (v len : Byte) (bits : CodeBits) : (s.storeCode v len bits).ibs = s.ibs := rfl
@[simp] theorem State.storeCode_pbs (v len : Byte) (bits : CodeBits) : (s.storeCode v len bits).pbs = s.pbs := rfl
@[simp] theorem State.storeCode_obs (v len : Byte) (bits : CodeBits) : (s.storeCode v len bits).obs = s.obs := rfl
@[simp] theorem State.storeCode_dbs (v len : Byte) (bits : CodeBits) : (s.storeCode v len bits).dbs = s.dbs := rfl
@[simp] theorem State.storeCode_rsp (v len : Byte) (bits : CodeBits) : (s.storeCode v len bits).rsp = s.rsp := rfl
@[simp] theorem State.storeCode_draws (v len : Byte) (bits : CodeBits) : (s.storeCode v len bits).draws = s.draws := rfl

/-! ### `toReset` -/

@[simp] theorem State.toReset_nc : (s.toReset).nc = 0 := rfl
@[simp] theorem State.toReset_node : (s.toReset).node = s.node := rfl
@[simp] theorem State.toReset_lleaf : (s.toReset).lleaf = s.lleaf := rfl
@[simp] theorem State.toReset_rleaf : (s.toReset).rleaf = s.rleaf := rfl
@[simp] theorem State.toReset_ctLen : (s.toReset).ctLen = Vector.replicate 256 0 := rfl
@[simp] theorem State.toReset_ctBits : (s.toReset).ctBits = s.ctBits := rfl
@[simp] theorem State.toReset_encn : (s.toReset).encn = 0 := rfl
@[simp] theorem State.toReset_encd : (s.toReset).encd = 0 := rfl
@[simp] theorem State.toReset_decm : (s.toReset).decm = 0 := rfl
@[simp] theorem State.toReset_decd : (s.toReset).decd = 0 := rfl
@[simp] theorem State.toReset_rbuf : (s.toReset).rbuf = 0 := rfl
@[simp] theorem State.toReset_rcnt : (s.toReset).rcnt = 0 := rfl
@[simp] theorem State.toReset_wacc : (s.toReset).wacc = s.wacc := rfl
@[simp] theorem State.toReset_wfill : (s.toReset).wfill = 0 := rfl
@[simp] theorem State.toReset_cur : (s.toReset).cur = 0 := rfl
@[simp] theorem State.toReset_walk : (s.toReset).walk = false := rfl
@[simp] theorem State.toReset_fcode : (s.toReset).fcode = 0 := rfl
@[simp] theorem State.toReset_finfo : (s.toReset).finfo = 0 := rfl
@[simp] theorem State.toReset_pc : (s.toReset).pc = s.pc := rfl
@[simp] theorem State.toReset_prog : (s.toReset).prog = s.prog := rfl
@[simp] theorem State.toReset_ibs : (s.toReset).ibs = s.ibs := rfl
@[simp] theorem State.toReset_pbs : (s.toReset).pbs = s.pbs := rfl
@[simp] theorem State.toReset_obs : (s.toReset).obs = s.obs := rfl
@[simp] theorem State.toReset_dbs : (s.toReset).dbs = s.dbs := rfl
@[simp] theorem State.toReset_rsp : (s.toReset).rsp = s.rsp := rfl
@[simp] theorem State.toReset_draws : (s.toReset).draws = s.draws := rfl

end Sys2Proof.Machine
end

