-- ==== Sys2Proof/Laws/Operands.lean ====
section
/-! SUPPORT. What the operand forms compute: single bits, joined bytes, halves of counts, table entries, codes. -/

namespace Sys2Proof.Machine

/-- `v[k] <- b` writes bit `k` and leaves the others. -/
theorem getLsbD_setBit {w : Nat} (v : BitVec w) (k : Nat) (b : Bool) (hk : k < w) (j : Nat) :
    (setBit v k b).getLsbD j = if j = k then b else v.getLsbD j := by
  have one : (1#w <<< k).getLsbD j = decide (j = k) := by
    simp only [BitVec.getLsbD_shiftLeft, BitVec.getLsbD_one]
    by_cases h : j = k
    · subst h; simp [hk]; omega
    · simp only [h, decide_false]; by_cases h2 : j < k
      · simp [h2]
      · simp [show j - k ≠ 0 by omega]
  by_cases hj : j < w
  · cases b <;> simp only [setBit, Bool.false_eq_true, ↓reduceIte, BitVec.getLsbD_and, BitVec.getLsbD_or, BitVec.getLsbD_not, one,
      hj] <;> by_cases h : j = k <;> simp [h]
  · rw [if_neg (by omega), BitVec.getLsbD_of_ge _ _ (by omega), BitVec.getLsbD_of_ge _ _ (by omega)]

/-- A joined byte has its low `n` bits from one byte and the others from the other. -/
theorem getLsbD_joinAt (n : Nat) (hi lo : Byte) (k : Nat) (hn : n ≤ 8) :
    (joinAt n hi lo).getLsbD k = if k < n then lo.getLsbD k else hi.getLsbD k := by
  by_cases hk : k < 8
  · simp only [joinAt, BitVec.getLsbD_or, BitVec.getLsbD_and, BitVec.getLsbD_not, BitVec.getLsbD_ofNat,
      Nat.testBit_two_pow_sub_one, hk, decide_true, Bool.true_and]
    by_cases h : k < n <;> simp [h]
  · rw [if_neg (by omega), BitVec.getLsbD_of_ge _ _ (by omega), BitVec.getLsbD_of_ge _ _ (by omega)]

@[simp] theorem setLowHalf_low (v : Word64) (imm : Arg) : (setLowHalf v imm).extractLsb' 0 32 = imm := by
  simp only [setLowHalf]
  rw [BitVec.extractLsb'_append_eq_of_add_le (by omega)]
  simp

@[simp] theorem setLowHalf_high (v : Word64) (imm : Arg) :
    (setLowHalf v imm).extractLsb' 32 32 = v.extractLsb' 32 32 := by
  simp only [setLowHalf]
  rw [BitVec.extractLsb'_append_eq_of_le (by omega)]
  simp

@[simp] theorem setHighHalf_high (v : Word64) (imm : Arg) : (setHighHalf v imm).extractLsb' 32 32 = imm := by
  simp only [setHighHalf]
  rw [BitVec.extractLsb'_append_eq_of_le (by omega)]
  simp

@[simp] theorem setHighHalf_low (v : Word64) (imm : Arg) :
    (setHighHalf v imm).extractLsb' 0 32 = v.extractLsb' 0 32 := by
  simp only [setHighHalf]
  rw [BitVec.extractLsb'_append_eq_of_add_le (by omega)]
  simp

/-- A count is its two halves. -/
theorem Word64.ext_halves {u v : Word64} (hl : u.extractLsb' 0 32 = v.extractLsb' 0 32)
    (hh : u.extractLsb' 32 32 = v.extractLsb' 32 32) : u = v := by
  ext k hk
  by_cases h : k < 32
  · have := congrArg (·.getLsbD k) hl
    simpa [h, BitVec.getLsbD_eq_getElem hk] using this
  · have := congrArg (·.getLsbD (k - 32)) hh
    simpa [show k - 32 < 32 by omega, show 32 + (k - 32) = k by omega, BitVec.getLsbD_eq_getElem hk] using this

/-- A number names a register exactly when it is at most 0x09 (R93). -/
theorem csrOfNumber_eq_none_iff (n : Byte) : csrOfNumber n = none ↔ 0x09 < n := by
  have : ∀ m : Byte, csrOfNumber m = none ↔ 0x09 < m := by decide
  exact this n

variable (s : State) (i j v u len l r : Byte) (ll rl : Bool) (bits : CodeBits)

/-- The node stored is read back at its index, and every other entry is as before. -/
theorem State.nodeAt_storeNode : (s.storeNode l r ll rl).nodeAt i = if s.nc = i then ⟨l, r⟩ else s.nodeAt i := by
  simp [State.nodeAt, Vector.getElem_set, BitVec.toNat_inj]

theorem State.lleafAt_storeNode : (s.storeNode l r ll rl).lleafAt i = if s.nc = i then ll else s.lleafAt i := by
  simp [State.lleafAt, Vector.getElem_set, BitVec.toNat_inj]

theorem State.rleafAt_storeNode : (s.storeNode l r ll rl).rleafAt i = if s.nc = i then rl else s.rleafAt i := by
  simp [State.rleafAt, Vector.getElem_set, BitVec.toNat_inj]

/-- Clearing the codes leaves no byte value with a code. -/
@[simp] theorem State.codeLen_clearCodes : s.clearCodes.codeLen v = 0 := by simp [State.codeLen]

/-- The code stored is read back at its byte value, and every other entry is as before. -/
theorem State.codeLen_storeCode : (s.storeCode v len bits).codeLen u = if v = u then len else s.codeLen u := by
  simp [State.codeLen, Vector.getElem_set, BitVec.toNat_inj]

theorem State.codeBits_storeCode : (s.storeCode v len bits).codeBits u = if v = u then bits else s.codeBits u := by
  simp [State.codeBits, Vector.getElem_set, BitVec.toNat_inj]

/-- A code has as many bits as its `LEN` says. -/
@[simp] theorem State.length_code : (s.code v).length = (s.codeLen v).toNat := by simp [State.code]

/-- A byte value has no code exactly when its code is empty (R25). -/
theorem State.code_eq_nil_iff : s.code v = [] ↔ s.codeLen v = 0 := by
  rw [← List.length_eq_zero_iff, State.length_code]
  exact ⟨fun h => BitVec.eq_of_toNat_eq h, fun h => by simp [h]⟩

/-- The accessors of the tree read the tree only. -/
theorem State.child_congr {s t : State} (hn : s.node = t.node) (hl : s.lleaf = t.lleaf) (hr : s.rleaf = t.rleaf) (i : Byte)
    (b : Bool) : s.child i b = t.child i b ∧ s.childIsLeaf i b = t.childIsLeaf i b := by
  simp [State.child, State.childIsLeaf, State.nodeAt, State.lleafAt, State.rleafAt, hn, hl, hr]

end Sys2Proof.Machine
end

