-- ==== Sys2Proof/Laws/Ops.lean ====
section
/-! SUPPORT. What the shared operations can do: the execution frame, the guards, popping a stream, raising a fault. -/

namespace Sys2Proof.Machine

@[simp] theorem State.halted_iff (s : State) : s.halted = true ↔ s.fcode ≠ 0 := by simp [State.halted]

/-- A halted block discards a command (R210). -/
theorem command_halted {s : State} (h : s.fcode ≠ 0) (body : State → Flow) : command body s = .next s.passed := by
  simp [command, (State.halted_iff s).mpr h, State.passed, State.advance]

/-- A running block runs the pseudocode and advances (R206). -/
theorem command_running {s : State} (h : s.fcode = 0) (body : State → Flow) :
    command body s = .next (body s).state.advance := by
  simp [command, State.halted, h]

/-- The two things a command can do: pass unchanged while halted, or end its pseudocode and advance. -/
theorem command_cases {s t : State} {body : State → Flow} (h : command body s = .next t) :
    (s.fcode ≠ 0 ∧ t = s.passed) ∨ (s.fcode = 0 ∧ t = (body s).state.advance) := by
  by_cases hf : s.fcode = 0
  · rw [command_running hf] at h; cases h; exact .inr ⟨hf, rfl⟩
  · rw [command_halted hf] at h; cases h; exact .inl ⟨hf, rfl⟩

/-- A command always answers a next state. -/
theorem command_next (body : State → Flow) (s : State) : ∃ t, command body s = .next t := by
  by_cases hf : s.fcode = 0
  · exact ⟨_, command_running hf body⟩
  · exact ⟨_, command_halted hf body⟩

@[simp] theorem raise_state (c : Cause) (info : Word64) (s : State) : (raise c info s).state = s.recordFault c info := rfl

@[simp] theorem raiseWord_state (c : Cause) (i : Instr) (s : State) :
    (raiseWord c i s).state = s.recordFault c ((encode i).zeroExtend 64) := rfl

@[simp] theorem done_state (s : State) : (Flow.done s).state = s := rfl

@[simp] theorem raised_state (s : State) : (Flow.raised s).state = s := rfl

/-- No cause has code 0, and none is above 9 (R208). -/
theorem Cause.code_range (c : Cause) : c.code ≠ 0 ∧ c.code ≤ 9 := by cases c <;> decide

/-- The state a raise leaves, after the frame. -/
theorem recordFault_advance (s : State) (c : Cause) (info : Word64) :
    (s.recordFault c info).advance = s.faulted c.code info := rfl

@[simp] theorem advance_eq_passed (s : State) : s.advance = s.passed := rfl

/-- A pop answers the first byte and the rest of the stream, or nothing when the stream is at its end (R63). -/
theorem State.popIbs_eq (s : State) :
    s.popIbs = none ∧ s.ibs = [] ∨ ∃ v rest, s.ibs = v :: rest ∧ s.popIbs = some (v, { s with ibs := rest }) := by
  unfold State.popIbs
  split
  · exact .inl ⟨rfl, ‹_›⟩
  · exact .inr ⟨_, _, ‹_›, rfl⟩

@[simp] theorem State.encStarted_iff (s : State) : s.encStarted = true ↔ s.encd ≠ 0 := by simp [State.encStarted]

@[simp] theorem State.decStarted_iff (s : State) : s.decStarted = true ↔ s.decd ≠ 0 ∨ s.walk = true := by
  simp [State.decStarted]

/-- The three guards of R141: `SEQ` once the engine concerned has started, the pseudocode otherwise. -/
theorem guardTree_eq (i : Instr) (body : State → Flow) (s : State) :
    guardTree i body s = if s.encd ≠ 0 ∨ s.decd ≠ 0 ∨ s.walk = true then raiseWord .seq i s else body s := by
  simp [guardTree]

theorem guardEnc_eq (i : Instr) (body : State → Flow) (s : State) :
    guardEnc i body s = if s.encd ≠ 0 then raiseWord .seq i s else body s := by
  simp [guardEnc]

theorem guardDec_eq (i : Instr) (body : State → Flow) (s : State) :
    guardDec i body s = if s.decd ≠ 0 ∨ s.walk = true then raiseWord .seq i s else body s := by
  simp [guardDec]

end Sys2Proof.Machine
end

