-- ==== Sys2Proof/Laws/CodeTable.lean ====
section
/-! SUPPORT. The code table builder: what storing a code does, `BuildTable` as a fold over the leaf paths of the tree in the order
left before right (42_code_table R161), and the leaf paths themselves (R162). -/

namespace Sys2Proof.Machine

/-- Writing bits from place `k` up (R161). -/
theorem getLsbD_writeBits (p : List Bool) (bits : CodeBits) (k : Nat) (h : k + p.length ≤ 255) (j : Nat) :
    (writeBits bits k p).getLsbD j = if k ≤ j ∧ j < k + p.length then p.getD (j - k) false else bits.getLsbD j := by
  induction p generalizing bits k with
  | nil => simp [writeBits]; omega
  | cons b rest ih =>
    simp only [List.length_cons] at h
    rw [writeBits, ih _ _ (by omega), getLsbD_setBit _ _ _ (by omega)]
    by_cases hj : j = k
    · subst hj; simp
    · by_cases h2 : k + 1 ≤ j ∧ j < k + 1 + rest.length
      · rw [if_pos h2, if_pos (by simp; omega)]
        obtain ⟨m, rfl⟩ : ∃ m, j = k + 1 + m := ⟨j - (k + 1), by omega⟩
        rw [show k + 1 + m - k = m + 1 by omega, show k + 1 + m - (k + 1) = m by omega]
        simp
      · rw [if_neg h2, if_neg hj, if_neg (by simp; omega)]

/-- A stored code is read back, and every other code is as before. -/
theorem State.code_storeCode (s : State) (v u : Byte) (p : List Bool) (h : p.length ≤ 255) :
    (s.storeCode v (BitVec.ofNat 8 p.length) (writeBits (s.codeBits v) 0 p)).code u = if v = u then p else s.code u := by
  unfold State.code
  rw [State.codeLen_storeCode, State.codeBits_storeCode]
  by_cases hv : v = u
  · simp only [if_pos hv]
    apply List.ext_getElem
    · simp; omega
    · intro j h1 h2
      simp only [List.getElem_map, List.getElem_range]
      rw [getLsbD_writeBits _ _ _ (by omega), if_pos (by omega)]
      simp [List.getD_eq_getElem?_getD, List.getElem?_eq_getElem h2]
  · simp only [if_neg hv]

/-- `record` writes nothing but the code table (R161). -/
theorem recordCode_frame (v : Byte) (p : List Bool) (s : State) :
    recordCode v p s = { s with ctLen := (recordCode v p s).ctLen, ctBits := (recordCode v p s).ctBits } := by
  unfold recordCode; split <;> rfl

/-- `record`: the first discovery wins (R161). -/
theorem code_recordCode (v u : Byte) (p : List Bool) (s : State) (h : p.length ≤ 255) :
    (recordCode v p s).code u = if v = u ∧ s.code u = [] then p else s.code u := by
  unfold recordCode
  by_cases h0 : s.codeLen v = 0
  · rw [if_pos h0, State.code_storeCode _ _ _ _ h]
    by_cases hv : v = u
    · subst hv; simp [(s.code_eq_nil_iff v).mpr h0]
    · simp [hv]
  · rw [if_neg h0, if_neg]
    rintro ⟨rfl, hc⟩
    exact h0 ((s.code_eq_nil_iff v).mp hc)

/-- The leaf paths from node `i` with their values, in the order `BuildTable` meets them: left before right, to a depth. -/
def State.leafPaths (s : State) : Nat → Byte → List (List Bool × Byte)
  | 0, _ => []
  | depth + 1, i =>
    let side := fun b =>
      if s.childIsLeaf i b then [([b], s.child i b)]
      else (s.leafPaths depth (s.child i b)).map fun x => (b :: x.1, x.2)
    side false ++ side true

theorem State.leafPaths_congr {s t : State} (hn : s.node = t.node) (hl : s.lleaf = t.lleaf) (hr : s.rleaf = t.rleaf)
    (depth : Nat) (i : Byte) : s.leafPaths depth i = t.leafPaths depth i := by
  induction depth generalizing i with
  | zero => rfl
  | succ d ih => simp only [State.leafPaths, (State.child_congr hn hl hr i _).1, (State.child_congr hn hl hr i _).2, ih]

theorem State.leafFrom_congr {s t : State} (hn : s.node = t.node) (hl : s.lleaf = t.lleaf) (hr : s.rleaf = t.rleaf)
    (p : List Bool) (i : Byte) : s.leafFrom i p = t.leafFrom i p := by
  induction p generalizing i with
  | nil => rfl
  | cons b rest ih => simp only [State.leafFrom, (State.child_congr hn hl hr i _).1, (State.child_congr hn hl hr i _).2, ih]

/-- Record each of a list of paths, with a path in front, in order. -/
def recordAll (path : List Bool) (xs : List (List Bool × Byte)) (s : State) : State :=
  xs.foldl (fun t x => recordCode x.2 (path ++ x.1) t) s

theorem recordAll_append (path : List Bool) (xs ys : List (List Bool × Byte)) (s : State) :
    recordAll path (xs ++ ys) s = recordAll path ys (recordAll path xs s) := by simp [recordAll]

theorem recordAll_map (path : List Bool) (b : Bool) (xs : List (List Bool × Byte)) (s : State) :
    recordAll path (xs.map fun x => (b :: x.1, x.2)) s = recordAll (path ++ [b]) xs s := by
  simp [recordAll, List.foldl_map]

/-- Recording codes writes nothing but the code table. -/
theorem recordAll_frame (path : List Bool) (xs : List (List Bool × Byte)) (s : State) :
    recordAll path xs s = { s with ctLen := (recordAll path xs s).ctLen, ctBits := (recordAll path xs s).ctBits } := by
  induction xs generalizing s with
  | nil => rfl
  | cons x rest ih =>
    change recordAll path rest (recordCode x.2 (path ++ x.1) s) = _
    refine (ih _).trans ?_
    change _ = { s with ctLen := (recordAll path rest (recordCode x.2 (path ++ x.1) s)).ctLen,
                        ctBits := (recordAll path rest (recordCode x.2 (path ++ x.1) s)).ctBits }
    generalize recordAll path rest (recordCode x.2 (path ++ x.1) s) = z
    rw [recordCode_frame]

/-- A visit records the leaf paths below the node, in order (R161). -/
theorem visitNode_eq (depth : Nat) (i : Byte) (path : List Bool) (s : State) :
    visitNode depth i path s = recordAll path (s.leafPaths depth i) s := by
  induction depth generalizing i path s with
  | zero => rfl
  | succ d ih =>
    have side : ∀ (b : Bool) (t : State), t.node = s.node → t.lleaf = s.lleaf → t.rleaf = s.rleaf →
        visitSide (visitNode d) (t.childIsLeaf i b) (t.child i b) (path ++ [b]) t =
          recordAll path (if s.childIsLeaf i b then [([b], s.child i b)]
            else (s.leafPaths d (s.child i b)).map fun x => (b :: x.1, x.2)) t := by
      intro b t hn hl hr
      rw [(State.child_congr hn hl hr i b).1, (State.child_congr hn hl hr i b).2, visitSide]
      split
      · rfl
      · rw [ih, recordAll_map, State.leafPaths_congr hn hl hr]
    simp only [State.leafPaths, recordAll_append]
    have h0 := side false s rfl rfl rfl
    rw [← h0]
    generalize hz : visitSide (visitNode d) (s.childIsLeaf i false) (s.child i false) (path ++ [false]) s = z at h0
    have hf := h0.trans (recordAll_frame _ _ s)
    have h1 := side true z (by rw [hf]) (by rw [hf]) (by rw [hf])
    rw [← h1, ← hz]
    rfl

/-- `BuildTable` records the leaf paths of the tree, in order, from an empty table (R161). -/
theorem State.buildTable_eq (s : State) :
    s.buildTable = if s.nc = 0 then s.clearCodes else recordAll [] (s.leafPaths s.nc.toNat (s.nc - 1)) s.clearCodes := by
  unfold State.buildTable
  split
  · rfl
  · rw [visitNode_eq, State.leafPaths_congr (s := s.clearCodes) (t := s) rfl rfl rfl]

/-- `BuildTable` writes nothing but the code table (R160). -/
theorem State.buildTable_frame (s : State) :
    s.buildTable = { s with ctLen := s.buildTable.ctLen, ctBits := s.buildTable.ctBits } := by
  rw [State.buildTable_eq]
  split
  · rfl
  · exact recordAll_frame _ _ _

/-- The code a fold of `record` leaves: the code that was there, or the first path recorded for the value. -/
theorem code_recordAll (path : List Bool) (xs : List (List Bool × Byte)) (s : State) (v : Byte)
    (h : ∀ x ∈ xs, (path ++ x.1).length ≤ 255 ∧ x.1 ≠ []) :
    (recordAll path xs s).code v =
      if s.code v ≠ [] then s.code v else
        match xs.find? (fun x => x.2 == v) with
        | none => []
        | some x => path ++ x.1 := by
  induction xs generalizing s with
  | nil => simp [recordAll]
  | cons x rest ih =>
    have hx := h x (by simp)
    change (recordAll path rest (recordCode x.2 (path ++ x.1) s)).code v = _
    rw [ih _ fun y hy => h y (by simp [hy]), code_recordCode _ _ _ _ hx.1]
    by_cases hv : x.2 = v
    · by_cases hc : s.code v = []
      · simp [hv, hc, hx.2]
      · simp [hc]
    · rw [if_neg (show ¬(x.2 = v ∧ s.code v = []) from fun k => hv k.1), List.find?_cons_of_neg (by simpa using hv)]

/-- The leaf paths listed from a loaded node of a well-formed tree are the leaf paths (R161, R162). -/
theorem State.mem_leafPaths {s : State} (hw : s.TreeWF) {depth : Nat} {i : Byte} (hi : i < s.nc) (hd : i.toNat < depth)
    (p : List Bool) (v : Byte) : (p, v) ∈ s.leafPaths depth i ↔ s.leafFrom i p = some v := by
  induction depth generalizing i p with
  | zero => omega
  | succ d ih =>
    have side : ∀ b, (p, v) ∈ (if s.childIsLeaf i b then [([b], s.child i b)]
        else (s.leafPaths d (s.child i b)).map fun x => (b :: x.1, x.2)) ↔ p.head? = some b ∧ s.leafFrom i p = some v := by
      intro b
      cases p with
      | nil => split <;> simp [State.leafFrom]
      | cons c rest =>
        by_cases hb : c = b
        · subst hb
          by_cases hl : s.childIsLeaf i c = true
          · simp only [hl, if_true, State.leafFrom, List.mem_singleton, Prod.mk.injEq, List.cons.injEq, true_and, List.head?_cons]
            by_cases hr : rest = [] <;> simp [hr, eq_comm]
          · have hlt : s.child i c < i := by
              have := hw i hi
              cases c
              · exact this.1 (by simpa [State.childIsLeaf] using hl)
              · exact this.2 (by simpa [State.childIsLeaf] using hl)
            have hlt' : (s.child i c).toNat < i.toNat := hlt
            have := ih (i := s.child i c) (by rw [BitVec.lt_def] at *; omega) (by omega) rest
            simp only [Bool.not_eq_true] at hl
            simp only [hl, Bool.false_eq_true, if_false, State.leafFrom, List.head?_cons, true_and, ← this]
            simp
        · have : ¬ (some c = some b) := by simpa using hb
          split <;> simp [hb, Ne.symm hb]
    simp only [State.leafPaths, List.mem_append, side]
    cases p with
    | nil => simp [State.leafFrom]
    | cons c rest => cases c <;> simp

/-- A leaf path is not empty. -/
theorem State.leafFrom_ne_nil {s : State} {i : Byte} {p : List Bool} {v : Byte} (h : s.leafFrom i p = some v) : p ≠ [] := by
  rintro rfl; simp [State.leafFrom] at h

/-- A leaf path from a loaded node `i` of a well-formed tree has at most `i + 1` bits (R161, R186). -/
theorem State.length_leafFrom {s : State} (hw : s.TreeWF) {i : Byte} (hi : i < s.nc) {p : List Bool} {v : Byte}
    (h : s.leafFrom i p = some v) : p.length ≤ i.toNat + 1 := by
  induction p generalizing i with
  | nil => simp
  | cons b rest ih =>
    simp only [State.leafFrom] at h
    split at h
    · split at h
      · simp [*]
      · simp at h
    · rename_i hl
      have hlt : s.child i b < i := by
        have := hw i hi
        cases b
        · exact this.1 (by simpa [State.childIsLeaf] using hl)
        · exact this.2 (by simpa [State.childIsLeaf] using hl)
      have hlt' : (s.child i b).toNat < i.toNat := hlt
      have := ih (i := s.child i b) (by rw [BitVec.lt_def] at *; omega) h
      simp; omega

/-- No leaf path goes on past a leaf. -/
theorem State.leafFrom_append {s : State} {i : Byte} {p q : List Bool} {v u : Byte} (h : s.leafFrom i p = some v)
    (k : s.leafFrom i (p ++ q) = some u) : q = [] ∧ v = u := by
  induction p generalizing i with
  | nil => simp [State.leafFrom] at h
  | cons b rest ih =>
    simp only [State.leafFrom, List.cons_append] at h k
    split at h
    · rename_i hl
      rw [if_pos hl] at k
      by_cases hr : rest = []
      · subst hr; simp at h k; exact ⟨k.1, h.symm.trans k.2⟩
      · simp [hr] at h
    · rename_i hl
      rw [if_neg hl] at k
      exact ih h k

/-- The leaf paths are listed in lexicographic order. -/
theorem State.sorted_leafPaths (s : State) (depth : Nat) (i : Byte) :
    (s.leafPaths depth i).Pairwise fun x y => x.1 < y.1 := by
  induction depth generalizing i with
  | zero => simp [State.leafPaths]
  | succ d ih =>
    have side : ∀ b, (if s.childIsLeaf i b then [([b], s.child i b)]
        else (s.leafPaths d (s.child i b)).map fun x => (b :: x.1, x.2)).Pairwise fun x y => x.1 < y.1 := by
      intro b
      split
      · simp
      · rw [List.pairwise_map]
        exact (ih _).imp fun h => by simpa [List.cons_lt_cons_iff] using h
    have head : ∀ b, ∀ x ∈ (if s.childIsLeaf i b then [([b], s.child i b)]
        else (s.leafPaths d (s.child i b)).map fun x => (b :: x.1, x.2)), ∃ r, x.1 = b :: r := by
      intro b x hx
      split at hx
      · exact ⟨[], by simp at hx; simp [hx]⟩
      · obtain ⟨y, -, rfl⟩ := List.mem_map.mp hx
        exact ⟨_, rfl⟩
    simp only [State.leafPaths]
    refine List.pairwise_append.mpr ⟨side false, side true, fun x hx y hy => ?_⟩
    obtain ⟨a, ha⟩ := head false x hx
    obtain ⟨b, hb⟩ := head true y hy
    rw [ha, hb, List.cons_lt_cons_iff]
    exact .inl (by decide)

/-- The code `BuildTable` gives a byte value: the first leaf path of that value, or none (R162). -/
theorem State.code_buildTable {s : State} (hw : s.TreeWF) (v : Byte) :
    s.buildTable.code v =
      if s.nc = 0 then [] else
        match (s.leafPaths s.nc.toNat (s.nc - 1)).find? (fun x => x.2 == v) with
        | none => []
        | some x => x.1 := by
  have hc : s.clearCodes.code v = [] := (State.code_eq_nil_iff _ _).mpr (by simp)
  rw [State.buildTable_eq]
  split
  · exact hc
  · rename_i h0
    have hn : (s.nc - 1).toNat = s.nc.toNat - 1 := by
      have : s.nc.toNat ≠ 0 := fun h => h0 (BitVec.eq_of_toNat_eq (by simpa using h))
      rw [BitVec.toNat_sub_of_le (by rw [BitVec.le_def]; simp; omega)]; simp
    have hpos : 0 < s.nc.toNat := Nat.pos_of_ne_zero fun h => h0 (BitVec.eq_of_toNat_eq (by simpa using h))
    have hi : s.nc - 1 < s.nc := by rw [BitVec.lt_def]; omega
    rw [code_recordAll, if_neg (not_not_intro hc)]
    · rfl
    · rintro ⟨p, u⟩ hx
      rw [State.mem_leafPaths hw hi (by omega)] at hx
      have := State.length_leafFrom hw hi hx
      exact ⟨by simp; omega, State.leafFrom_ne_nil hx⟩

/-- The codes `BuildTable` gives depend on the tree only (R162). -/
theorem State.code_buildTable_congr {s t : State} (hw : s.TreeWF) (hc : s.nc = t.nc) (hn : s.node = t.node) (hl : s.lleaf = t.lleaf)
    (hr : s.rleaf = t.rleaf) (v : Byte) : s.buildTable.code v = t.buildTable.code v := by
  have hw' : t.TreeWF := by
    simpa only [State.TreeWF, State.nodeAt, State.lleafAt, State.rleafAt, hc, hn, hl, hr] using hw
  rw [State.code_buildTable hw, State.code_buildTable hw', hc, State.leafPaths_congr hn hl hr]

/-- Building the table twice gives the same codes as once (R160). -/
theorem State.code_buildTable_buildTable {s : State} (hw : s.TreeWF) (v : Byte) :
    s.buildTable.buildTable.code v = s.buildTable.code v := by
  have hf := s.buildTable_frame
  exact (State.code_buildTable_congr hw (by rw [hf]) (by rw [hf]) (by rw [hf]) (by rw [hf]) v).symm

end Sys2Proof.Machine
end

