-- ==== Sys2Proof/Laws/Cursor.lean ====
section
/-! SUPPORT. The bit cursor: `next_bit` takes the first unread bit, `put_bit` appends a pending one (40_bit_cursor R121 to R124). -/

namespace Sys2Proof.Machine

@[simp] theorem length_unpack (bytes : List Byte) : (unpack bytes).length = 8 * bytes.length := by
  induction bytes with
  | nil => rfl
  | cons v rest ih => simp only [unpack, List.flatMap_cons, List.length_append] at *; simp [ih]; omega

@[simp] theorem unpack_nil : unpack [] = [] := rfl

@[simp] theorem unpack_append (x y : List Byte) : unpack (x ++ y) = unpack x ++ unpack y := by simp [unpack]

theorem unpack_cons (v : Byte) (rest : List Byte) : unpack (v :: rest) = (List.range 8).map v.getLsbD ++ unpack rest := rfl

@[simp] theorem State.length_unreadBits (s : State) : s.unreadBits.length = s.bitsLeft := by
  simp [State.unreadBits, State.bitsLeft]

@[simp] theorem State.length_pendingBits (s : State) : s.pendingBits.length = s.wfill.toNat := by
  simp [State.pendingBits]

@[simp] theorem State.atEnd_iff (s : State) : s.atEnd = true ↔ s.rcnt = 0 ∧ s.pbs = [] := by
  simp [State.atEnd, State.pbsAtEos]

/-- No bit is unread exactly at the end (R121). -/
theorem State.unreadBits_eq_nil_iff (s : State) : s.unreadBits = [] ↔ s.rcnt = 0 ∧ s.pbs = [] := by
  rw [← List.length_eq_zero_iff, State.length_unreadBits, State.bitsLeft, ← List.length_eq_zero_iff (l := s.pbs)]
  constructor
  · intro h; exact ⟨BitVec.eq_of_toNat_eq (by simp; omega), by omega⟩
  · rintro ⟨h, k⟩; simp [h, k]

/-- Taking a bit out of a buffer that holds one (R122). -/
theorem State.takeBit_unread (s : State) (h0 : s.rcnt ≠ 0) (h8 : s.rcnt ≤ 8) :
    s.unreadBits = s.takeBit.1 :: s.takeBit.2.unreadBits ∧ s.takeBit.2.rcnt ≤ 7 := by
  obtain ⟨n, hn⟩ : ∃ n, s.rcnt.toNat = n + 1 := Nat.exists_eq_succ_of_ne_zero fun h => h0 (BitVec.eq_of_toNat_eq (by simpa using h))
  have hn8 : n + 1 ≤ 8 := hn ▸ h8
  have hs : (s.rcnt - 1).toNat = n := by
    rw [BitVec.toNat_sub_of_le (by rw [BitVec.le_def, hn]; simp)]; simp [hn]
  have h8s : (8 - s.rcnt).toNat = 8 - (n + 1) := by
    rw [BitVec.toNat_sub_of_le (by exact h8)]; simp [hn]
  refine ⟨?_, ?_⟩
  · simp only [State.unreadBits, State.takeBit, hn, hs, h8s, List.range_succ_eq_map, List.map_cons, List.map_map, List.cons_append,
      Nat.add_zero]
    congr 2
    refine List.map_congr_left fun j hj => ?_
    have : j < n := List.mem_range.mp hj
    simp only [Function.comp_apply]
    congr 1; omega
  · rw [BitVec.le_def]; show (s.rcnt - 1).toNat ≤ 7; omega

/-- `next_bit` takes the first unread bit and leaves the others; it fetches a byte only when the buffer is empty, and writes
nothing but the read cursor and `PBS` (R122). -/
theorem State.nextBit_some {s t : State} {b : Bool} (h : s.nextBit = some (b, t)) :
    t = { s with rbuf := t.rbuf, rcnt := t.rcnt, pbs := t.pbs } ∧ t.pbs <:+ s.pbs ∧ t.bitsLeft + 1 = s.bitsLeft ∧
      (s.rcnt ≤ 8 → s.unreadBits = b :: t.unreadBits ∧ t.rcnt ≤ 7) := by
  unfold State.nextBit at h
  split at h
  · rename_i h0
    cases hp : s.pbs with
    | nil => simp [hp] at h
    | cons v rest =>
      simp only [hp, Option.some.injEq] at h
      have hu : s.unreadBits = ({ s with rbuf := v, rcnt := 8, pbs := rest } : State).unreadBits := by
        simp [State.unreadBits, h0, hp, unpack_cons]
      obtain ⟨ht, hr⟩ := State.takeBit_unread { s with rbuf := v, rcnt := 8, pbs := rest }
        (show (8 : BitVec 4) ≠ 0 by decide) (show (8 : BitVec 4) ≤ 8 by decide)
      rw [h] at ht hr
      have e : t = { s with rbuf := v, rcnt := 8 - 1, pbs := rest } := (congrArg Prod.snd h).symm
      refine ⟨by rw [e], ?_, ?_, fun _ => ⟨hu.trans ht, hr⟩⟩
      · rw [e]; exact List.suffix_cons v rest
      · rw [e]; simp [State.bitsLeft, h0, hp]; omega
  · rename_i h0
    simp only [Option.some.injEq] at h
    have e : t = { s with rcnt := s.rcnt - 1 } := (congrArg Prod.snd h).symm
    refine ⟨by rw [e], by rw [e], ?_, fun h8 => ?_⟩
    · have : s.rcnt.toNat ≠ 0 := fun h => h0 (BitVec.eq_of_toNat_eq (by simpa using h))
      rw [e]
      simp only [State.bitsLeft]
      rw [BitVec.toNat_sub_of_le (by rw [BitVec.le_def]; simp; omega)]
      simp; omega
    · obtain ⟨ht, hr⟩ := State.takeBit_unread s h0 h8
      rw [h] at ht hr
      exact ⟨ht, hr⟩

/-- `next_bit` has no answer exactly at the end (R122). -/
theorem State.nextBit_none_iff (s : State) : s.nextBit = none ↔ s.rcnt = 0 ∧ s.pbs = [] := by
  unfold State.nextBit
  split
  · rename_i h; cases hp : s.pbs <;> simp [h]
  · rename_i h; exact iff_of_false (by simp) fun k => h k.1

/-- With a bit unread, `next_bit` answers it. -/
theorem State.nextBit_of_unread {s : State} {b : Bool} {rest : List Bool} (h8 : s.rcnt ≤ 8) (h : s.unreadBits = b :: rest) :
    ∃ t, s.nextBit = some (b, t) ∧ t.unreadBits = rest ∧ t.rcnt ≤ 7 ∧
      t = { s with rbuf := t.rbuf, rcnt := t.rcnt, pbs := t.pbs } := by
  cases hn : s.nextBit with
  | none =>
    rw [State.nextBit_none_iff, ← State.unreadBits_eq_nil_iff, h] at hn
    cases hn
  | some p =>
    obtain ⟨c, t⟩ := p
    obtain ⟨e, -, -, hu⟩ := State.nextBit_some hn
    obtain ⟨hu, hr⟩ := hu h8
    rw [h] at hu
    cases hu
    exact ⟨t, rfl, rfl, hr, e⟩

/-- `put_bit` writes nothing but the write cursor and `OBS` (R123). -/
theorem State.putBit_frame (s : State) (b : Bool) :
    s.putBit b = { s with wacc := (s.putBit b).wacc, wfill := (s.putBit b).wfill, obs := (s.putBit b).obs } := by
  simp only [State.putBit]
  split <;> rfl

theorem map_getLsbD_setBit (v : Byte) (n : Nat) (b : Bool) (hn : n < 8) :
    (List.range (n + 1)).map (setBit v n b).getLsbD = (List.range n).map v.getLsbD ++ [b] := by
  rw [List.range_succ, List.map_append]
  congr 1
  · refine List.map_congr_left fun j hj => ?_
    rw [getLsbD_setBit _ _ _ hn, if_neg (by have := List.mem_range.mp hj; omega)]
  · simp [getLsbD_setBit _ _ _ hn]

/-- `put_bit` appends one bit to what the write cursor has put (R123). -/
theorem State.putBit_wrote (s : State) (b : Bool) : s.Wrote (s.putBit b) [b] := by
  by_cases h : s.wfill = 7
  · refine ⟨[setBit s.wacc 7 b], by simp [State.putBit, h], ?_⟩
    have := map_getLsbD_setBit s.wacc 7 b (by omega)
    simp [State.putBit, State.pendingBits, h, unpack_cons, this]
  · have h7 : s.wfill.toNat ≠ 7 := fun e => h (BitVec.eq_of_toNat_eq (by simpa using e))
    have hl : s.wfill.toNat < 8 := s.wfill.isLt
    have hs : (s.wfill + 1).toNat = s.wfill.toNat + 1 := by rw [BitVec.toNat_add_of_lt (by simp; omega)]; simp
    refine ⟨[], by simp only [State.putBit, if_neg h, List.append_nil], ?_⟩
    have := map_getLsbD_setBit s.wacc s.wfill.toNat b hl
    simp only [State.putBit, if_neg h, State.pendingBits, hs, unpack_nil, List.nil_append, this]

theorem State.Wrote.trans {s t u : State} {x y : List Bool} (h : s.Wrote t x) (k : t.Wrote u y) : s.Wrote u (x ++ y) := by
  obtain ⟨p, hp, hb⟩ := h
  obtain ⟨q, hq, hc⟩ := k
  refine ⟨p ++ q, by rw [hq, hp, List.append_assoc], ?_⟩
  rw [unpack_append, List.append_assoc, hc, ← List.append_assoc, hb, List.append_assoc]

@[simp] theorem State.wrote_nil (s : State) : s.Wrote s [] := ⟨[], by simp, by simp⟩

/-- `put_bit` of a list of bits appends them in order and writes nothing but the write cursor and `OBS` (R123, R171). -/
theorem State.putBits_spec (bits : List Bool) (s : State) :
    s.Wrote (s.putBits bits) bits ∧
      s.putBits bits = { s with wacc := (s.putBits bits).wacc, wfill := (s.putBits bits).wfill, obs := (s.putBits bits).obs } := by
  induction bits generalizing s with
  | nil => exact ⟨s.wrote_nil, rfl⟩
  | cons b rest ih =>
    obtain ⟨hw, hf⟩ := ih (s.putBit b)
    refine ⟨(s.putBit_wrote b).trans hw, ?_⟩
    change (s.putBit b).putBits rest = _
    refine hf.trans ?_
    change _ = { s with wacc := ((s.putBit b).putBits rest).wacc, wfill := ((s.putBit b).putBits rest).wfill,
                        obs := ((s.putBit b).putBits rest).obs }
    generalize (s.putBit b).putBits rest = z
    rw [s.putBit_frame b]

/-- `flush` does nothing with no bit pending, and otherwise pushes one byte whose low bits are the pending ones (R124). -/
theorem State.flush_cases (s : State) :
    (s.wfill = 0 ∧ s.flush = s) ∨
    (s.wfill ≠ 0 ∧ ∃ v : Byte, s.flush = { s with wfill := 0, obs := s.obs ++ [v], draws := s.draws + 1 } ∧
      ∀ k, v.getLsbD k = if k < s.wfill.toNat then s.wacc.getLsbD k else (Config.padDraw s.draws).getLsbD k) := by
  unfold State.flush
  by_cases h : s.wfill = 0
  · exact .inl ⟨h, if_pos h⟩
  · have := s.wfill.isLt
    exact .inr ⟨h, _, if_neg h, fun k => getLsbD_joinAt _ _ _ _ (by omega)⟩

end Sys2Proof.Machine
end

