-- ==== Sys2Proof/Laws/Decode.lean ====
section
/-! SUPPORT. The fields of an encoded command, and how a decoded opcode and argument determine each other. -/

namespace Sys2Proof

@[simp] theorem opField_encode (i : Instr) : opField (encode i) = opcodeOf i := by
  simp only [opField, encode]
  rw [BitVec.extractLsb'_append_eq_of_le (by omega)]
  simp

@[simp] theorem argField_encode (i : Instr) : argField (encode i) = argOf i := by
  simp only [argField, encode]
  rw [BitVec.extractLsb'_append_eq_of_add_le (by omega)]
  simp

/-- A word is its opcode followed by its argument (R90). -/
theorem opField_append_argField (w : CmdWord) : (opField w ++ argField w : BitVec 40) = w := by
  ext k hk
  simp only [opField, argField, BitVec.getElem_append, BitVec.getElem_extractLsb']
  split
  · simp [BitVec.getLsbD_eq_getElem hk]
  · simp [show 32 + (k - 32) = k by omega, BitVec.getLsbD_eq_getElem hk]

/-- Two words with the same opcode and the same argument are the same word. -/
theorem CmdWord.ext_fields {w u : CmdWord} (ho : opField w = opField u) (ha : argField w = argField u) : w = u := by
  rw [← opField_append_argField w, ← opField_append_argField u, ho, ha]

/-- A decoded command has the opcode it was decoded from. -/
theorem opcodeOf_of_decodeFields {op : Byte} {arg : Arg} {i : Instr} (h : decodeFields op arg = .ok i) : opcodeOf i = op := by
  unfold decodeFields at h
  split at h <;> simp_all [decodeZ, decodeB, decodeC, decodeT] <;> grind [opcodeOf]

end Sys2Proof
end

