-- ==== Sys2Proof/Laws/Decoder.lean ====
section
/-! SUPPORT. The decoder: the four things one `dec_step` can do, and the loops of `DEC.RUN` and `DEC.SYM` without their bounds
(44_decoder R181, R183, R184). -/

namespace Sys2Proof.Machine

/-- The symbol starts at the root, and the walk is on (R181). -/
theorem State.startSymbol_eq (s : State) : s.startSymbol = { s with cur := s.walkNode, walk := true } := by
  unfold State.startSymbol State.walkNode
  split
  · rename_i h; cases s; simp only at h; subst h; rfl
  · rfl

/-- What `dec_step` can do: nothing at the count, the two faults, or one bit read and one edge followed (R181). -/
theorem decStep_cases (s : State) :
    (s.decm ≤ s.decd ∧ decStep s = .done s) ∨
    (s.decd < s.decm ∧ s.nc = 0 ∧ decStep s = raise .noTree 0 s) ∨
    (s.decd < s.decm ∧ s.nc ≠ 0 ∧ s.rcnt = 0 ∧ s.pbs = [] ∧
      decStep s = raise .truncDec s.decd { s with cur := s.walkNode, walk := true }) ∨
    (∃ b t, s.decd < s.decm ∧ s.nc ≠ 0 ∧ decStep s = .done t ∧ t.bitsLeft + 1 = s.bitsLeft ∧ t.pbs <:+ s.pbs ∧
      (s.rcnt ≤ 8 → s.unreadBits = b :: t.unreadBits ∧ t.rcnt ≤ 7) ∧
      (s.childIsLeaf s.walkNode b = true →
        t = { s with cur := s.walkNode, walk := false, decd := s.decd + 1, dbs := s.dbs ++ [s.child s.walkNode b],
                     rbuf := t.rbuf, rcnt := t.rcnt, pbs := t.pbs }) ∧
      (s.childIsLeaf s.walkNode b = false →
        t = { s with cur := s.child s.walkNode b, walk := true, rbuf := t.rbuf, rcnt := t.rcnt, pbs := t.pbs })) := by
  unfold decStep
  by_cases h : s.decm ≤ s.decd
  · exact .inl ⟨h, if_pos h⟩
  have hl : s.decd < s.decm := by simpa using h
  rw [if_neg h]
  by_cases h0 : s.nc = 0
  · exact .inr (.inl ⟨hl, h0, if_pos h0⟩)
  rw [if_neg h0, s.startSymbol_eq]
  cases hn : ({ s with cur := s.walkNode, walk := true } : State).nextBit with
  | none =>
    have := (State.nextBit_none_iff _).mp hn
    exact .inr (.inr (.inl ⟨hl, h0, this.1, this.2, rfl⟩))
  | some x =>
    obtain ⟨b, t⟩ := x
    obtain ⟨ht, hsuf, hb, hu⟩ := State.nextBit_some hn
    refine .inr (.inr (.inr ⟨b, t.followBit b, hl, h0, rfl, ?_⟩))
    have hleaf : t.childIsLeaf t.cur b = s.childIsLeaf s.walkNode b := by rw [ht]; rfl
    have hchild : t.child t.cur b = s.child s.walkNode b := by rw [ht]; rfl
    unfold State.followBit
    rw [hleaf, hchild]
    by_cases hc : s.childIsLeaf s.walkNode b = true
    · rw [if_pos hc]
      exact ⟨hb, hsuf, hu, fun _ => by rw [ht]; rfl, fun k => absurd hc (by simp [k])⟩
    · rw [if_neg hc]
      exact ⟨hb, hsuf, hu, fun k => absurd k hc, fun _ => by rw [ht]⟩

/-- A `dec_step` that answers while a byte is owed reads exactly one bit (R181). -/
theorem decStep_bitsLeft {s t : State} (hlt : s.decd < s.decm) (h : decStep s = .done t) : t.bitsLeft + 1 = s.bitsLeft := by
  rcases decStep_cases s with ⟨hge, -⟩ | ⟨-, -, k⟩ | ⟨-, -, -, -, k⟩ | ⟨b, u, -, -, k, hb, -⟩
  · exact absurd hge (by simpa using hlt)
  · rw [k] at h; cases h
  · rw [k] at h; cases h
  · rw [k] at h; cases h; exact hb

/-- Inside a symbol the count stands still, and a `dec_step` that ends with the walk on leaves a byte owed (R181, R184). -/
theorem decStep_walking {s t : State} (hlt : s.decd < s.decm) (h : decStep s = .done t) (hw : t.walk = true) :
    t.decd = s.decd ∧ t.decm = s.decm := by
  rcases decStep_cases s with ⟨hge, -⟩ | ⟨-, -, k⟩ | ⟨-, -, -, -, k⟩ | ⟨b, u, -, -, k, -, -, -, hl, hn⟩
  · exact absurd hge (by simpa using hlt)
  · rw [k] at h; cases h
  · rw [k] at h; cases h
  · rw [k] at h; cases h
    cases hc : s.childIsLeaf s.walkNode b with
    | true => rw [hl hc] at hw; cases hw
    | false => rw [hn hc]; exact ⟨rfl, rfl⟩

/-- With the bits left as a bound to spare, the bound of the loop does not matter. -/
theorem decLoop_fuel (n m : Nat) (s : State) (hn : s.bitsLeft < n) (hm : s.bitsLeft < m) : decLoop n s = decLoop m s := by
  induction n generalizing m s with
  | zero => omega
  | succ n ih =>
    obtain ⟨m, rfl⟩ : ∃ k, m = k + 1 := ⟨m - 1, by omega⟩
    simp only [decLoop]
    split
    · cases hd : decStep s with
      | raised t => rfl
      | done t =>
        have := decStep_bitsLeft ‹_› hd
        exact ih _ _ (by omega) (by omega)
    · rfl

/-- The loop of `DEC.RUN` (R183): while `DECD < DECM`, a `dec_step` and on, a raise ending it. -/
theorem decRunBody_eq (s : State) :
    decRunBody s = if s.decd < s.decm then
      match decStep s with
      | .raised t => .raised t
      | .done t => decRunBody t
    else .done s := by
  rw [decRunBody, decLoop]
  split
  · cases hd : decStep s with
    | raised t => rfl
    | done t =>
      have := decStep_bitsLeft ‹_› hd
      exact decLoop_fuel _ _ _ (by omega) (by omega)
  · rfl

/-- A property of the state that one `dec_step` keeps is kept by the whole loop of `DEC.RUN`. -/
theorem decRunBody_induction {P : State → Prop} (hd : ∀ s t, P s → s.decd < s.decm → decStep s = .done t → P t) (s : State)
    (hs : P s) : (∃ t, P t ∧ t.decm ≤ t.decd ∧ decRunBody s = .done t) ∨
      ∃ t u, P t ∧ t.decd < t.decm ∧ decStep t = .raised u ∧ decRunBody s = .raised u := by
  induction hn : s.bitsLeft using Nat.strongRecOn generalizing s with
  | ind n ih =>
    rw [decRunBody_eq]
    split
    · rename_i hlt
      cases h : decStep s with
      | raised u => exact .inr ⟨s, u, hs, hlt, h, rfl⟩
      | done t =>
        have := decStep_bitsLeft hlt h
        exact ih t.bitsLeft (by omega) t (hd s t hs hlt h) rfl
    · rename_i hge
      exact .inl ⟨s, hs, by simpa using hge, rfl⟩

/-- The bound of the loop of `DEC.SYM` does not matter while a byte is owed. -/
theorem symLoop_fuel (n m : Nat) (s : State) (hlt : s.decd < s.decm) (hn : s.bitsLeft < n) (hm : s.bitsLeft < m) :
    symLoop n s = symLoop m s := by
  induction n generalizing m s with
  | zero => omega
  | succ n ih =>
    obtain ⟨m, rfl⟩ : ∃ k, m = k + 1 := ⟨m - 1, by omega⟩
    simp only [symLoop]
    cases hd : decStep s with
    | raised t => rfl
    | done t =>
      simp only
      split
      · rename_i hw
        have := decStep_bitsLeft hlt hd
        have hk := decStep_walking hlt hd hw
        exact ih _ _ (by rw [hk.1, hk.2]; exact hlt) (by omega) (by omega)
      · rfl

/-- The loop of `DEC.SYM` (R184): `dec_step` until `WALK = 0`, a raise ending it; nothing when the count is reached. -/
theorem decSymBody_eq (s : State) :
    decSymBody s = if s.decd < s.decm then
      match decStep s with
      | .raised t => .raised t
      | .done t => if t.walk then decSymBody t else .done t
    else .done s := by
  by_cases hlt : s.decd < s.decm
  · have hge : ¬ s.decd ≥ s.decm := by simpa using hlt
    rw [if_pos hlt, decSymBody, if_neg hge, symLoop]
    cases hd : decStep s with
    | raised t => rfl
    | done t =>
      simp only
      split
      · rename_i hw
        have hb := decStep_bitsLeft hlt hd
        have hk := decStep_walking hlt hd hw
        have hlt' : t.decd < t.decm := by rw [hk.1, hk.2]; exact hlt
        rw [decSymBody, if_neg (show ¬ t.decd ≥ t.decm by simpa using hlt')]
        exact symLoop_fuel _ _ _ hlt' (by omega) (by omega)
      · rfl
  · rw [if_neg hlt, decSymBody, if_pos (show s.decd ≥ s.decm by simpa using hlt)]

end Sys2Proof.Machine
end

