-- ==== Sys2Proof/Laws/Encoder.lean ====
section
/-! SUPPORT. The encoder: the four things one `enc_step` can do, and the loop of `ENC.RUN` without its bound (43_encoder R171,
R172). -/

namespace Sys2Proof.Machine

/-- Counting a byte after its bits are put leaves the frame of `put_bit`. -/
theorem count_frame (s u : State) (rest : List Byte)
    (h : u = { ({ s with ibs := rest } : State) with wacc := u.wacc, wfill := u.wfill, obs := u.obs }) :
    ({ u with encd := u.encd + 1 } : State) =
      { s with ibs := rest, encd := s.encd + 1, wacc := u.wacc, wfill := u.wfill, obs := u.obs } := by
  rw [h]

/-- What `enc_step` can do: nothing at the count, the two faults, or one byte encoded (R171). -/
theorem encStep_cases (s : State) :
    (s.encn ≤ s.encd ∧ encStep s = .done s) ∨
    (s.encd < s.encn ∧ s.ibs = [] ∧ encStep s = raise .truncEnc s.encd s) ∨
    (∃ v rest, s.encd < s.encn ∧ s.ibs = v :: rest ∧ s.codeLen v = 0 ∧
      encStep s = raise .lookup (v.zeroExtend 64) { s with ibs := rest }) ∨
    (∃ v rest t, s.encd < s.encn ∧ s.ibs = v :: rest ∧ s.codeLen v ≠ 0 ∧ encStep s = .done t ∧ s.Wrote t (s.code v) ∧
      t = { s with ibs := rest, encd := s.encd + 1, wacc := t.wacc, wfill := t.wfill, obs := t.obs }) := by
  unfold encStep
  by_cases h : s.encn ≤ s.encd
  · exact .inl ⟨h, if_pos h⟩
  have hl : s.encd < s.encn := by simpa using h
  rw [if_neg h]
  rcases s.popIbs_eq with ⟨hp, hi⟩ | ⟨v, rest, hi, hp⟩
  · exact .inr (.inl ⟨hl, hi, by rw [hp]⟩)
  rw [hp]
  by_cases hc : s.codeLen v = 0
  · exact .inr (.inr (.inl ⟨v, rest, hl, hi, hc, if_pos (c := ({ s with ibs := rest } : State).codeLen v = 0) hc⟩))
  · refine .inr (.inr (.inr ⟨v, rest, _, hl, hi, hc, if_neg (c := ({ s with ibs := rest } : State).codeLen v = 0) hc, ?_, ?_⟩))
    · exact (State.putBits_spec (s.code v) { s with ibs := rest }).1
    · exact count_frame s _ rest (State.putBits_spec (s.code v) { s with ibs := rest }).2

/-- With the bytes of `IBS` as a bound to spare, the bound of the loop does not matter. -/
theorem encLoop_fuel (n m : Nat) (s : State) (hn : s.ibs.length < n) (hm : s.ibs.length < m) : encLoop n s = encLoop m s := by
  induction n generalizing m s with
  | zero => omega
  | succ n ih =>
    obtain ⟨m, rfl⟩ : ∃ k, m = k + 1 := ⟨m - 1, by omega⟩
    simp only [encLoop]
    split
    · rcases encStep_cases s with ⟨h, -⟩ | ⟨-, -, h⟩ | ⟨_, _, _, -, -, h⟩ | ⟨v, rest, t, -, hi, -, h, -, ht⟩
      · have : s.encd < s.encn := ‹_›
        exact absurd h (by simpa using this)
      · rw [h]; rfl
      · rw [h]; rfl
      · rw [h]
        have hl : t.ibs.length + 1 = s.ibs.length := by rw [ht, hi]; simp
        exact ih _ _ (by omega) (by omega)
    · rfl

/-- The loop of `ENC.RUN` (R172): while `ENCD < ENCN`, an `enc_step` and on, a raise ending it. -/
theorem encRunBody_eq (s : State) :
    encRunBody s = if s.encd < s.encn then
      match encStep s with
      | .raised t => .raised t
      | .done t => encRunBody t
    else .done s := by
  rw [encRunBody, encLoop]
  split
  · rcases encStep_cases s with ⟨h, -⟩ | ⟨-, -, h⟩ | ⟨_, _, _, -, -, h⟩ | ⟨v, rest, t, -, hi, -, h, -, ht⟩
    · have : s.encd < s.encn := ‹_›
      exact absurd h (by simpa using this)
    · rw [h]; rfl
    · rw [h]; rfl
    · rw [h]
      have hl : t.ibs.length + 1 = s.ibs.length := by rw [ht, hi]; simp
      exact encLoop_fuel _ _ _ (by omega) (by omega)
  · rfl

/-- A property of the state that one `enc_step` keeps, and the record of a fault too, is kept by the whole loop. -/
theorem encRunBody_induction {P : State → Prop} (hd : ∀ s t, P s → s.encd < s.encn → encStep s = .done t → P t) (s : State)
    (hs : P s) : (∃ t, P t ∧ t.encn ≤ t.encd ∧ encRunBody s = .done t) ∨
      ∃ t u, P t ∧ t.encd < t.encn ∧ encStep t = .raised u ∧ encRunBody s = .raised u := by
  induction hn : s.ibs.length using Nat.strongRecOn generalizing s with
  | ind n ih =>
    rw [encRunBody_eq]
    split
    · rename_i hlt
      rcases encStep_cases s with ⟨h, -⟩ | ⟨-, -, h⟩ | ⟨_, _, _, -, -, h⟩ | ⟨v, rest, t, -, hi, -, h, -, ht⟩
      · exact absurd h (by simpa using hlt)
      · exact .inr ⟨s, _, hs, hlt, h, by rw [h]; rfl⟩
      · exact .inr ⟨s, _, hs, hlt, h, by rw [h]; rfl⟩
      · rw [h]
        exact ih t.ibs.length (by rw [ht, ← hn, hi]; simp) t (hd s t hs hlt h) rfl
    · rename_i hge
      exact .inl ⟨s, hs, by simpa using hge, rfl⟩

end Sys2Proof.Machine
end

