-- ==== Sys2Proof/Laws/PerInstr.lean ====
section
/-! SUPPORT. One fact per command about its encoding: the word of the command lies in its own row of the opcode map, whatever
its operands are (30_encoding R96). -/

namespace Sys2Proof.Laws.RowMatch

/-- The encoder's word of a command matches the row of the opcode map that has the command's mnemonic (R96). -/
def Statement (i : Instr) : Prop :=
  ∃ r ∈ opcodeMap, r.mnemonic = i.mnemonic ∧ r.covers (encode i) = true

/-- A row covers a word when its mask and its match, cut into opcode and argument, cover the word's opcode and argument. -/
theorem covers_of_fields {r : OpcodeRow} {op : Byte} {arg mask word : Arg} (hm : r.mask = (0xFF#8 ++ mask : BitVec 40))
    (hw : r.word = (op ++ word : BitVec 40)) (ha : arg &&& mask = word) : r.covers (op ++ arg : BitVec 40) = true := by
  have ho : op &&& 0xFF#8 = op := BitVec.and_allOnes
  simp only [OpcodeRow.covers, hm, hw, ← ha, beq_iff_eq]
  rw [BitVec.and_append, ho]

theorem reset : Statement .reset := ⟨⟨"RESET", 0x0100000000, 0xFFFFFFFFFF⟩, by decide, rfl, rfl⟩

theorem rd (csr : Byte) : Statement (.rd csr) := by
  refine ⟨⟨"RD", 0x0200000000, 0xFFFFFFFF00⟩, by decide, rfl, covers_of_fields (op := 0x02) (mask := 0xFFFFFF00) (word := 0) rfl rfl ?_⟩
  show (0#24 ++ csr : BitVec 32) &&& (0xFFFFFF#24 ++ 0#8 : BitVec 32) = 0
  rw [BitVec.and_append]; simp

theorem trClr : Statement .trClr := ⟨⟨"TR.CLR", 0x1000000000, 0xFFFFFFFFFF⟩, by decide, rfl, rfl⟩

theorem trPush (l r : Byte) (ll rl : Bool) : Statement (.trPush l r ll rl) := by
  refine ⟨⟨"TR.PUSH", 0x1100000000, 0xFFFFFC0000⟩, by decide, rfl, covers_of_fields (op := 0x11) (mask := 0xFFFC0000) (word := 0) rfl rfl ?_⟩
  show (0#14 ++ BitVec.ofBool rl ++ BitVec.ofBool ll ++ r ++ l : BitVec 32) &&&
    (0x3FFF#14 ++ 0#1 ++ 0#1 ++ 0#8 ++ 0#8 : BitVec 32) = 0
  simp only [BitVec.and_append]; simp

theorem ctBuild : Statement .ctBuild := ⟨⟨"CT.BUILD", 0x1200000000, 0xFFFFFFFFFF⟩, by decide, rfl, rfl⟩

theorem setnLo (imm : Arg) : Statement (.setnLo imm) :=
  ⟨⟨"SETN.LO", 0x1400000000, 0xFF00000000⟩, by decide, rfl, covers_of_fields (op := 0x14) (mask := 0) (word := 0) rfl rfl (by simp [argOf])⟩

theorem setnHi (imm : Arg) : Statement (.setnHi imm) :=
  ⟨⟨"SETN.HI", 0x1500000000, 0xFF00000000⟩, by decide, rfl, covers_of_fields (op := 0x15) (mask := 0) (word := 0) rfl rfl (by simp [argOf])⟩

theorem setmLo (imm : Arg) : Statement (.setmLo imm) :=
  ⟨⟨"SETM.LO", 0x1600000000, 0xFF00000000⟩, by decide, rfl, covers_of_fields (op := 0x16) (mask := 0) (word := 0) rfl rfl (by simp [argOf])⟩

theorem setmHi (imm : Arg) : Statement (.setmHi imm) :=
  ⟨⟨"SETM.HI", 0x1700000000, 0xFF00000000⟩, by decide, rfl, covers_of_fields (op := 0x17) (mask := 0) (word := 0) rfl rfl (by simp [argOf])⟩

theorem brBit : Statement .brBit := ⟨⟨"BR.BIT", 0x2000000000, 0xFFFFFFFFFF⟩, by decide, rfl, rfl⟩

theorem brEnd : Statement .brEnd := ⟨⟨"BR.END", 0x2100000000, 0xFFFFFFFFFF⟩, by decide, rfl, rfl⟩

theorem bwBit (b : Bool) : Statement (.bwBit b) :=
  ⟨⟨"BW.BIT", 0x2400000000, 0xFFFFFFFFFE⟩, by decide, rfl, by cases b <;> rfl⟩

theorem bwFlush : Statement .bwFlush := ⟨⟨"BW.FLUSH", 0x2500000000, 0xFFFFFFFFFF⟩, by decide, rfl, rfl⟩

theorem encStep : Statement .encStep := ⟨⟨"ENC.STEP", 0x3000000000, 0xFFFFFFFFFF⟩, by decide, rfl, rfl⟩

theorem encRun : Statement .encRun := ⟨⟨"ENC.RUN", 0x3100000000, 0xFFFFFFFFFF⟩, by decide, rfl, rfl⟩

theorem decStep : Statement .decStep := ⟨⟨"DEC.STEP", 0x4000000000, 0xFFFFFFFFFF⟩, by decide, rfl, rfl⟩

theorem decSym : Statement .decSym := ⟨⟨"DEC.SYM", 0x4100000000, 0xFFFFFFFFFF⟩, by decide, rfl, rfl⟩

theorem decRun : Statement .decRun := ⟨⟨"DEC.RUN", 0x4200000000, 0xFFFFFFFFFF⟩, by decide, rfl, rfl⟩

end Sys2Proof.Laws.RowMatch
end

