-- ==== Sys2Proof/Laws/Step.lean ====
section
/-! SUPPORT. A step taken apart: no word left, a command, or a word that is no command (60_exceptions R206, 70 R243); and the
word placed for the next step. -/

namespace Sys2Proof.Machine

/-- Every command answers a next state. -/
theorem exec_next (i : Instr) (s : State) : ∃ t, exec i s = .next t := by
  cases i with
  | rd csr =>
    change ∃ t, execRd csr s = .next t
    unfold execRd
    split
    · exact ⟨_, rfl⟩
    · exact command_next _ _
  | reset => exact ⟨_, rfl⟩
  | trClr => exact command_next _ _
  | trPush l r ll rl => exact command_next _ _
  | ctBuild => exact command_next _ _
  | setnLo imm => exact command_next _ _
  | setnHi imm => exact command_next _ _
  | setmLo imm => exact command_next _ _
  | setmHi imm => exact command_next _ _
  | brBit => exact command_next _ _
  | brEnd => simp only [exec, execBrEnd]; exact command_next _ _
  | bwBit b => simp only [exec, execBwBit]; exact command_next _ _
  | bwFlush => simp only [exec, execBwFlush]; exact command_next _ _
  | encStep => exact command_next _ _
  | encRun => exact command_next _ _
  | decStep => exact command_next _ _
  | decSym => exact command_next _ _
  | decRun => exact command_next _ _

/-- Every step answers a next state. -/
theorem step_next (s : State) : ∃ t, step s = .next t := by
  unfold step stepWith
  split
  · exact ⟨_, rfl⟩
  · split
    · exact exec_next _ _
    · exact command_next _ _

/-- What one step can be: nothing at the end of `PROG`, the meaning of the decoded command, or the refusal of the word. -/
theorem step_cases {s t : State} (h : step s = .next t) :
    (s.prog[s.pc]? = none ∧ t = s) ∨
    (∃ w i, s.prog[s.pc]? = some w ∧ decode w = .ok i ∧ exec i s = .next t) ∨
    (∃ w e, s.prog[s.pc]? = some w ∧ decode w = .error e ∧
      ((s.fcode ≠ 0 ∧ t = s.passed) ∨ (s.fcode = 0 ∧ t = s.faulted 1 (w.zeroExtend 64)))) := by
  unfold step stepWith State.fetch at h
  cases hw : s.prog[s.pc]? with
  | none => rw [hw] at h; cases h; exact .inl ⟨rfl, rfl⟩
  | some w =>
    rw [hw] at h
    simp only at h
    cases hd : decode w with
    | ok i => rw [hd] at h; exact .inr (.inl ⟨w, i, rfl, hd, h⟩)
    | error e =>
      rw [hd] at h
      exact .inr (.inr ⟨w, e, rfl, hd, command_cases h⟩)

/-- The word placed for the next step is the one fetched. -/
theorem State.fetch_placeWord (s : State) (w : CmdWord) : (s.placeWord w).fetch = some w := by
  simp only [State.fetch, State.placeWord]
  rw [List.getElem?_append_right (by simp; omega)]
  simp [show s.pc - (min s.pc s.prog.length + (s.pc - s.prog.length)) = 0 by omega]

end Sys2Proof.Machine
end

