-- ==== Sys2Proof/Laws/System.lean ====
section
/-! SUPPORT. The system commands: what reading a register and going to the reset state write (45_system R196 to R198). -/

namespace Sys2Proof.Machine

/-- Reading a register pushes one word; only a `WCUR` read draws (R197, R198). -/
theorem State.readCsr_eq (s : State) (c : Csr) :
    ∃ v, s.readCsr c = { s with rsp := s.rsp ++ [v], draws := if c = .wcur then s.draws + 1 else s.draws } := by
  unfold State.readCsr
  by_cases h : c = .wcur
  · simp only [h, if_true]; exact ⟨_, rfl⟩
  · simp only [h, if_false]; exact ⟨_, rfl⟩

/-- The state a `RESET` leaves is the reset state (R196, R38). -/
theorem State.isReset_toReset (s : State) : s.toReset.IsReset := by
  constructor <;> first | rfl | (intro v; simp [State.toReset, State.codeLen])

/-- The reset state depends on the streams, `pc` and the storage that holds no value only (R236, R237). -/
theorem State.toReset_frame (s : State) :
    s.toReset = { State.launch s.prog s.ibs s.pbs with
      node := s.node, lleaf := s.lleaf, rleaf := s.rleaf, ctBits := s.ctBits, wacc := s.wacc,
      pc := s.pc, obs := s.obs, dbs := s.dbs, rsp := s.rsp, draws := s.draws } := rfl

end Sys2Proof.Machine
end

