-- ==== Sys2Proof/Tests/Slice0.lean ====
section
/-! SUPPORT. Tests of the model on single words and single steps, with expected results written out from spec/ (95_test_vectors and the
examples of the command rules), and a witness for the hypotheses of every statement. -/

namespace Sys2Proof.Tests

open Sys2Proof.Machine

/-! ### Small states -/

/-- Tree ABC of 95_test_vectors: node 0 = (literal 42, literal 43), node 1 = (literal 41, node 0), loaded after reset. -/
def abc : State := (State.reset.storeNode 0x42 0x43 true true).storeNode 0x41 0x00 true false

/-- Tree DEG of 95_test_vectors: the one node (41, 41), both literal. -/
def deg : State := State.reset.storeNode 0x41 0x41 true true

/-- A session about to encode "ABACA" with tree ABC and its table (43_encoder R172, example). -/
def encSession : State := { abc.buildTable with encn := 5, ibs := [0x41, 0x42, 0x41, 0x43, 0x41] }

/-- A session about to decode five bytes from B2 with tree ABC (44_decoder R182, example). -/
def decSession : State := { abc with decm := 5, pbs := [0xB2] }

/-- A session that halted with `LOOKUP` on byte 44. -/
def halted : State := { encSession with fcode := 6, finfo := 0x44 }

/-- The full tree count, for the capacity test. -/
def full : State := { State.reset with nc := 255 }

/-- The state a command leaves, for reading one field of it; the fallback is the state before. -/
def after (i : Instr) (s : State) : State :=
  match exec i s with
  | .next t => t
  | _ => s

/-- The state a step on one word leaves. -/
def afterWord (w : CmdWord) (s : State) : State :=
  match step (s.placeWord w) with
  | .next t => t
  | _ => s

/-! ### WellFormed: each check refuses an ill-formed term -/

theorem test_wf_register_number : Instr.wellFormed (.rd 0x0A) = false ∧ Instr.wellFormed (.rd 0x09) = true := by decide

theorem test_wf_unlisted_opcode :
    CmdWord.opcodeListed 0x1300000000 = false ∧ CmdWord.opcodeListed 0x0000000000 = false ∧
    CmdWord.opcodeListed 0xFFFFFFFFFF = false ∧ CmdWord.opcodeListed 0x4200000000 = true := by decide

theorem test_wf_reserved_bit_z : CmdWord.reservedZero 0x0180000000 = false ∧ CmdWord.reservedZero 0x0100000000 = true := by decide

theorem test_wf_reserved_bit_b : CmdWord.reservedZero 0x2400000002 = false ∧ CmdWord.reservedZero 0x2400000001 = true := by decide

theorem test_wf_reserved_bit_c : CmdWord.reservedZero 0x0200000100 = false ∧ CmdWord.reservedZero 0x02000000FF = true := by decide

theorem test_wf_reserved_bit_t : CmdWord.reservedZero 0x1100040000 = false ∧ CmdWord.reservedZero 0x110003FFFF = true := by decide

theorem test_wf_no_reserved_bit_w : CmdWord.reservedZero 0x14FFFFFFFF = true := by decide

theorem test_wf_row_refuses : CmdWord.legal 0x4200000001 = false ∧ CmdWord.legal 0x4200000000 = true := by decide

/-! ### Decode: every constructor from a word of 30_encoding section 6 -/

theorem test_decode_reset : decode 0x0100000000 = .ok .reset := by decide
theorem test_decode_rd : decode 0x0200000007 = .ok (.rd 0x07) := by decide
theorem test_decode_rd_any_number : decode 0x02000000FF = .ok (.rd 0xFF) := by decide
theorem test_decode_trClr : decode 0x1000000000 = .ok .trClr := by decide
theorem test_decode_trPush_node_right : decode 0x1100010041 = .ok (.trPush 0x41 0x00 true false) := by decide
theorem test_decode_trPush_node_left : decode 0x1100027A02 = .ok (.trPush 0x02 0x7A false true) := by decide
theorem test_decode_ctBuild : decode 0x1200000000 = .ok .ctBuild := by decide
theorem test_decode_setnLo : decode 0x14000003E8 = .ok (.setnLo 1000) := by decide
theorem test_decode_setnHi : decode 0x1500000000 = .ok (.setnHi 0) := by decide
theorem test_decode_setmLo : decode 0x16FFFFFFFF = .ok (.setmLo 0xFFFFFFFF) := by decide
theorem test_decode_setmHi : decode 0x1700000001 = .ok (.setmHi 1) := by decide
theorem test_decode_brBit : decode 0x2000000000 = .ok .brBit := by decide
theorem test_decode_brEnd : decode 0x2100000000 = .ok .brEnd := by decide
theorem test_decode_bwBit_one : decode 0x2400000001 = .ok (.bwBit true) := by decide
theorem test_decode_bwBit_zero : decode 0x2400000000 = .ok (.bwBit false) := by decide
theorem test_decode_bwFlush : decode 0x2500000000 = .ok .bwFlush := by decide
theorem test_decode_encStep : decode 0x3000000000 = .ok .encStep := by decide
theorem test_decode_encRun : decode 0x3100000000 = .ok .encRun := by decide
theorem test_decode_decStep : decode 0x4000000000 = .ok .decStep := by decide
theorem test_decode_decSym : decode 0x4100000000 = .ok .decSym := by decide
theorem test_decode_decRun : decode 0x4200000000 = .ok .decRun := by decide

/-- 30_encoding R97: the all-zero and the all-ones word are illegal; so are the opcodes next to listed ones. -/
theorem test_decode_refuses_opcode :
    decode 0x0000000000 = .error (.unknownOpcode 0x00) ∧ decode 0xFFFFFFFFFF = .error (.unknownOpcode 0xFF) ∧
    decode 0x1300000000 = .error (.unknownOpcode 0x13) ∧ decode 0x2200000000 = .error (.unknownOpcode 0x22) ∧
    decode 0x4300000000 = .error (.unknownOpcode 0x43) := by decide

/-- 30_encoding R91: the lowest and the highest reserved bit of each format. -/
theorem test_decode_refuses_reserved :
    decode 0x0100000001 = .error (.reservedBit 0x01) ∧ decode 0x4280000000 = .error (.reservedBit 0x42) ∧
    decode 0x2400000002 = .error (.reservedBit 0x24) ∧ decode 0x2480000000 = .error (.reservedBit 0x24) ∧
    decode 0x0200000100 = .error (.reservedBit 0x02) ∧ decode 0x0280000000 = .error (.reservedBit 0x02) ∧
    decode 0x1100040000 = .error (.reservedBit 0x11) ∧ decode 0x1180000000 = .error (.reservedBit 0x11) := by decide

/-- The words of tree ABC (95_test_vectors section 0) from the encoder. -/
theorem test_encode_tree_words :
    encode (.trPush 0x42 0x43 true true) = 0x1100034342 ∧ encode (.trPush 0x41 0x00 true false) = 0x1100010041 := by decide

theorem test_decodeTableWord : decodeTableWord 40 0x1100027A02 = some (.trPush 0x02 0x7A false true) ∧
    decodeTableWord 40 0x1300000000 = none := by decide

/-! ### Single steps -/

/-- 45_system R196, corner case: after a `LOOKUP` fault `RESET` clears the record and keeps the streams. -/
theorem test_reset_after_fault : (after .reset halted).fcode = 0 ∧ (after .reset halted).nc = 0 ∧
    (after .reset halted).ibs = halted.ibs ∧ (after .reset halted).pc = 1 := by decide

/-- 40_bit_cursor R126, 45_system R198: `STATUS` of a fresh block with empty `PBS` is 0x200 (V-CUR). -/
theorem test_rd_status : (after (.rd 0x00) State.reset).rsp = [0x200] := by decide

/-- 45_system R197, example: `RD RCUR` with `RCNT = 1`, `RBUF = 0xB2` pushes 0x1B2. -/
theorem test_rd_rcur : (after (.rd 0x08) { State.reset with rbuf := 0xB2, rcnt := 1 }).rsp = [0x1B2] := by decide

/-- 41_tree_and_counts R142, example: `TR.CLR` leaves `NC = 0`; and an empty table. -/
theorem test_trClr : (after .trClr encSession).nc = 0 ∧ (after .trClr encSession).codeLen 0x41 = 0 := by decide

/-- 41_tree_and_counts R143, example: the second push makes node 1 = (literal 41, node 0), `NC = 2`. -/
theorem test_trPush_second : (after (.trPush 0x41 0x00 true false) (State.reset.storeNode 0x42 0x43 true true)).nc = 2 ∧
    (after (.trPush 0x41 0x00 true false) (State.reset.storeNode 0x42 0x43 true true)).nodeAt 1 = ⟨0x41, 0x00⟩ := by decide

/-- 41_tree_and_counts R144: a node may not name itself; the word is recorded. -/
theorem test_trPush_self : (after (.trPush 0x41 0x02 true false) abc).fcode = 4 ∧
    (after (.trPush 0x41 0x02 true false) abc).finfo = 0x1100010241 ∧ (after (.trPush 0x41 0x02 true false) abc).nc = 2 := by decide

/-- 42_code_table R160, example: `CT['A'] = [0]`, `CT['B'] = [1, 0]`, `CT['C'] = [1, 1]`. -/
theorem test_ctBuild_abc : (after .ctBuild abc).code 0x41 = [false] ∧ (after .ctBuild abc).code 0x42 = [true, false] ∧
    (after .ctBuild abc).code 0x43 = [true, true] ∧ (after .ctBuild abc).codeLen 0x44 = 0 := by decide

/-- 42_code_table R164: the degenerate tree keeps the left path. -/
theorem test_ctBuild_deg : (after .ctBuild deg).code 0x41 = [false] := by decide

/-- 41_tree_and_counts R148, example, on a count whose high half is set. -/
theorem test_setnLo : (after (.setnLo 1000) { State.reset with encn := 0x1FFFFFFFF }).encn = 0x1000003E8 := by decide

/-- 41_tree_and_counts R149, example: `SETN.HI 1` on 0 gives 2^32. -/
theorem test_setnHi : (after (.setnHi 1) State.reset).encn = 4294967296 := by decide

/-- 41_tree_and_counts R150, example; and `SEQ` inside a first symbol (R36). -/
theorem test_setmLo : (after (.setmLo 5) State.reset).decm = 5 ∧
    (after (.setmLo 5) { State.reset with walk := true }).fcode = 2 := by decide

/-- 41_tree_and_counts R151, example: 2^64 - 1. -/
theorem test_setmHi : (after (.setmHi 0xFFFFFFFF) { State.reset with decm := 0xFFFFFFFF }).decm = 0xFFFFFFFFFFFFFFFF := by decide

/-- 40_bit_cursor R125, example: with B2 half read (four bits left) the fifth command pushes bit 4 of B2, which is 1. -/
theorem test_brBit_mid_byte : (after .brBit { State.reset with rbuf := 0xB2, rcnt := 4 }).rsp = [1] ∧
    (after .brBit { State.reset with rbuf := 0xB2, rcnt := 4 }).rcnt = 3 := by decide

/-- 40_bit_cursor R125, example: the first bit of B2 is 0; at the end the fault is 9. -/
theorem test_brBit_first_and_end : (after .brBit { State.reset with pbs := [0xB2] }).rsp = [0] ∧
    (after .brBit { State.reset with pbs := [0xB2] }).rcnt = 7 ∧ (after .brBit State.reset).fcode = 9 := by decide

/-- 40_bit_cursor R126, corner cases: 1 with `PBS` empty, 0 with one bit left. -/
theorem test_brEnd : (after .brEnd State.reset).rsp = [1] ∧ (after .brEnd { State.reset with rcnt := 1 }).rsp = [0] := by decide

/-- 40_bit_cursor R127, example: the eighth bit of 1,0,0,0,0,0,1,0 pushes 41. -/
theorem test_bwBit_eighth : (after (.bwBit false) { State.reset with wacc := 0x41, wfill := 7 }).obs = [0x41] ∧
    (after (.bwBit true) { State.reset with wacc := 0x41, wfill := 7 }).obs = [0xC1] := by decide

/-- 40_bit_cursor R127: a bit lands on the next free low-order slot. -/
theorem test_bwBit_slot : (after (.bwBit true) { State.reset with wfill := 1 }).pendingBits = [false, true] := by decide

/-- 40_bit_cursor R128, example: `B[2:0] = 0b011`, `B[7:3]` unspecified (free, so only the defined bits are looked at). -/
theorem test_bwFlush : ∀ p : Byte, (joinAt 3 p 0x03).extractLsb' 0 3 = 0x3 ∧ (joinAt 3 p 0x03).extractLsb' 3 5 = p.extractLsb' 3 5 := by
  decide

/-- 40_bit_cursor R128: with nothing pending nothing is pushed. -/
theorem test_bwFlush_nothing : (after .bwFlush State.reset).obs = [] ∧ (after .bwFlush State.reset).pc = 1 := by decide

/-- 43_encoder R173, example: the second `ENC.STEP` puts 1 then 0 after the 0 of 'A', `ENCD = 2`, `WFILL = 3`. -/
theorem test_encStep_second : (after .encStep (after .encStep encSession)).pendingBits = [false, true, false] ∧
    (after .encStep (after .encStep encSession)).encd = 2 := by decide

/-- 43_encoder R171: on `LOOKUP` the byte is popped, recorded, and not counted. -/
theorem test_encStep_lookup : (after .encStep { encSession with ibs := [0x44, 0x41] }).fcode = 6 ∧
    (after .encStep { encSession with ibs := [0x44, 0x41] }).finfo = 0x44 ∧
    (after .encStep { encSession with ibs := [0x44, 0x41] }).ibs = [0x41] ∧
    (after .encStep { encSession with ibs := [0x44, 0x41] }).encd = 0 := by decide

/-- 43_encoder R172, example: 0, 1, 0, 0, 1, 1, 0, no byte pushed, `ENCD = 5`. -/
theorem test_encRun_abaca : (after .encRun encSession).pendingBits = [false, true, false, false, true, true, false] ∧
    (after .encRun encSession).obs = [] ∧ (after .encRun encSession).encd = 5 := by decide

/-- 43_encoder R171: with one byte too few, `TRUNC_ENC` records the bytes encoded. -/
theorem test_encRun_truncated : (after .encRun { encSession with ibs := [0x41, 0x42] }).fcode = 7 ∧
    (after .encRun { encSession with ibs := [0x41, 0x42] }).finfo = 2 := by decide

/-- 44_decoder R182, example: step 1 emits 'A'; step 2 moves to node 0. -/
theorem test_decStep : (after .decStep decSession).dbs = [0x41] ∧ (after .decStep (after .decStep decSession)).walk = true ∧
    (after .decStep (after .decStep decSession)).cur = 0 := by decide

/-- 44_decoder R181: `TRUNC_DEC` at the start of a symbol leaves `WALK = 1` at the root. -/
theorem test_decStep_truncated : (after .decStep { decSession with pbs := [] }).fcode = 8 ∧
    (after .decStep { decSession with pbs := [] }).walk = true ∧ (after .decStep { decSession with pbs := [] }).cur = 1 := by decide

/-- 44_decoder R184, example: the second `DEC.SYM` reads two bits and emits 'B'. -/
theorem test_decSym_second : (after .decSym (after .decSym decSession)).dbs = [0x41, 0x42] ∧
    (after .decSym (after .decSym decSession)).rcnt = 5 := by decide

/-- 44_decoder R183, example: "ABACA", seven bits read, `RCNT = 1`, not at the end. -/
theorem test_decRun_abaca : (after .decRun decSession).dbs = [0x41, 0x42, 0x41, 0x43, 0x41] ∧
    (after .decRun decSession).rcnt = 1 ∧ (after .decRun decSession).atEnd = false := by decide

/-- 44_decoder R190: a byte owed and no tree. -/
theorem test_decRun_no_tree : (after .decRun { State.reset with decm := 1 }).fcode = 5 := by decide

/-- 60_exceptions R206, R210: an illegal word faults with itself; halted, it is discarded. -/
theorem test_step_illegal : (afterWord 0x4300000000 State.reset).fcode = 1 ∧
    (afterWord 0x4300000000 State.reset).finfo = 0x4300000000 ∧ (afterWord 0x4300000000 halted).fcode = 6 := by decide

/-- 20_memory R67: packing 1, 0, 0, 0, 0, 0, 1, 0 gives 41; three bits give one byte with the padding above them. -/
theorem test_pack : pack 0xFF [true, false, false, false, false, false, true, false] = [0x41] ∧
    pack 0xFF [true, true, false] = [0xFB] ∧ unpack [0x41] = [true, false, false, false, false, false, true, false] := by decide

/-! ### Witnesses: states and operands that meet the hypotheses of each statement, one conjunct or theorem for each clause -/

theorem abc_treeWF : abc.TreeWF := by unfold State.TreeWF; decide

theorem encSession_treeWF : encSession.TreeWF := by unfold State.TreeWF; decide

/-- The bit 1 0 leads to 'B' in tree ABC (42_code_table R160, example). -/
theorem abc_leafValue : abc.leafValue [true, false] = some 0x42 ∧ abc.leafValue [true] = none := by decide

theorem encSession_table (v : Byte) : encSession.code v = encSession.buildTable.code v :=
  (State.code_buildTable_buildTable abc_treeWF v).symm.trans
    (State.code_buildTable_congr (s := abc.buildTable) (t := encSession) encSession_treeWF rfl rfl rfl rfl v)

/-- A state between two commands of an encoding session, table built, nothing encoded. -/
theorem encSession_inv : encSession.Inv where
  treeWF := encSession_treeWF
  encd_le := by decide
  decd_le := by decide
  rcnt_le := by decide
  walking := by decide
  owing := by decide
  table := fun v _ => encSession_table v
  tableWhole := .inr encSession_table
  fcode_le := by decide
  finfo_zero := by decide
  pc_le := by decide

/-- `after` is the state the command leaves. -/
theorem exec_after (i : Instr) (s : State) : exec i s = .next (after i s) := by
  obtain ⟨t, h⟩ := exec_next i s
  simp only [after, h]

/-- `s` with one word to take. -/
def withWord (w : CmdWord) (s : State) : State := { s with prog := [w] }

theorem witness_EncodeDecodeRoundTrip : decode 0x1100027A02 = .ok (.trPush 0x02 0x7A false true) := by decide

theorem witness_DecoderAgreesWithOpcodeMap : ⟨"RD", 0x0200000000, 0xFFFFFFFF00⟩ ∈ opcodeMap ∧
    OpcodeRow.covers ⟨"RD", 0x0200000000, 0xFFFFFFFF00⟩ 0x02000000FF = true := by decide

theorem witness_StepRunsTheDecodedCommand :
    (withWord 0x4200000000 decSession).prog[(withWord 0x4200000000 decSession).pc]? = some 0x4200000000 ∧
    decode 0x4200000000 = .ok .decRun ∧
    (withWord 0x4300000000 decSession).prog[(withWord 0x4300000000 decSession).pc]? = some 0x4300000000 ∧
    decode 0x4300000000 = .error (.unknownOpcode 0x43) ∧ (withWord 0x4300000000 decSession).fcode = 0 ∧
    (withWord 0x4300000000 halted).fcode ≠ 0 := by decide

theorem witness_PcCountsCommands : (withWord 0x0100000000 halted).pc < (withWord 0x0100000000 halted).prog.length := by decide

theorem witness_EndedRunIdles : decSession.prog.length ≤ decSession.pc := by decide

theorem witness_HaltedCommandsAreDiscarded : halted.fcode ≠ 0 ∧ Instr.decRun ≠ .reset ∧ Instr.rd 0x0A ≠ .reset ∧
    (0x09 : Byte) < 0x0A ∧ (0x09 : Byte) ≤ 0x09 ∧
    (withWord 0x4300000000 halted).prog[(withWord 0x4300000000 halted).pc]? = some 0x4300000000 := by decide

theorem witness_OnlyResetClearsTheFault : (withWord 0x0200000000 halted).fcode ≠ 0 ∧
    (withWord 0x0200000000 halted).prog[(withWord 0x0200000000 halted).pc]? ≠ some 0x0100000000 ∧
    (withWord 0x0100000000 halted).prog[(withWord 0x0100000000 halted).pc]? = some 0x0100000000 := by decide

/-- One step into each of the nine faults, each from a state with no fault recorded. -/
theorem witness_FaultCausesAreTheTable :
    (afterWord 0x020000000A State.reset).fcode = 1 ∧ (afterWord 0x1000000000 { abc with encd := 1 }).fcode = 2 ∧
    (afterWord 0x1100034141 full).fcode = 3 ∧ (afterWord 0x1100010041 State.reset).fcode = 4 ∧
    (afterWord 0x4000000000 { State.reset with decm := 1 }).fcode = 5 ∧
    (afterWord 0x3000000000 { abc with encn := 1, ibs := [0x41] }).fcode = 6 ∧
    (afterWord 0x3100000000 { encSession with ibs := [0x41, 0x42, 0x41, 0x43] }).fcode = 7 ∧
    (afterWord 0x4200000000 { decSession with decm := 8 }).fcode = 8 ∧ (afterWord 0x2000000000 State.reset).fcode = 9 := by decide

theorem witness_RdPushesTheImage : (0x09 : Byte) < 0x0A ∧ (0x09 : Byte) < 0xFF ∧ abc.fcode = 0 ∧ halted.fcode ≠ 0 ∧
    0 < ({ abc with wfill := 7 } : State).wfill.toNat := by decide

theorem witness_ResponsesAreOneWordEach : exec .trClr abc = .next (after .trClr abc) ∧
    exec .brEnd abc = .next (after .brEnd abc) ∧ (after .brEnd abc).fcode = 0 ∧
    exec .brBit abc = .next (after .brBit abc) ∧ (after .brBit abc).fcode ≠ 0 ∧
    exec .brEnd halted = .next (after .brEnd halted) ∧ halted.fcode ≠ 0 :=
  ⟨exec_after _ _, exec_after _ _, by decide, exec_after _ _, by decide, exec_after _ _, by decide⟩

theorem witness_BrBitReadsOneBit : decSession.fcode = 0 ∧ abc.rcnt = 0 ∧ abc.pbs = [] ∧ decSession.rcnt = 0 ∧
    decSession.pbs = 0xB2 :: [] ∧ ({ abc with rcnt := 1 } : State).rcnt ≠ 0 ∧ ({ abc with rcnt := 8 } : State).rcnt ≤ 8 := by decide

theorem witness_BrEndAnswersAtEnd : decSession.fcode = 0 := by decide

theorem witness_BwBitPlacesOneBit : abc.fcode = 0 ∧ abc.wfill ≠ 7 ∧ ({ abc with wfill := 7 } : State).wfill = 7 := by decide

theorem witness_BwFlushPushesThePartialByte : abc.fcode = 0 ∧ abc.wfill = 0 ∧ ({ abc with wfill := 7 } : State).wfill ≠ 0 := by
  decide

theorem witness_ReadCursorFollowsTheStream : decSession.rcnt ≤ 8 ∧ decSession.fcode = 0 ∧
    decSession.unreadBits = false :: [true, false, false, true, true, false, true] ∧ ({ abc with rcnt := 8 } : State).rcnt ≤ 8 := by
  decide

theorem witness_PutAndFlushPack : abc.fcode = 0 ∧ abc.wfill = 0 := by decide

/-- Three bits put and flushed by one session, and a session that reads what it pushed. -/
theorem witness_CursorRoundTrip : ∃ t r : State, abc.fcode = 0 ∧ abc.wfill = 0 ∧
    exec .bwFlush (abc.putBits [true, true, false]) = .next t ∧ t.obs = abc.obs ++ r.pbs ∧ r.rcnt = 0 :=
  ⟨after .bwFlush (abc.putBits [true, true, false]),
   { State.reset with pbs := (after .bwFlush (abc.putBits [true, true, false])).obs }, by decide, by decide, rfl, rfl, rfl⟩

theorem witness_CursorHalvesAreIndependent : (Instr.brBit = .brBit ∨ Instr.brBit = .brEnd) ∧
    ((∃ b, Instr.bwFlush = .bwBit b) ∨ Instr.bwFlush = .bwFlush) := ⟨.inl rfl, .inr rfl⟩

theorem witness_ConfigurationIsFrozen : abc.fcode = 0 ∧ ({ abc with encd := 1 } : State).encd ≠ 0 ∧
    ({ abc with decd := 1 } : State).decd ≠ 0 ∧ ({ abc with walk := true } : State).walk = true := by decide

theorem witness_TrClrForgetsTheTree : abc.fcode = 0 ∧ abc.encd = 0 ∧ abc.decd = 0 ∧ abc.walk = false ∧
    ({ abc with walk := true } : State).walk = true := by decide

theorem witness_TrPushAppendsOneNode : abc.fcode = 0 ∧ abc.encd = 0 ∧ abc.decd = 0 ∧ abc.walk = false ∧
    full.nc = 255 ∧ full.encd = 0 ∧ full.decd = 0 ∧ full.walk = false ∧ full.fcode = 0 ∧
    abc.nc ≠ 255 ∧ abc.nc ≤ 2 ∧ (1 : Byte) < abc.nc ∧ ({ abc with nc := 254 } : State).nc ≠ 255 ∧
    ({ abc with decd := 1 } : State).decd ≠ 0 := by decide

theorem witness_SetnWritesOneHalf : abc.fcode = 0 ∧ abc.encd = 0 ∧ ({ abc with encd := 1 } : State).encd ≠ 0 := by decide

theorem witness_SetmWritesOneHalf : abc.fcode = 0 ∧ abc.decd = 0 ∧ abc.walk = false ∧
    ({ abc with decd := 1 } : State).decd ≠ 0 ∧ ({ abc with walk := true } : State).walk = true := by decide

theorem witness_CountsLoadInEitherOrder : abc.fcode = 0 ∧ abc.encd = 0 ∧ abc.decd = 0 ∧ abc.walk = false := by decide

/-- Tree ABC as the list of its nodes. -/
def abcNodes : List (Byte × Byte × Bool × Bool) := [(0x42, 0x43, true, true), (0x41, 0x00, true, false)]

theorem witness_PushingLoadsTheWholeTree : State.reset.fcode = 0 ∧ State.reset.encd = 0 ∧ State.reset.decd = 0 ∧
    State.reset.walk = false ∧ State.reset.nc = 0 ∧ abcNodes.length ≤ 255 ∧
    ∀ (k : Nat) (l r : Byte) (ll rl : Bool), abcNodes[k]? = some (l, r, ll, rl) →
      (ll = false → l.toNat < k) ∧ (rl = false → r.toNat < k) := by
  refine ⟨by decide, by decide, by decide, by decide, by decide, by decide, fun k l r ll rl h => ?_⟩
  match k, h with
  | 0, h => cases h; decide
  | 1, h => cases h; decide

theorem witness_PseudoCommandsExpand : abc.fcode = 0 ∧ abc.encd = 0 ∧ abc.decd = 0 ∧ abc.walk = false := by decide

theorem witness_CtBuildWritesOnlyTheTable : abc.fcode = 0 ∧ abc.encd = 0 ∧ abc.decd = 0 ∧ abc.walk = false ∧
    State.reset.nc = 0 ∧ ({ abc with encd := 1 } : State).encd ≠ 0 := by decide

theorem witness_CodesAreLeastLeafPaths : abc.TreeWF ∧ abc.fcode = 0 ∧ abc.encd = 0 ∧ abc.decd = 0 ∧ abc.walk = false ∧
    abc.leafValue [true, true] = some 0x43 ∧ abc.leafValue ([true, true] ++ []) = some 0x43 :=
  ⟨abc_treeWF, by decide⟩

theorem witness_CodesAreSoundCompleteAndPrefixFree : abc.TreeWF ∧ abc.fcode = 0 ∧ abc.encd = 0 ∧ abc.decd = 0 ∧ abc.walk = false ∧
    (after .ctBuild abc).leafValue [true, false] = some 0x42 ∧ (after .ctBuild abc).codeLen 0x41 ≠ 0 ∧ (after .ctBuild abc).codeLen 0x42 ≠ 0 := ⟨abc_treeWF, by decide⟩

theorem witness_DegenerateTree : deg.fcode = 0 ∧ deg.nc = 1 ∧ deg.nodeAt 0 = ⟨0x41, 0x41⟩ ∧ deg.lleafAt 0 = true ∧
    deg.rleafAt 0 = true ∧ deg.encd = 0 ∧ deg.decd = 0 ∧ deg.walk = false ∧
    ({ deg with decm := 8, pbs := [0xB2] } : State).rcnt ≤ 8 ∧
    ({ deg with decm := 8, pbs := [0xB2] } : State).decd < 8 ∧
    ({ deg with decm := 8, pbs := [0xB2] } : State).unreadBits = false :: [true, false, false, true, true, false, true] ∧
    (({ deg with decm := 8, pbs := [0xB2] } : State).decm - ({ deg with decm := 8, pbs := [0xB2] } : State).decd).toNat ≤
      ({ deg with decm := 8, pbs := [0xB2] } : State).unreadBits.length := by decide

theorem witness_EncStepEncodesOneByte : abc.fcode = 0 ∧ abc.encn ≤ abc.encd ∧ encSession.encd < encSession.encn ∧
    encSession.ibs = 0x41 :: [0x42, 0x41, 0x43, 0x41] ∧ encSession.codeLen 0x41 ≠ 0 ∧ encSession.codeLen 0x44 = 0 ∧
    ({ encSession with ibs := [] } : State).ibs = [] := by decide

theorem witness_EncRunEncodesToTheCount : encSession.fcode = 0 ∧ encSession.encd ≤ encSession.encn ∧
    5 = (encSession.encn - encSession.encd).toNat ∧ 5 ≤ encSession.ibs.length ∧
    ∀ v ∈ encSession.ibs.take 5, encSession.codeLen v ≠ 0 := by decide

theorem witness_EncRunFaultsAtTheFirstBadByte : encSession.encd ≤ encSession.encn ∧
    [(0x41 : Byte), 0x42].length < (encSession.encn - encSession.encd).toNat ∧
    (∀ v ∈ [(0x41 : Byte), 0x42], encSession.codeLen v ≠ 0) ∧
    ({ encSession with ibs := [0x41, 0x42, 0x44] } : State).ibs = [0x41, 0x42] ++ 0x44 :: [] ∧ encSession.codeLen 0x44 = 0 ∧
    ({ encSession with ibs := [0x41, 0x42] } : State).ibs = [0x41, 0x42] := by decide

/-- A session with the whole table and five bytes to encode. -/
theorem witness_LookupMeansNoLeafOrNoTable : encSession.Inv ∧ encSession.fcode = 0 ∧
    exec .encRun encSession = .next (after .encRun encSession) :=
  ⟨encSession_inv, by decide, exec_after _ _⟩

theorem witness_DecStepMovesOneEdge : decSession.fcode = 0 ∧ decSession.rcnt ≤ 8 ∧ abc.decm ≤ abc.decd ∧
    decSession.decd < decSession.decm ∧ decSession.nc ≠ 0 ∧ ({ decSession with nc := 0 } : State).nc = 0 ∧
    ({ decSession with pbs := [] } : State).unreadBits = [] ∧
    decSession.unreadBits = false :: [true, false, false, true, true, false, true] ∧
    decSession.childIsLeaf decSession.walkNode false = true ∧ decSession.childIsLeaf decSession.walkNode true = false := by decide

theorem witness_DecSymDecodesOneByte : decSession.fcode = 0 ∧ decSession.rcnt ≤ 8 ∧ abc.decm ≤ abc.decd ∧
    decSession.decd < decSession.decm ∧ decSession.nc ≠ 0 ∧ decSession.leafFrom decSession.walkNode [false] = some 0x41 ∧
    decSession.unreadBits = [false] ++ [true, false, false, true, true, false, true] ∧
    decSession.leafFrom decSession.walkNode [true, false] = some 0x42 ∧
    ({ decSession with rbuf := 0x80, rcnt := 1, pbs := [] } : State).unreadBits <+: [true, false] ∧
    ({ decSession with rbuf := 0x80, rcnt := 1, pbs := [] } : State).unreadBits ≠ [true, false] := by decide

theorem witness_NoWalkGoesWrong : abc.TreeWF ∧ (1 : Byte) < abc.nc ∧ (1 : Byte).toNat < [true, true].length ∧
    ({ decSession with walk := true, cur := 1 } : State).cur < decSession.nc ∧ decSession.decd < decSession.decm ∧
    decSession.nc ≠ 0 ∧ decSession.nc.toNat ≤ decSession.unreadBits.length := ⟨abc_treeWF, by decide⟩

theorem witness_DecRunDecodesThePaths : ∃ rest, decSession.fcode = 0 ∧ decSession.rcnt ≤ 8 ∧ decSession.walk = false ∧
    decSession.decd ≤ decSession.decm ∧
    [(0x41 : Byte), 0x42, 0x41, 0x43, 0x41].length = (decSession.decm - decSession.decd).toNat ∧
    List.Forall₂ (fun p v => decSession.leafValue p = some v) [[false], [true, false], [false], [true, true], [false]]
      [0x41, 0x42, 0x41, 0x43, 0x41] ∧
    decSession.unreadBits = [[false], [true, false], [false], [true, true], [false]].flatten ++ rest := by
  refine ⟨[true], by decide, by decide, by decide, by decide, by decide, ?_, by decide⟩
  repeat' (first | exact .nil | refine .cons (by decide) ?_)

theorem witness_DecRunCompletes : decSession.TreeWF ∧ decSession.fcode = 0 ∧ decSession.rcnt ≤ 8 ∧ decSession.nc ≠ 0 ∧
    ({ decSession with decm := 4 } : State).decd ≤ 4 ∧ decSession.walk = false ∧
    decSession.nc.toNat * (({ decSession with decm := 4 } : State).decm - decSession.decd).toNat ≤ decSession.unreadBits.length :=
  ⟨abc_treeWF, by decide⟩

theorem witness_TruncationIsDetected :
    List.Forall₂ (fun p v => ({ decSession with decm := 1, rbuf := 0x80, rcnt := 1, pbs := [] } : State).leafValue p = some v)
      [[true, false]] [0x42] ∧
    ({ decSession with decm := 1, rbuf := 0x80, rcnt := 1, pbs := [] } : State).unreadBits <+: [[true, false]].flatten ∧
    ({ decSession with decm := 1, rbuf := 0x80, rcnt := 1, pbs := [] } : State).unreadBits.length <
      [[true, false]].flatten.length ∧
    [(0x42 : Byte)].length = ((1 : Word64) - decSession.decd).toNat ∧ decSession.decd ≤ 1 ∧ decSession.walk = false :=
  ⟨.cons (by decide) .nil, by decide⟩

theorem witness_NoTreeOnlyWhenAByteIsOwed : State.reset.fcode = 0 ∧ State.reset.nc = 0 ∧
    ({ State.reset with decm := 1 } : State).decd < ({ State.reset with decm := 1 } : State).decm ∧
    State.reset.decm ≤ State.reset.decd ∧
    exec .decSym { State.reset with decm := 1 } = .next (after .decSym { State.reset with decm := 1 }) ∧
    (after .decSym { State.reset with decm := 1 }).fcode = 5 :=
  ⟨by decide, by decide, by decide, by decide, exec_after _ _, by decide⟩

theorem witness_EnginesShareOnlyTheTree : (Instr.encRun = .encStep ∨ Instr.encRun = .encRun) ∧
    (Instr.decSym = .decStep ∨ Instr.decSym = .decSym ∨ Instr.decSym = .decRun) := ⟨.inr rfl, .inr (.inl rfl)⟩

theorem witness_SatisfiedCountsReadNothing : decSession.fcode = 0 ∧ decSession.encn ≤ decSession.encd ∧
    encSession.decm ≤ encSession.decd := by decide

/-- An encoding session with one 'A' to compress, and the states after `CT.BUILD`, `ENC.RUN` and `BW.FLUSH`. -/
def zip : State := { abc with encn := 1, ibs := [0x41] }
def zipBuilt : State := after .ctBuild zip
def zipRun : State := after .encRun zipBuilt
def zipFlushed : State := after .bwFlush zipRun

/-- A decoding session on what `zip` pushed. -/
def unzip : State := { abc with decm := 1, pbs := zipFlushed.obs }

theorem witness_CompressThenDecompress : zip.TreeWF ∧ zip.fcode = 0 ∧ zip.encd = 0 ∧ zip.decd = 0 ∧ zip.walk = false ∧
    zip.wfill = 0 ∧ 1 = zip.encn.toNat ∧ 1 ≤ zip.ibs.length ∧ exec .ctBuild zip = .next zipBuilt ∧
    (∀ v ∈ zip.ibs.take 1, zipBuilt.codeLen v ≠ 0) ∧ exec .encRun zipBuilt = .next zipRun ∧
    exec .bwFlush zipRun = .next zipFlushed ∧ unzip.fcode = 0 ∧ unzip.nc = zip.nc ∧ unzip.node = zip.node ∧
    unzip.lleaf = zip.lleaf ∧ unzip.rleaf = zip.rleaf ∧ unzip.decm = zip.encn ∧ unzip.decd = 0 ∧ unzip.walk = false ∧
    unzip.rcnt = 0 ∧ zipFlushed.obs = zip.obs ++ unzip.pbs := by
  refine ⟨abc_treeWF, by decide, by decide, by decide, by decide, by decide, by decide, by decide, exec_after .ctBuild zip,
    by decide, exec_after .encRun zipBuilt, exec_after .bwFlush zipRun, by decide, by simp only [unzip, zip],
    by simp only [unzip, zip], by simp only [unzip, zip], by simp only [unzip, zip], by simp only [unzip, zip], by decide,
    by decide, by decide, ?_⟩
  have h : zip.obs = [] := by decide
  simp only [h, unzip, List.nil_append]

/-- The invariants do not depend on the words still to take. -/
theorem inv_withWord {s : State} (h : s.Inv) (hp : s.pc = 0) (w : CmdWord) : (withWord w s).Inv :=
  ⟨h.treeWF, h.encd_le, h.decd_le, h.rcnt_le, h.walking, h.owing,
   fun v hv => (h.table v hv).trans (State.code_buildTable_congr (t := withWord w s) h.treeWF rfl rfl rfl rfl v),
   h.tableWhole.imp_right fun k v => (k v).trans (State.code_buildTable_congr (t := withWord w s) h.treeWF rfl rfl rfl rfl v),
   h.fcode_le, h.finfo_zero, by simp [withWord, hp]⟩

/-- A state in the middle of a session with a command to take. -/
theorem witness_StepKeepsTheInvariants : (withWord 0x3100000000 encSession).Inv ∧
    ∃ t, step (withWord 0x3100000000 encSession) = .next t :=
  ⟨inv_withWord encSession_inv (by decide) _, step_next _⟩

theorem witness_StepKeepsTheTreeWellFormed : (withWord 0x1100010041 abc).TreeWF ∧
    ∃ t, step (withWord 0x1100010041 abc) = .next t :=
  ⟨abc_treeWF, step_next _⟩

theorem witness_StreamsMoveOneWay : ∃ t, step (withWord 0x4200000000 decSession) = .next t := step_next _

/-- Two states that differ in a node at an index not below `NC` and in a bit of `WACC` that is not placed. -/
theorem witness_ValuelessStorageIsUnobservable : encSession.Inv ∧
    encSession.Agrees { encSession with wacc := 0x80, node := encSession.node.set 7 ⟨1, 2⟩ } := by
  refine ⟨encSession_inv, rfl, fun i hi => ?_, fun _ _ => rfl, fun _ _ => rfl, fun _ => rfl, rfl⟩
  have h : i.toNat < 2 := hi
  simp only [State.nodeAt]
  rw [Vector.getElem_set_ne]
  omega

theorem witness_FrameOfSystemCommands : exec (.rd 0x01) halted = .next (after (.rd 0x01) halted) ∧
    exec .reset halted = .next (after .reset halted) := ⟨exec_after _ _, exec_after _ _⟩

theorem witness_FrameOfCursorCommands : exec .brBit decSession = .next (after .brBit decSession) ∧
    exec .brEnd decSession = .next (after .brEnd decSession) ∧
    exec (.bwBit true) abc = .next (after (.bwBit true) abc) ∧ ∃ t, exec .bwFlush abc = .next t :=
  ⟨exec_after _ _, exec_after _ _, exec_after _ _, exec_next _ _⟩

theorem witness_FrameOfConfigurationCommands : exec .trClr abc = .next (after .trClr abc) ∧
    (∃ t, exec (.trPush 0x41 0x00 true false) abc = .next t) ∧ (∃ t, exec .ctBuild abc = .next t) ∧
    (∃ t, exec (.setnLo 1) abc = .next t) ∧ ∃ t, exec (.setmHi 1) abc = .next t :=
  ⟨exec_after _ _, exec_next _ _, exec_next _ _, exec_next _ _, exec_next _ _⟩

theorem witness_FrameOfTheEngines : (∃ t, exec .encRun encSession = .next t) ∧ ∃ t, exec .decRun decSession = .next t :=
  ⟨exec_next _ _, exec_next _ _⟩

end Sys2Proof.Tests
end

section
/-! The program and its counter (10_state R34): no command reads `pc` or `PROG`, and the frame adds one to `pc` whatever the
command does. One law says it of each operation: the operation commutes with putting another `pc` and another `PROG` into
the state. That it leaves `pc` and `PROG` as they were is the case of the `pc` and `PROG` that were there. -/

namespace Sys2Proof.Machine

/-- `s` with another program and another count of words taken. -/
def State.withProgram (n : Nat) (prog : List CmdWord) (s : State) : State := { s with pc := n, prog := prog }

section
/-! What `withProgram` writes, and that the parts of the state an operation reads are not among it. -/

variable (n : Nat) (prog : List CmdWord) (s : State)

@[simp] theorem State.withProgram_nc : (s.withProgram n prog).nc = s.nc := rfl
@[simp] theorem State.withProgram_encn : (s.withProgram n prog).encn = s.encn := rfl
@[simp] theorem State.withProgram_encd : (s.withProgram n prog).encd = s.encd := rfl
@[simp] theorem State.withProgram_decm : (s.withProgram n prog).decm = s.decm := rfl
@[simp] theorem State.withProgram_decd : (s.withProgram n prog).decd = s.decd := rfl
@[simp] theorem State.withProgram_rcnt : (s.withProgram n prog).rcnt = s.rcnt := rfl
@[simp] theorem State.withProgram_wfill : (s.withProgram n prog).wfill = s.wfill := rfl
@[simp] theorem State.withProgram_cur : (s.withProgram n prog).cur = s.cur := rfl
@[simp] theorem State.withProgram_walk : (s.withProgram n prog).walk = s.walk := rfl
@[simp] theorem State.withProgram_pc : (s.withProgram n prog).pc = n := rfl
@[simp] theorem State.withProgram_prog : (s.withProgram n prog).prog = prog := rfl
@[simp] theorem State.withProgram_pbs : (s.withProgram n prog).pbs = s.pbs := rfl
@[simp] theorem State.withProgram_bitsLeft : (s.withProgram n prog).bitsLeft = s.bitsLeft := rfl
@[simp] theorem State.withProgram_codeLen (v : Byte) : (s.withProgram n prog).codeLen v = s.codeLen v := rfl
@[simp] theorem State.withProgram_code (v : Byte) : (s.withProgram n prog).code v = s.code v := rfl
@[simp] theorem State.withProgram_childInvalid (l r : Byte) (ll rl : Bool) :
    (s.withProgram n prog).childInvalid l r ll rl = s.childInvalid l r ll rl := rfl
@[simp] theorem State.withProgram_childIsLeaf (i : Byte) (b : Bool) :
    (s.withProgram n prog).childIsLeaf i b = s.childIsLeaf i b := rfl
@[simp] theorem State.withProgram_leafPaths (depth : Nat) (i : Byte) :
    (s.withProgram n prog).leafPaths depth i = s.leafPaths depth i :=
  State.leafPaths_congr (s := s.withProgram n prog) (t := s) rfl rfl rfl depth i

end

/-- The state a pseudocode ends in, with another program and count. -/
def Flow.withProgram (n : Nat) (prog : List CmdWord) : Flow → Flow
  | .done s => .done (s.withProgram n prog)
  | .raised s => .raised (s.withProgram n prog)

/-- A pseudocode neither reads nor writes `pc` and `PROG`. -/
def IgnoresProgram (body : State → Flow) : Prop :=
  ∀ (n : Nat) (prog : List CmdWord) (s : State), body (s.withProgram n prog) = (body s).withProgram n prog

/-- A framed command counts itself and neither reads nor writes anything else of `pc` and `PROG`. -/
def CountsOneWord (run : State → Host.Outcome State Fault Refusal) : Prop :=
  ∀ s : State, ∃ t, run s = .next t ∧ ∀ n prog, run (s.withProgram n prog) = .next (t.withProgram (n + 1) prog)

/-- What a counting command does to `pc` and `PROG`: the law read at the `pc` and `PROG` of the state itself. -/
theorem CountsOneWord.next {run : State → Host.Outcome State Fault Refusal} (h : CountsOneWord run) (s : State) :
    ∃ t, run s = .next t ∧ t.pc = s.pc + 1 ∧ t.prog = s.prog ∧
      ∀ n, run { s with pc := n } = .next { t with pc := n + 1 } := by
  obtain ⟨t, ht, hall⟩ := h s
  have hself : t = t.withProgram (s.pc + 1) s.prog := Host.Outcome.next.inj (ht.symm.trans (hall s.pc s.prog))
  have hprog : t.prog = s.prog := (congrArg State.prog hself).trans (t.withProgram_prog _ _)
  refine ⟨t, ht, (congrArg State.pc hself).trans (t.withProgram_pc _ _), hprog, fun n => (hall n s.prog).trans ?_⟩
  rw [State.withProgram, ← hprog]

/-! ### The frame -/

theorem Flow.state_withProgram (n : Nat) (prog : List CmdWord) (f : Flow) :
    (f.withProgram n prog).state = f.state.withProgram n prog := by cases f <;> rfl

theorem commandAlways_counts {body : State → Flow} (h : IgnoresProgram body) : CountsOneWord (commandAlways body) := by
  refine fun s => ⟨(body s).state.advance, rfl, fun n prog => ?_⟩
  rw [commandAlways, h, Flow.state_withProgram]
  rfl

/-- Run or discarded, a command advances `pc` by one (R206, R210). -/
theorem command_counts {body : State → Flow} (h : IgnoresProgram body) : CountsOneWord (command body) := by
  intro s
  by_cases hf : s.fcode = 0
  · obtain ⟨t, ht, hall⟩ := commandAlways_counts h s
    exact ⟨t, (command_running hf body).trans ht,
      fun n prog => (command_running (s := s.withProgram n prog) hf body).trans (hall n prog)⟩
  · exact ⟨s.passed, command_halted hf body, fun n prog => command_halted (s := s.withProgram n prog) hf body⟩

theorem raise_ignores (c : Cause) (info : Word64) : IgnoresProgram (raise c info) := fun _ _ _ => rfl

theorem raiseWord_ignores (c : Cause) (i : Instr) : IgnoresProgram (raiseWord c i) := fun _ _ _ => rfl

/-- A word that is no command counts as well (R97, R206). -/
theorem illegalWord_counts (w : CmdWord) : CountsOneWord (illegalWord w) := command_counts (raise_ignores _ _)

/-! ### Configuration -/

/-- The shape of the three guards of R141: `SEQ` once the engine concerned has started, which does not depend on the program. -/
theorem guard_ignores (i : Instr) {started : State → Bool} {body : State → Flow}
    (hs : ∀ n prog s, started (State.withProgram n prog s) = started s) (h : IgnoresProgram body) :
    IgnoresProgram fun s => if started s then raiseWord .seq i s else body s := by
  intro n prog s
  dsimp only
  rw [hs, h, raiseWord_ignores]
  exact (apply_ite (Flow.withProgram n prog) _ _ _).symm

theorem guardTree_ignores (i : Instr) {body : State → Flow} (h : IgnoresProgram body) : IgnoresProgram (guardTree i body) :=
  guard_ignores i (started := fun s => s.encStarted || s.decStarted) (fun _ _ _ => rfl) h

theorem guardEnc_ignores (i : Instr) {body : State → Flow} (h : IgnoresProgram body) : IgnoresProgram (guardEnc i body) :=
  guard_ignores i (started := State.encStarted) (fun _ _ _ => rfl) h

theorem guardDec_ignores (i : Instr) {body : State → Flow} (h : IgnoresProgram body) : IgnoresProgram (guardDec i body) :=
  guard_ignores i (started := State.decStarted) (fun _ _ _ => rfl) h

theorem trPushBody_ignores (l r : Byte) (ll rl : Bool) : IgnoresProgram (trPushBody l r ll rl) := by
  intro n prog s
  unfold trPushBody
  rw [State.withProgram_childInvalid, State.withProgram_nc]
  split
  · rfl
  · split <;> rfl

theorem recordCode_withProgram (n : Nat) (prog : List CmdWord) (v : Byte) (p : List Bool) (s : State) :
    recordCode v p (s.withProgram n prog) = (recordCode v p s).withProgram n prog := by
  rw [recordCode, recordCode, State.withProgram_codeLen]
  split <;> rfl

theorem recordAll_withProgram (n : Nat) (prog : List CmdWord) (path : List Bool) (xs : List (List Bool × Byte)) (s : State) :
    recordAll path xs (s.withProgram n prog) = (recordAll path xs s).withProgram n prog := by
  induction xs generalizing s with
  | nil => rfl
  | cons x rest ih =>
    change recordAll path rest (recordCode x.2 (path ++ x.1) (s.withProgram n prog)) = _
    rw [recordCode_withProgram, ih]
    rfl

theorem State.buildTable_withProgram (n : Nat) (prog : List CmdWord) (s : State) :
    (s.withProgram n prog).buildTable = s.buildTable.withProgram n prog := by
  have hclear : (s.withProgram n prog).clearCodes = s.clearCodes.withProgram n prog := rfl
  rw [State.buildTable_eq, State.buildTable_eq, State.withProgram_leafPaths, hclear, recordAll_withProgram]
  exact (apply_ite (State.withProgram n prog) (s.nc = 0) _ _).symm

/-! ### The bit cursor -/

/-- `next_bit` with another program and count in the state it leaves. -/
theorem State.nextBit_withProgram (n : Nat) (prog : List CmdWord) (s : State) :
    (s.withProgram n prog).nextBit = s.nextBit.map fun x => (x.1, x.2.withProgram n prog) := by
  unfold State.nextBit
  rw [State.withProgram_rcnt, State.withProgram_pbs]
  split
  · cases s.pbs <;> rfl
  · rfl

theorem State.putBit_withProgram (n : Nat) (prog : List CmdWord) (s : State) (b : Bool) :
    (s.withProgram n prog).putBit b = (s.putBit b).withProgram n prog := by
  rw [State.putBit, State.putBit, State.withProgram_wfill]
  split <;> rfl

theorem State.putBits_withProgram (n : Nat) (prog : List CmdWord) (bits : List Bool) (s : State) :
    (s.withProgram n prog).putBits bits = (s.putBits bits).withProgram n prog := by
  induction bits generalizing s with
  | nil => rfl
  | cons b rest ih => rw [State.putBits, State.putBit_withProgram, ih, State.putBits]

theorem State.flush_withProgram (n : Nat) (prog : List CmdWord) (s : State) :
    (s.withProgram n prog).flush = s.flush.withProgram n prog := by
  rw [State.flush, State.flush, State.withProgram_wfill]
  split <;> rfl

theorem brBitBody_ignores : IgnoresProgram brBitBody := by
  intro n prog s
  unfold brBitBody
  rw [State.nextBit_withProgram]
  cases s.nextBit <;> rfl

/-! ### The encoder -/

theorem encStep_ignores : IgnoresProgram encStep := by
  intro n prog s
  have hpop : (s.withProgram n prog).popIbs = s.popIbs.map fun x => (x.1, x.2.withProgram n prog) := by
    unfold State.popIbs State.withProgram
    cases s.ibs <;> rfl
  unfold encStep
  rw [hpop, State.withProgram_encd, State.withProgram_encn]
  split
  · rfl
  · cases s.popIbs with
    | none => rfl
    | some x =>
      obtain ⟨v, t⟩ := x
      simp only [Option.map_some, State.withProgram_code, State.withProgram_codeLen, State.putBits_withProgram]
      split <;> rfl

theorem encLoop_ignores (fuel : Nat) : IgnoresProgram (encLoop fuel) := by
  intro n prog s
  induction fuel generalizing s with
  | zero => rfl
  | succ fuel ih =>
    rw [encLoop, encLoop, encStep_ignores, State.withProgram_encd, State.withProgram_encn]
    split
    · cases encStep s with
      | raised t => rfl
      | done t => exact ih t
    · rfl

theorem encRunBody_ignores : IgnoresProgram encRunBody := fun n prog s => encLoop_ignores (s.ibs.length + 1) n prog s

/-! ### The decoder -/

theorem State.followBit_withProgram (n : Nat) (prog : List CmdWord) (s : State) (b : Bool) :
    (s.withProgram n prog).followBit b = (s.followBit b).withProgram n prog := by
  rw [State.followBit, State.followBit, State.withProgram_cur, State.withProgram_childIsLeaf]
  split <;> rfl

theorem State.startSymbol_withProgram (n : Nat) (prog : List CmdWord) (s : State) :
    (s.withProgram n prog).startSymbol = s.startSymbol.withProgram n prog := by
  rw [State.startSymbol, State.startSymbol, State.withProgram_walk]
  split <;> rfl

theorem decStep_ignores : IgnoresProgram decStep := by
  intro n prog s
  unfold decStep
  rw [State.startSymbol_withProgram, State.nextBit_withProgram, State.withProgram_decd, State.withProgram_decm,
    State.withProgram_nc]
  split
  · rfl
  · split
    · rfl
    · cases s.startSymbol.nextBit with
      | none => rfl
      | some x => exact congrArg Flow.done (State.followBit_withProgram n prog x.2 x.1)

theorem decLoop_ignores (fuel : Nat) : IgnoresProgram (decLoop fuel) := by
  intro n prog s
  induction fuel generalizing s with
  | zero => rfl
  | succ fuel ih =>
    rw [decLoop, decLoop, decStep_ignores, State.withProgram_decd, State.withProgram_decm]
    split
    · cases decStep s with
      | raised t => rfl
      | done t => exact ih t
    · rfl

theorem symLoop_ignores (fuel : Nat) : IgnoresProgram (symLoop fuel) := by
  intro n prog s
  induction fuel generalizing s with
  | zero => rfl
  | succ fuel ih =>
    rw [symLoop, symLoop, decStep_ignores]
    cases decStep s with
    | raised t => rfl
    | done t =>
      simp only [Flow.withProgram, State.withProgram_walk, ih]
      split <;> rfl

theorem decRunBody_ignores : IgnoresProgram decRunBody := fun n prog s => decLoop_ignores (s.bitsLeft + 1) n prog s

theorem decSymBody_ignores : IgnoresProgram decSymBody := by
  intro n prog s
  rw [decSymBody, decSymBody, State.withProgram_bitsLeft, symLoop_ignores]
  exact (apply_ite (Flow.withProgram n prog) (s.decd ≥ s.decm) (.done s) _).symm

/-! ### Every command and every word -/

theorem State.readCsr_withProgram (n : Nat) (prog : List CmdWord) (s : State) (c : Csr) :
    (s.withProgram n prog).readCsr c = (s.readCsr c).withProgram n prog := by
  cases c <;> rfl

theorem execRd_counts (csr : Byte) : CountsOneWord (execRd csr) := by
  unfold execRd
  cases csrOfNumber csr with
  | none => exact command_counts (raiseWord_ignores _ _)
  | some c => exact commandAlways_counts fun n prog s => congrArg Flow.done (s.readCsr_withProgram n prog c)

/-- Every command, whatever it does, counts itself and does not read `pc` (R34). -/
theorem exec_counts (i : Instr) : CountsOneWord (exec i) := by
  cases i with
  | reset => exact commandAlways_counts fun _ _ _ => rfl
  | rd csr => exact execRd_counts csr
  | trClr => exact command_counts (guardTree_ignores _ fun _ _ _ => rfl)
  | trPush l r ll rl => exact command_counts (guardTree_ignores _ (trPushBody_ignores l r ll rl))
  | ctBuild =>
    exact command_counts (guardTree_ignores _ fun n prog s => congrArg Flow.done (s.buildTable_withProgram n prog))
  | setnLo imm => exact command_counts (guardEnc_ignores _ fun _ _ _ => rfl)
  | setnHi imm => exact command_counts (guardEnc_ignores _ fun _ _ _ => rfl)
  | setmLo imm => exact command_counts (guardDec_ignores _ fun _ _ _ => rfl)
  | setmHi imm => exact command_counts (guardDec_ignores _ fun _ _ _ => rfl)
  | brBit => exact command_counts brBitBody_ignores
  | brEnd => exact command_counts fun _ _ _ => rfl
  | bwBit b => exact command_counts fun n prog s => congrArg Flow.done (s.putBit_withProgram n prog b)
  | bwFlush => exact command_counts fun n prog s => congrArg Flow.done (s.flush_withProgram n prog)
  | encStep => exact command_counts encStep_ignores
  | encRun => exact command_counts encRunBody_ignores
  | decStep => exact command_counts decStep_ignores
  | decSym => exact command_counts decSymBody_ignores
  | decRun => exact command_counts decRunBody_ignores

/-- A step with a word left takes exactly that word, be it a command or not (R34, R206). -/
theorem step_counts {s : State} (h : s.pc < s.prog.length) :
    ∃ t, step s = .next t ∧ t.pc = s.pc + 1 ∧ t.prog = s.prog := by
  have hfetch : s.fetch = some s.prog[s.pc] := List.getElem?_eq_getElem h
  unfold step stepWith
  rw [hfetch]
  dsimp only
  cases decode s.prog[s.pc] with
  | ok i =>
    obtain ⟨t, ht, hpc, hprog, -⟩ := (exec_counts i).next s
    exact ⟨t, ht, hpc, hprog⟩
  | error e =>
    obtain ⟨t, ht, hpc, hprog, -⟩ := (illegalWord_counts s.prog[s.pc]).next s
    exact ⟨t, ht, hpc, hprog⟩

/-- No word is left exactly when `pc` has reached the length of `PROG` (R34, R243). -/
theorem State.fetch_eq_none_iff (s : State) : s.fetch = none ↔ s.prog.length ≤ s.pc := List.getElem?_eq_none_iff

/-- Settles O7: every command commutes with a change of `pc` and adds one to it (`exec_counts`); a step
with a word left adds one too (`step_counts`). -/
theorem pcCountsCommands : Obligations.PcCountsCommands := by
  refine ⟨fun _ _ _ => rfl, fun _ => step_counts, fun s => ⟨rfl, s.fetch_eq_none_iff⟩, fun i s n => ?_⟩
  obtain ⟨t, ht, hpc, -, hmoved⟩ := (exec_counts i).next s
  exact ⟨t, ht, hpc, hmoved n⟩

end Sys2Proof.Machine
end

section
/-! Launch and `RESET` (10_state R35, R38): both reach the reset state. -/

namespace Sys2Proof.Machine

/-- At launch there is nothing a reset would change: the state is the one `RESET` leaves. -/
theorem State.toReset_launch (prog : List CmdWord) (ibs0 pbs0 : List Byte) :
    (State.launch prog ibs0 pbs0).toReset = State.launch prog ibs0 pbs0 := rfl

theorem State.isReset_launch (prog : List CmdWord) (ibs0 pbs0 : List Byte) : (State.launch prog ibs0 pbs0).IsReset := by
  rw [← State.toReset_launch]
  exact State.isReset_toReset _

/-- `RESET`, halted or not: the frame's count and then the reset state (R196, R206). -/
theorem exec_reset (s : State) : exec .reset s = .next s.advance.toReset := rfl

/-- Settles O12: the launch state is its own reset, and `RESET` keeps the `pc` it counts. -/
theorem launchAndResetReachTheResetState : Obligations.LaunchAndResetReachTheResetState :=
  ⟨fun prog ibs0 pbs0 => ⟨State.isReset_launch prog ibs0 pbs0, rfl, rfl, rfl, rfl, rfl, rfl, rfl⟩,
   fun s => ⟨s.advance.toReset, exec_reset s, State.isReset_toReset _, rfl⟩⟩

end Sys2Proof.Machine
end

section
/-! The write cursor and `Pack` (20_memory R67, R78): `pack` undoes `unpack` on whole bytes, and on fewer than eight bits it is the
byte a flush pushes. So what a write cursor put (`State.Wrote`) tells what is on `OBS` after one more flush. -/

namespace Sys2Proof.Machine

/-! ### The bytes of `Pack` -/

/-- From bit `k` up `packByte` holds the given bits as far as they go; every other bit is the padding's. -/
theorem getLsbD_packByte (bits : List Bool) (pad : Byte) (k : Nat) (hk : k + bits.length ≤ 8) (j : Nat) :
    (packByte pad k bits).getLsbD j = if j < k then pad.getLsbD j else bits.getD (j - k) (pad.getLsbD j) := by
  induction bits generalizing pad k with
  | nil => simp [packByte]
  | cons b rest ih =>
    rw [List.length_cons] at hk
    rw [packByte, ih _ _ (by omega), getLsbD_setBit _ _ _ (by omega)]
    obtain hlt | rfl | hgt := Nat.lt_trichotomy j k
    · rw [if_pos (by omega), if_neg (by omega), if_pos hlt]
    · simp
    · rw [if_neg (by omega), if_neg (by omega), if_neg (by omega), show j - k = j - (k + 1) + 1 by omega, List.getD_cons_succ]

/-- Packing the low `n` bits of a byte joins them with the padding above. -/
theorem packByte_low_bits (n : Nat) (hn : n ≤ 8) (pad v : Byte) :
    packByte pad 0 ((List.range n).map v.getLsbD) = joinAt n pad v := by
  refine BitVec.eq_of_getLsbD_eq fun j _ => ?_
  rw [getLsbD_packByte _ _ _ (by simpa using hn), getLsbD_joinAt _ _ _ _ hn]
  by_cases hj : j < n <;> simp [List.getD, hj]

/-- With all eight bits of a byte there, packing them gives that byte and no padding. -/
theorem packByte_all_bits (pad v : Byte) : packByte pad 0 ((List.range 8).map v.getLsbD) = v := by
  rw [packByte_low_bits 8 le_rfl]
  exact BitVec.eq_of_getLsbD_eq fun j hj => by rw [getLsbD_joinAt _ _ _ _ le_rfl, if_pos hj]

/-- Fewer than eight bits, but some, make one byte. -/
theorem pack_short (pad : Byte) (bits : List Bool) (h0 : bits ≠ []) (h8 : bits.length < 8) :
    pack pad bits = [packByte pad 0 bits] := by
  fun_cases pack with
  | case1 => exact absurd rfl h0
  | case2 => simp at h8; omega
  | case3 => rfl

/-- `Pack` gives `ceil(T / 8)` bytes (R67). -/
@[simp] theorem length_pack (pad : Byte) : ∀ bits : List Bool, (pack pad bits).length = (bits.length + 7) / 8
  | [] => rfl
  | [_] | [_, _] | [_, _, _] | [_, _, _, _] | [_, _, _, _, _] | [_, _, _, _, _, _] | [_, _, _, _, _, _, _] => by simp [pack_short]
  | _ :: _ :: _ :: _ :: _ :: _ :: _ :: _ :: rest => by
    simp only [pack, List.length_cons, length_pack pad rest]
    omega

/-- The bits of a whole byte come first and need no padding. -/
theorem pack_byte_append (pad v : Byte) (rest : List Bool) :
    pack pad ((List.range 8).map v.getLsbD ++ rest) = v :: pack pad rest := by
  change packByte pad 0 ((List.range 8).map v.getLsbD) :: pack pad rest = _
  rw [packByte_all_bits]

/-- `Pack` undoes `Unpack` on whole bytes, whatever bits follow (R67). -/
theorem pack_unpack_append (pad : Byte) (bytes : List Byte) (rest : List Bool) :
    pack pad (unpack bytes ++ rest) = bytes ++ pack pad rest := by
  induction bytes with
  | nil => rfl
  | cons v bytes ih => rw [unpack_cons, List.append_assoc, pack_byte_append, ih, List.cons_append]

/-! ### The write cursor -/

@[simp] theorem State.pendingBits_eq_nil_iff (s : State) : s.pendingBits = [] ↔ s.wfill = 0 := by
  rw [← List.length_eq_zero_iff, State.length_pendingBits, BitVec.toNat_eq]; rfl

@[simp] theorem State.flush_wfill (s : State) : s.flush.wfill = 0 := by
  obtain ⟨h, hs⟩ | ⟨-, v, hs, -⟩ := s.flush_cases
  · rw [hs, h]
  · rw [hs]

/-- A flush pushes `Pack` of the pending bits, completed by the padding draw (R124). -/
theorem State.flush_obs (s : State) : s.flush.obs = s.obs ++ pack (Config.padDraw s.draws) s.pendingBits := by
  by_cases h : s.wfill = 0
  · rw [State.flush, if_pos h, s.pendingBits_eq_nil_iff.mpr h, pack, List.append_nil]
  · have hlt : s.wfill.toNat < 8 := s.wfill.isLt
    rw [pack_short _ _ (mt s.pendingBits_eq_nil_iff.mp h) (by rwa [State.length_pendingBits]), State.pendingBits,
      packByte_low_bits _ hlt.le, State.flush, if_neg h]
    rfl

section
/-! What a write cursor that started empty has put. -/

variable {s t : State} {bits : List Bool} (h0 : s.wfill = 0) (h : s.Wrote t bits)
include h0 h

/-- The whole bytes put are pushed and the rest is pending. -/
theorem State.Wrote.of_empty : ∃ pushed : List Byte, t.obs = s.obs ++ pushed ∧ unpack pushed ++ t.pendingBits = bits := by
  obtain ⟨pushed, hobs, hbits⟩ := h
  exact ⟨pushed, hobs, by rwa [s.pendingBits_eq_nil_iff.mpr h0] at hbits⟩

/-- `floor(T / 8)` bytes are pushed and `T mod 8` bits are pending (R78). -/
theorem State.Wrote.counts : t.wfill.toNat = bits.length % 8 ∧ t.obs.length = s.obs.length + bits.length / 8 := by
  obtain ⟨pushed, hobs, rfl⟩ := h.of_empty h0
  have hlt : t.wfill.toNat < 8 := t.wfill.isLt
  simp only [hobs, List.length_append, length_unpack, State.length_pendingBits]
  omega

/-- After one more flush, `Pack` of the bits put has been pushed (R78). -/
theorem State.Wrote.flush_obs : t.flush.obs = s.obs ++ pack (Config.padDraw t.draws) bits := by
  obtain ⟨pushed, hobs, rfl⟩ := h.of_empty h0
  rw [State.flush_obs, hobs, pack_unpack_append, List.append_assoc]

end

/-- `BW.FLUSH` in a running block is a flush (R128). -/
theorem exec_bwFlush_running {s : State} (h : s.fcode = 0) : exec .bwFlush s = .next s.flush.advance :=
  command_running h fun s => .done s.flush

/-- Settles O22: `put_bit` leaves the halt and the padding draw alone and puts the bits in order (`putBits_spec`); what was put
fixes the counts before the flush and the bytes after it. -/
theorem putAndFlushPack : Obligations.PutAndFlushPack := by
  intro s bits hf h0
  obtain ⟨hw, hframe⟩ := s.putBits_spec bits
  have hfcode : (s.putBits bits).fcode = 0 := by rw [hframe]; exact hf
  have hdraws : (s.putBits bits).draws = s.draws := by rw [hframe]
  have hobs := hw.flush_obs h0
  rw [hdraws] at hobs
  exact ⟨⟨_, exec_bwFlush_running hfcode, State.flush_wfill _, hobs, by simp [State.advance, hobs]⟩, hw.counts h0⟩

end Sys2Proof.Machine
end

section
/-! The decoder against the opcode map (30_encoding R96). A row's test cuts into the opcode and the argument of the word; the
opcode picks the row, and the row's argument mask covers exactly the bits its format reserves. -/

namespace Sys2Proof

/-! ### The formats and their masks -/

/-- The bits of a word from `n` up are zero exactly when the mask of those bits finds none. -/
theorem extractLsb'_eq_zero_iff_and_mask {w : Nat} (n : Nat) (x : BitVec w) :
    x.extractLsb' n (w - n) = 0 ↔ x &&& (BitVec.allOnes w <<< n) = 0 := by
  constructor <;> intro h <;> refine BitVec.eq_of_getLsbD_eq fun k hk => ?_
  · by_cases hn : n ≤ k
    · have hbit := congrArg (·.getLsbD (k - n)) h
      simpa [hk, hn.not_gt, show k - n < w - n by omega, Nat.add_sub_cancel' hn] using hbit
    · simp [show k < n by omega]
  · have hbit := congrArg (·.getLsbD (n + k)) h
    simpa [hk, show n + k < w by omega, show k < w by omega] using hbit

/-- A decoder that tests one condition accepts exactly when the condition holds. -/
theorem exists_ok_ite_iff {c : Prop} [Decidable c] (i : Instr) (e : DecodeError) :
    (∃ j, (if c then .ok i else .error e : Except DecodeError Instr) = .ok j) ↔ c := by
  split <;> simp [*]

theorem decodeZ_ok_iff (i : Instr) (op : Byte) (arg : Arg) :
    (∃ j, decodeZ i op arg = .ok j) ↔ arg &&& 0xFFFFFFFF = 0 := by
  rw [show (0xFFFFFFFF : Arg) = BitVec.allOnes 32 from rfl, BitVec.and_allOnes]
  exact exists_ok_ite_iff _ _

theorem decodeB_ok_iff (mk : Bool → Instr) (op : Byte) (arg : Arg) :
    (∃ j, decodeB mk op arg = .ok j) ↔ arg &&& 0xFFFFFFFE = 0 :=
  (exists_ok_ite_iff _ _).trans (extractLsb'_eq_zero_iff_and_mask 1 arg)

theorem decodeC_ok_iff (mk : Byte → Instr) (op : Byte) (arg : Arg) :
    (∃ j, decodeC mk op arg = .ok j) ↔ arg &&& 0xFFFFFF00 = 0 :=
  (exists_ok_ite_iff _ _).trans (extractLsb'_eq_zero_iff_and_mask 8 arg)

theorem decodeT_ok_iff (mk : Byte → Byte → Bool → Bool → Instr) (op : Byte) (arg : Arg) :
    (∃ j, decodeT mk op arg = .ok j) ↔ arg &&& 0xFFFC0000 = 0 :=
  (exists_ok_ite_iff _ _).trans (extractLsb'_eq_zero_iff_and_mask 18 arg)

/-- Format W reserves nothing. -/
theorem decodeW_ok_iff (mk : Arg → Instr) (arg : Arg) :
    (∃ j, (.ok (mk arg) : Except DecodeError Instr) = .ok j) ↔ arg &&& 0 = 0 := by simp

/-! ### The rows -/

/-- Under the opcode of a row, the arguments that decode are those with no bit in the row's mask: row by row, its format. -/
theorem decodeFields_ok_iff_of_mem : ∀ r ∈ opcodeMap, ∀ arg : Arg,
    (∃ i, decodeFields (opField r.word) arg = .ok i) ↔ arg &&& argField r.mask = 0 := by
  simp only [opcodeMap, List.forall_mem_append, List.forall_mem_cons, List.not_mem_nil, false_imp_iff, implies_true, and_true]
  exact ⟨⟨decodeZ_ok_iff .reset _, decodeC_ok_iff .rd _, decodeZ_ok_iff .trClr _, decodeT_ok_iff .trPush _,
      decodeZ_ok_iff .ctBuild _, decodeW_ok_iff .setnLo, decodeW_ok_iff .setnHi, decodeW_ok_iff .setmLo,
      decodeW_ok_iff .setmHi⟩,
    decodeZ_ok_iff .brBit _, decodeZ_ok_iff .brEnd _, decodeB_ok_iff .bwBit _, decodeZ_ok_iff .bwFlush _,
    decodeZ_ok_iff .encStep _, decodeZ_ok_iff .encRun _, decodeZ_ok_iff .decStep _, decodeZ_ok_iff .decSym _,
    decodeZ_ok_iff .decRun _⟩

/-- Every mask takes the opcode whole, and every match has a zero argument. -/
theorem opField_mask_and_argField_word_of_mem :
    ∀ r ∈ opcodeMap, opField r.mask = BitVec.allOnes 8 ∧ argField r.word = 0 := by decide

theorem row_eq_of_opField_eq : ∀ r ∈ opcodeMap, ∀ q ∈ opcodeMap, opField r.word = opField q.word → r = q := by decide

theorem row_eq_of_mnemonic_eq : ∀ r ∈ opcodeMap, ∀ q ∈ opcodeMap, r.mnemonic = q.mnemonic → r = q := by decide

theorem opField_and (w u : CmdWord) : opField (w &&& u) = opField w &&& opField u := BitVec.extractLsb'_and ..

theorem argField_and (w u : CmdWord) : argField (w &&& u) = argField w &&& argField u := BitVec.extractLsb'_and ..

/-- The test of R96, cut into fields: the opcode is the row's and no bit of the argument is in the row's mask. -/
theorem OpcodeRow.covers_iff {r : OpcodeRow} (hr : r ∈ opcodeMap) (w : CmdWord) :
    r.covers w = true ↔ opField w = opField r.word ∧ argField w &&& argField r.mask = 0 := by
  obtain ⟨hmask, hword⟩ := opField_mask_and_argField_word_of_mem r hr
  have ho : opField (w &&& r.mask) = opField w := by rw [opField_and, hmask, BitVec.and_allOnes]
  rw [OpcodeRow.covers, beq_iff_eq, ← ho, ← hword, ← argField_and]
  exact ⟨fun h => ⟨congrArg opField h, congrArg argField h⟩, fun ⟨h, k⟩ => CmdWord.ext_fields h k⟩

/-- A row covers exactly the words that have its opcode and decode. -/
theorem OpcodeRow.covers_iff_decode {r : OpcodeRow} (hr : r ∈ opcodeMap) (w : CmdWord) :
    r.covers w = true ↔ opField w = opField r.word ∧ ∃ i, decode w = .ok i := by
  rw [r.covers_iff hr, ← decodeFields_ok_iff_of_mem r hr]
  exact and_congr_right fun h => by rw [decode, h]

/-- The word of every command lies in the command's own row. -/
theorem rowMatch (i : Instr) : Laws.RowMatch.Statement i := by
  cases i with
  | reset => exact Laws.RowMatch.reset
  | rd csr => exact Laws.RowMatch.rd csr
  | trClr => exact Laws.RowMatch.trClr
  | trPush l r ll rl => exact Laws.RowMatch.trPush l r ll rl
  | ctBuild => exact Laws.RowMatch.ctBuild
  | setnLo imm => exact Laws.RowMatch.setnLo imm
  | setnHi imm => exact Laws.RowMatch.setnHi imm
  | setmLo imm => exact Laws.RowMatch.setmLo imm
  | setmHi imm => exact Laws.RowMatch.setmHi imm
  | brBit => exact Laws.RowMatch.brBit
  | brEnd => exact Laws.RowMatch.brEnd
  | bwBit b => exact Laws.RowMatch.bwBit b
  | bwFlush => exact Laws.RowMatch.bwFlush
  | encStep => exact Laws.RowMatch.encStep
  | encRun => exact Laws.RowMatch.encRun
  | decStep => exact Laws.RowMatch.decStep
  | decSym => exact Laws.RowMatch.decSym
  | decRun => exact Laws.RowMatch.decRun

/-- Every command has a row of its name and its opcode. -/
theorem exists_row (i : Instr) : ∃ r ∈ opcodeMap, r.mnemonic = i.mnemonic ∧ opField r.word = opcodeOf i := by
  obtain ⟨r, hr, hname, hcovers⟩ := rowMatch i
  exact ⟨r, hr, hname, by rw [← opField_encode, ((r.covers_iff hr _).mp hcovers).1]⟩

/-- A row has a command's name exactly when it has the command's opcode. -/
theorem mnemonic_eq_iff_opcodeOf {r : OpcodeRow} (hr : r ∈ opcodeMap) (i : Instr) :
    i.mnemonic = r.mnemonic ↔ opcodeOf i = opField r.word := by
  obtain ⟨q, hq, hname, hop⟩ := exists_row i
  rw [← hname, ← hop]
  exact ⟨fun h => by rw [row_eq_of_mnemonic_eq q hq r hr h], fun h => by rw [row_eq_of_opField_eq q hq r hr h]⟩

/-- The first sentence of R96: a row covers exactly the words that decode to the row's command. -/
theorem OpcodeRow.covers_iff_decode_mnemonic {r : OpcodeRow} (hr : r ∈ opcodeMap) (w : CmdWord) :
    r.covers w = true ↔ ∃ i, decode w = .ok i ∧ i.mnemonic = r.mnemonic := by
  rw [r.covers_iff_decode hr, ← exists_and_left]
  refine exists_congr fun i => and_comm.trans (and_congr_right fun hd => ?_)
  rw [mnemonic_eq_iff_opcodeOf hr, opcodeOf_of_decodeFields hd]

/-- A word decodes exactly when some row covers it. -/
theorem exists_decode_ok_iff (w : CmdWord) : (∃ i, decode w = .ok i) ↔ ∃ r ∈ opcodeMap, r.covers w = true := by
  constructor
  · rintro ⟨i, hd⟩
    obtain ⟨r, hr, hname, -⟩ := exists_row i
    exact ⟨r, hr, (r.covers_iff_decode_mnemonic hr w).mpr ⟨i, hd, hname.symm⟩⟩
  · rintro ⟨r, hr, hc⟩
    exact ((r.covers_iff_decode hr w).mp hc).2

/-- A word is refused exactly when it decodes to no command. -/
theorem exists_decode_error_iff (w : CmdWord) : (∃ e, decode w = .error e) ↔ ¬ ∃ i, decode w = .ok i := by
  cases decode w <;> simp

/-- Settles O4: a row covers the words that have its opcode and decode, and the opcode determines the row. -/
theorem decoderAgreesWithOpcodeMap : Obligations.DecoderAgreesWithOpcodeMap := by
  refine ⟨fun r hr w => r.covers_iff_decode_mnemonic hr w, fun w => ?_, fun r hr q hq w hrw hqw => ?_⟩
  · rw [exists_decode_error_iff, exists_decode_ok_iff]
    simp
  · exact row_eq_of_opField_eq r hr q hq (((r.covers_iff hr w).mp hrw).1.symm.trans ((q.covers_iff hq w).mp hqw).1)

end Sys2Proof
end

section
/-! The counts and the pseudo-commands (30_encoding R94, R102): what a command that loads half a count does before its engine
has started, and that the two halves of a count make it up. -/

namespace Sys2Proof.Machine

/-- Writing both halves of a count, the low one first, replaces it. -/
@[simp] theorem setHighHalf_setLowHalf (n v : Word64) :
    setHighHalf (setLowHalf n (v.extractLsb' 0 32)) (v.extractLsb' 32 32) = v :=
  Word64.ext_halves (by simp) (by simp)

section
variable {s : State} (hf : s.fcode = 0)
include hf

/-- A guarded command in a running block whose encoder has not started (R141). -/
theorem command_guardEnc_running (he : s.encd = 0) (i : Instr) (body : State → Flow) :
    command (guardEnc i body) s = .next (body s).state.advance := by
  rw [command_running hf, guardEnc_eq, if_neg (not_not.mpr he)]

/-- A guarded command in a running block whose decoder has not started (R141). -/
theorem command_guardDec_running (hd : s.decd = 0) (hw : s.walk = false) (i : Instr) (body : State → Flow) :
    command (guardDec i body) s = .next (body s).state.advance := by
  rw [command_running hf, guardDec_eq, if_neg (by simp [hd, hw])]

/-- `SETN.LO` before the encoder has started (R148). -/
theorem exec_setnLo_running (he : s.encd = 0) (imm : Arg) :
    exec (.setnLo imm) s = .next { s with encn := setLowHalf s.encn imm, pc := s.pc + 1 } :=
  command_guardEnc_running hf he _ _

/-- `SETN.HI` before the encoder has started (R149). -/
theorem exec_setnHi_running (he : s.encd = 0) (imm : Arg) :
    exec (.setnHi imm) s = .next { s with encn := setHighHalf s.encn imm, pc := s.pc + 1 } :=
  command_guardEnc_running hf he _ _

/-- `SETM.LO` before the decoder has started (R150). -/
theorem exec_setmLo_running (hd : s.decd = 0) (hw : s.walk = false) (imm : Arg) :
    exec (.setmLo imm) s = .next { s with decm := setLowHalf s.decm imm, pc := s.pc + 1 } :=
  command_guardDec_running hf hd hw _ _

/-- `SETM.HI` before the decoder has started (R151). -/
theorem exec_setmHi_running (hd : s.decd = 0) (hw : s.walk = false) (imm : Arg) :
    exec (.setmHi imm) s = .next { s with decm := setHighHalf s.decm imm, pc := s.pc + 1 } :=
  command_guardDec_running hf hd hw _ _

/-- `SETN v` loads the whole of `ENCN` (R94, R102). -/
theorem execAll_setn (he : s.encd = 0) (v : Word64) :
    execAll (expandPseudo (.setn v)) s = some { s with encn := v, pc := s.pc + 2 } := by
  simp only [expandPseudo, execAll, exec_setnLo_running, exec_setnHi_running, hf, he, setHighHalf_setLowHalf]

/-- `SETM v` loads the whole of `DECM` (R94, R102). -/
theorem execAll_setm (hd : s.decd = 0) (hw : s.walk = false) (v : Word64) :
    execAll (expandPseudo (.setm v)) s = some { s with decm := v, pc := s.pc + 2 } := by
  simp only [expandPseudo, execAll, exec_setmLo_running, exec_setmHi_running, hf, hd, hw, setHighHalf_setLowHalf]

end

/-- Settles O32: the expansions are the table of R102, and the two commands of a count load its two halves (`execAll_setn`,
`execAll_setm`). -/
theorem pseudoCommandsExpand : Obligations.PseudoCommandsExpand :=
  ⟨fun _ => ⟨rfl, rfl⟩, fun _ _ => rfl, rfl, rfl, fun _ v hf =>
    ⟨fun he => execAll_setn hf he v, fun hd hw => execAll_setm hf hd hw v⟩⟩

end Sys2Proof.Machine
end

section
/-! The four commands of the bit cursor (40_bit_cursor R125 to R128): what `next_bit` answers from an
empty buffer and from a buffered bit, what `put_bit` writes with and without the eighth bit, and each command in a running block. -/

namespace Sys2Proof.Machine

/-! ### The read cursor -/

/-- With the buffer empty, `next_bit` fetches one byte and answers its bit 0 (R122, R77). -/
theorem State.nextBit_of_empty_buffer {s : State} {v : Byte} {rest : List Byte} (h0 : s.rcnt = 0) (hp : s.pbs = v :: rest) :
    s.nextBit = some (v.getLsbD 0, { s with rbuf := v, rcnt := 7, pbs := rest }) := by
  simp only [State.nextBit, if_pos h0, hp, State.takeBit]
  rfl

/-- With a bit buffered, `next_bit` answers `RBUF[8 - RCNT]` and fetches nothing (R122). -/
theorem State.nextBit_of_buffered {s : State} (h0 : s.rcnt ≠ 0) (h8 : s.rcnt ≤ 8) :
    s.nextBit = some (s.rbuf.getLsbD (8 - s.rcnt.toNat), { s with rcnt := s.rcnt - 1 }) := by
  rw [State.nextBit, if_neg h0, State.takeBit, BitVec.toNat_sub_of_le h8]
  rfl

/-! ### The write cursor -/

/-- The eighth bit completes the byte, which is pushed (R123). -/
theorem State.putBit_eighth {s : State} (h : s.wfill = 7) (b : Bool) :
    s.putBit b = { s with wacc := setBit s.wacc s.wfill.toNat b, wfill := 0,
                          obs := s.obs ++ [setBit s.wacc s.wfill.toNat b] } := by
  rw [State.putBit, if_pos h]
  rfl

/-- Before the eighth bit nothing is pushed (R123). -/
theorem State.putBit_below_eighth {s : State} (h : s.wfill ≠ 7) (b : Bool) :
    s.putBit b = { s with wacc := setBit s.wacc s.wfill.toNat b, wfill := s.wfill + 1 } := by
  rw [State.putBit, if_neg h]

/-! ### The commands in a running block -/

section
variable {s : State} (hf : s.fcode = 0)
include hf

/-- `BR.BIT` with no bit left (R125). -/
theorem exec_brBit_atEnd (h0 : s.rcnt = 0) (hp : s.pbs = []) : exec .brBit s = .next (s.faulted 9 0) := by
  refine (command_running hf brBitBody).trans ?_
  rw [brBitBody, s.nextBit_none_iff.mpr ⟨h0, hp⟩]
  rfl

/-- `BR.BIT` with a bit left answers it (R125). -/
theorem exec_brBit_answers {t : State} {b : Bool} (h : s.nextBit = some (b, t)) :
    exec .brBit s = .next (t.answered ((BitVec.ofBool b).zeroExtend 64)) := by
  refine (command_running hf brBitBody).trans ?_
  rw [brBitBody, h]
  rfl

/-- `BR.END` answers `at_end()` (R126). -/
theorem exec_brEnd_running : exec .brEnd s = .next (s.answered (if s.atEnd then 1 else 0)) :=
  command_running hf fun s => .done (s.pushRsp (if s.atEnd then 1 else 0))

/-- `BW.BIT` puts its bit (R127). -/
theorem exec_bwBit_running (b : Bool) : exec (.bwBit b) s = .next (s.putBit b).advance :=
  command_running hf fun s => .done (s.putBit b)

end

/-! ### The obligations -/

/-- Settles O16: `next_bit` is asked once, in each of the three states of the read cursor. -/
theorem brBitReadsOneBit : Obligations.BrBitReadsOneBit :=
  ⟨rfl, fun _ hf => ⟨exec_brBit_atEnd hf, fun _ _ h0 hp => exec_brBit_answers hf (State.nextBit_of_empty_buffer h0 hp),
    fun h0 h8 => exec_brBit_answers hf (State.nextBit_of_buffered h0 h8)⟩⟩

/-- Settles O17: the answer is `at_end()`, which holds exactly with the buffer and the stream empty (`State.atEnd_iff`). -/
theorem brEndAnswersAtEnd : Obligations.BrEndAnswersAtEnd :=
  ⟨rfl, fun s hf => by simp only [exec_brEnd_running hf, s.atEnd_iff]⟩

/-- Settles O18: the byte is `WACC` with the bit written at place `WFILL`, pushed when the bit is the eighth
(`State.putBit_eighth`, `State.putBit_below_eighth`). -/
theorem bwBitPlacesOneBit : Obligations.BwBitPlacesOneBit := by
  refine ⟨rfl, rfl, fun s b hf => ⟨setBit s.wacc s.wfill.toNat b, ?_, fun k hk => ?_, fun h => ?_, fun h => ?_⟩⟩
  · rw [getLsbD_setBit _ _ _ s.wfill.isLt, if_pos rfl]
  · rw [getLsbD_setBit _ _ _ s.wfill.isLt, if_neg hk.ne]
  · rw [exec_bwBit_running hf, State.putBit_eighth h]
    rfl
  · rw [exec_bwBit_running hf, State.putBit_below_eighth h]
    rfl

/-- Settles O19: a flush does nothing or pushes the pending bits joined with the draw (`State.flush_cases`). -/
theorem bwFlushPushesThePartialByte : Obligations.BwFlushPushesThePartialByte := by
  refine ⟨rfl, fun s hf => ?_⟩
  rw [exec_bwFlush_running hf]
  obtain ⟨h, hs⟩ | ⟨h, v, hs, hbits⟩ := s.flush_cases
  · rw [hs]
    exact ⟨fun _ => rfl, fun hne => absurd h hne⟩
  · rw [hs]
    refine ⟨fun h0 => absurd h0 h, fun _ => ⟨v, rfl, fun k hk => ?_, fun k hk => ?_⟩⟩
    · rw [hbits, if_pos hk]
    · rw [hbits, if_neg hk.not_gt]

end Sys2Proof.Machine
end

section
/-! Loading the tree and the counts (41_tree_and_counts R141 to R151): each configuration command before and after the engine
concerned has started, and the nodes of a tree pushed one after another. -/

namespace Sys2Proof.Machine

/-! ### The guards -/

section
variable {s : State} (hf : s.fcode = 0)
include hf

/-- A tree command or `CT.BUILD` once an engine has started (R141). -/
theorem command_guardTree_started (h : s.encd ≠ 0 ∨ s.decd ≠ 0 ∨ s.walk = true) (i : Instr) (body : State → Flow) :
    command (guardTree i body) s = .next (s.faulted 2 ((encode i).zeroExtend 64)) := by
  rw [command_running hf, guardTree_eq, if_pos h]
  rfl

/-- A command that loads half of `ENCN` once the encoder has started (R141). -/
theorem command_guardEnc_started (h : s.encd ≠ 0) (i : Instr) (body : State → Flow) :
    command (guardEnc i body) s = .next (s.faulted 2 ((encode i).zeroExtend 64)) := by
  rw [command_running hf, guardEnc_eq, if_pos h]
  rfl

/-- A command that loads half of `DECM` once the decoder has started (R141). -/
theorem command_guardDec_started (h : s.decd ≠ 0 ∨ s.walk = true) (i : Instr) (body : State → Flow) :
    command (guardDec i body) s = .next (s.faulted 2 ((encode i).zeroExtend 64)) := by
  rw [command_running hf, guardDec_eq, if_pos h]
  rfl

/-- A tree command or `CT.BUILD` in a running block before either engine has started (R141). -/
theorem command_guardTree_running (he : s.encd = 0) (hd : s.decd = 0) (hw : s.walk = false) (i : Instr)
    (body : State → Flow) : command (guardTree i body) s = .next (body s).state.advance := by
  rw [command_running hf, guardTree_eq, if_neg (by simp [he, hd, hw])]

end

/-- Settles O25: each of the seven commands is its guard around its pseudocode. -/
theorem configurationIsFrozen : Obligations.ConfigurationIsFrozen := by
  refine fun s i hf => ⟨?_, ?_, ?_⟩
  · rintro (rfl | ⟨l, r, ll, rl, rfl⟩ | rfl) h
    · exact command_guardTree_started hf h .trClr _
    · exact command_guardTree_started hf h (.trPush l r ll rl) _
    · exact command_guardTree_started hf h .ctBuild _
  · rintro (⟨imm, rfl⟩ | ⟨imm, rfl⟩) h
    · exact command_guardEnc_started hf h (.setnLo imm) _
    · exact command_guardEnc_started hf h (.setnHi imm) _
  · rintro (⟨imm, rfl⟩ | ⟨imm, rfl⟩) h
    · exact command_guardDec_started hf h (.setmLo imm) _
    · exact command_guardDec_started hf h (.setmHi imm) _

/-! ### The counts -/

/-- Settles O28: each command writes its own half before the encoder has started and faults after. -/
theorem setnWritesOneHalf : Obligations.SetnWritesOneHalf :=
  fun imm => ⟨rfl, rfl, fun s hf =>
    ⟨fun he => ⟨setLowHalf s.encn imm, exec_setnLo_running hf he imm, setLowHalf_low _ _, setLowHalf_high _ _⟩,
     fun he => ⟨setHighHalf s.encn imm, exec_setnHi_running hf he imm, setHighHalf_high _ _, setHighHalf_low _ _⟩,
     fun he => ⟨command_guardEnc_started hf he _ _, command_guardEnc_started hf he _ _⟩⟩⟩

/-- Settles O29: each command writes its own half before the decoder has started and faults after. -/
theorem setmWritesOneHalf : Obligations.SetmWritesOneHalf :=
  fun imm => ⟨rfl, rfl, fun s hf =>
    ⟨fun hd hw => ⟨setLowHalf s.decm imm, exec_setmLo_running hf hd hw imm, setLowHalf_low _ _, setLowHalf_high _ _⟩,
     fun hd hw => ⟨setHighHalf s.decm imm, exec_setmHi_running hf hd hw imm, setHighHalf_high _ _, setHighHalf_low _ _⟩,
     fun h => ⟨command_guardDec_started hf h _ _, command_guardDec_started hf h _ _⟩⟩⟩

/-! ### `TR.CLR` -/

/-- Settles O26: before an engine has started the pseudocode runs whole (`command_guardTree_running`). -/
theorem trClrForgetsTheTree : Obligations.TrClrForgetsTheTree :=
  ⟨rfl, fun s hf => ⟨fun he hd hw => ⟨_, command_guardTree_running hf he hd hw .trClr _, rfl,
      fun v => State.codeLen_clearCodes { s with nc := 0 } v, rfl⟩,
    fun h => command_guardTree_started hf h .trClr _⟩⟩

/-! ### `TR.PUSH` -/

/-- An appended word is its parts in their places. -/
theorem toNat_append_eq_add {m n : Nat} (x : BitVec m) (y : BitVec n) : (x ++ y).toNat = 2 ^ n * x.toNat + y.toNat := by
  rw [BitVec.toNat_append, ← Nat.shiftLeft_add_eq_or_of_lt y.isLt, Nat.shiftLeft_eq, Nat.mul_comm]

/-- The word of `TR.PUSH` as a number (R91, R95). -/
theorem toNat_encode_trPush (l r : Byte) (ll rl : Bool) : (encode (.trPush l r ll rl)).toNat =
    0x1100000000 + l.toNat + 256 * r.toNat + 65536 * ll.toNat + 131072 * rl.toNat := by
  change (0x11#8 ++ (0#14 ++ BitVec.ofBool rl ++ BitVec.ofBool ll ++ r ++ l : BitVec 32) : BitVec 40).toNat = _
  simp only [toNat_append_eq_add, BitVec.toNat_ofBool, BitVec.toNat_ofNat]
  omega

/-- The validity test of R144 fails exactly when a child marked as node index is not below `NC`. -/
theorem State.childInvalid_iff (s : State) (l r : Byte) (ll rl : Bool) :
    s.childInvalid l r ll rl = true ↔ ll = false ∧ s.nc ≤ l ∨ rl = false ∧ s.nc ≤ r := by
  simp [State.childInvalid]

/-- The block after a `TR.PUSH` that completes (R143). -/
def State.pushed (s : State) (l r : Byte) (ll rl : Bool) : State := (s.storeNode l r ll rl).clearCodes.advance

section
variable {s : State} (hf : s.fcode = 0) (he : s.encd = 0) (hd : s.decd = 0) (hw : s.walk = false) (l r : Byte) (ll rl : Bool)
include hf he hd hw

/-- `TR.PUSH` before an engine has started is its pseudocode after the guard. -/
theorem exec_trPush_running : exec (.trPush l r ll rl) s = .next (trPushBody l r ll rl s).state.advance :=
  command_guardTree_running hf he hd hw _ _

/-- `TR.PUSH` to a full tree (R146). -/
theorem exec_trPush_full (h : s.nc = 255) :
    exec (.trPush l r ll rl) s = .next (s.faulted 3 ((encode (.trPush l r ll rl)).zeroExtend 64)) := by
  rw [exec_trPush_running hf he hd hw, trPushBody, if_pos h]
  rfl

variable {l r ll rl} (hn : s.nc ≠ 255)
include hn

/-- `TR.PUSH` of an invalid node (R144). -/
theorem exec_trPush_invalid (hc : ll = false ∧ s.nc ≤ l ∨ rl = false ∧ s.nc ≤ r) :
    exec (.trPush l r ll rl) s = .next (s.faulted 4 ((encode (.trPush l r ll rl)).zeroExtend 64)) := by
  rw [exec_trPush_running hf he hd hw, trPushBody, if_neg hn, if_pos ((s.childInvalid_iff _ _ _ _).mpr hc)]
  rfl

/-- `TR.PUSH` of a valid node (R143). -/
theorem exec_trPush_valid (hl : ll = true ∨ l < s.nc) (hr : rl = true ∨ r < s.nc) :
    exec (.trPush l r ll rl) s = .next (s.pushed l r ll rl) := by
  have hc : ¬ s.childInvalid l r ll rl = true := by
    rw [s.childInvalid_iff]
    rintro (⟨rfl, hle⟩ | ⟨rfl, hle⟩)
    · exact BitVec.not_lt.mpr hle (hl.resolve_left Bool.false_ne_true)
    · exact BitVec.not_lt.mpr hle (hr.resolve_left Bool.false_ne_true)
  rw [exec_trPush_running hf he hd hw, trPushBody, if_neg hn, if_neg hc]
  rfl

end

section
variable (s : State) (l r : Byte) (ll rl : Bool)

/-- What `State.pushed` holds, an entry or a code at a time. -/
@[simp] theorem State.nodeAt_pushed (i : Byte) :
    (s.pushed l r ll rl).nodeAt i = if s.nc = i then ⟨l, r⟩ else s.nodeAt i := s.nodeAt_storeNode i l r ll rl

@[simp] theorem State.lleafAt_pushed (i : Byte) :
    (s.pushed l r ll rl).lleafAt i = if s.nc = i then ll else s.lleafAt i := s.lleafAt_storeNode i l r ll rl

@[simp] theorem State.rleafAt_pushed (i : Byte) :
    (s.pushed l r ll rl).rleafAt i = if s.nc = i then rl else s.rleafAt i := s.rleafAt_storeNode i l r ll rl

@[simp] theorem State.codeLen_pushed (v : Byte) : (s.pushed l r ll rl).codeLen v = 0 :=
  State.codeLen_clearCodes (s.storeNode l r ll rl) v

/-- A node pushed to a tree that is not full is counted (R143). -/
theorem State.toNat_nc_pushed {s : State} (h : s.nc ≠ 255) : (s.pushed l r ll rl).nc.toNat = s.nc.toNat + 1 := by
  change (s.nc + 1).toNat = _
  bv_omega

end

/-- Settles O27: one lemma for each outcome, in the order of the tests, and what `State.pushed` holds. -/
theorem trPushAppendsOneNode : Obligations.TrPushAppendsOneNode := by
  refine fun l r ll rl => ⟨toNat_encode_trPush l r ll rl, fun s hf => ⟨fun h => command_guardTree_started hf h _ _, ?_⟩⟩
  refine fun he hd hw => ⟨exec_trPush_full hf he hd hw l r ll rl, exec_trPush_invalid hf he hd hw, fun hn hl hr => ?_⟩
  refine ⟨s.pushed l r ll rl, exec_trPush_valid hf he hd hw hn hl hr, State.toNat_nc_pushed l r ll rl hn,
    by simp, by simp, by simp, fun i hi => by simp [hi.symm], s.codeLen_pushed l r ll rl, rfl⟩

/-! ### A whole tree -/

/-- The block runs, neither engine has started, and the tree array holds exactly these nodes in order, each as its two child
fields and its two flags (R147). -/
structure State.HoldsTree (s : State) (ns : List (Byte × Byte × Bool × Bool)) : Prop where
  fcode : s.fcode = 0
  encd : s.encd = 0
  decd : s.decd = 0
  walk : s.walk = false
  nc : s.nc.toNat = ns.length
  entry : ∀ (k : Nat) (l r : Byte) (ll rl : Bool), ns[k]? = some (l, r, ll, rl) →
    s.nodeAt (BitVec.ofNat 8 k) = ⟨l, r⟩ ∧ s.lleafAt (BitVec.ofNat 8 k) = ll ∧ s.rleafAt (BitVec.ofNat 8 k) = rl

/-- The index children of every node of the list are below the node's own index (R147, R24). -/
def ChildrenBelow (ns : List (Byte × Byte × Bool × Bool)) : Prop :=
  ∀ (k : Nat) (l r : Byte) (ll rl : Bool), ns[k]? = some (l, r, ll, rl) →
    (ll = false → l.toNat < k) ∧ (rl = false → r.toNat < k)

/-- The `TR.PUSH` of a node. -/
def pushOf (n : Byte × Byte × Bool × Bool) : Instr := .trPush n.1 n.2.1 n.2.2.1 n.2.2.2

/-- A push to a tree that is not full adds its node at the end of the list. -/
theorem State.HoldsTree.pushed {s : State} {ns : List (Byte × Byte × Bool × Bool)} (h : s.HoldsTree ns)
    (hn : ns.length < 255) (l r : Byte) (ll rl : Bool) : (s.pushed l r ll rl).HoldsTree (ns ++ [(l, r, ll, rl)]) := by
  have hnc := h.nc
  refine ⟨h.fcode, h.encd, h.decd, h.walk, ?_, fun k l' r' ll' rl' hk => ?_⟩
  · rw [State.toNat_nc_pushed l r ll rl (by bv_omega), hnc, List.length_append, List.length_singleton]
  · obtain hlt | rfl | hgt := Nat.lt_trichotomy k ns.length
    · have hne : BitVec.ofNat 8 k ≠ s.nc := by bv_omega
      rw [List.getElem?_append_left hlt] at hk
      simpa [hne.symm] using h.entry k l' r' ll' rl' hk
    · rw [List.getElem?_concat_length] at hk
      cases hk
      simp [← hnc]
    · rw [List.getElem?_eq_none (by simpa using hgt)] at hk
      cases hk

/-- Pushing the rest of a valid tree after its first nodes loads the whole tree, with no fault (R147). -/
theorem execAll_pushes (rest : List (Byte × Byte × Bool × Bool)) : ∀ (loaded : List (Byte × Byte × Bool × Bool)) (s : State),
    s.HoldsTree loaded → (loaded ++ rest).length ≤ 255 → ChildrenBelow (loaded ++ rest) →
    ∃ t, execAll (rest.map pushOf) s = some t ∧ t.HoldsTree (loaded ++ rest) := by
  induction rest with
  | nil => exact fun loaded s hs _ _ => ⟨s, rfl, by rwa [List.append_nil]⟩
  | cons n rest ih =>
    intro loaded s hs hlen hbelow
    obtain ⟨l, r, ll, rl⟩ := n
    have hnc := hs.nc
    have hroom : loaded.length < 255 := by
      rw [List.length_append, List.length_cons] at hlen
      omega
    obtain ⟨hl, hr⟩ := hbelow loaded.length l r ll rl (by simp)
    have hpush : exec (pushOf (l, r, ll, rl)) s = .next (s.pushed l r ll rl) :=
      exec_trPush_valid hs.fcode hs.encd hs.decd hs.walk (by bv_omega)
        ((Bool.eq_false_or_eq_true ll).imp_right fun h => BitVec.lt_def.mpr (hnc ▸ hl h))
        ((Bool.eq_false_or_eq_true rl).imp_right fun h => BitVec.lt_def.mpr (hnc ▸ hr h))
    rw [List.append_cons] at hlen hbelow ⊢
    rw [List.map_cons, execAll, hpush]
    exact ih _ _ (hs.pushed hroom l r ll rl) hlen hbelow

/-- Settles O31: an empty tree holds the empty list, and `execAll_pushes` adds the nodes to it. -/
theorem pushingLoadsTheWholeTree : Obligations.PushingLoadsTheWholeTree := by
  intro s ns hf he hd hw hn hlen hbelow
  have hempty : s.HoldsTree [] := ⟨hf, he, hd, hw, congrArg BitVec.toNat hn, by simp⟩
  obtain ⟨t, hrun, ht⟩ := execAll_pushes ns [] s hempty hlen hbelow
  exact ⟨t, hrun, ht.fcode, ht.nc, ht.entry⟩

end Sys2Proof.Machine
end

section
/-! The built code table (42_code_table R162 to R164): the code of a value is the least of its leaf paths, what follows from that
for any two codes, and the degenerate tree, whose one node is a leaf on both sides. -/

namespace Sys2Proof.Machine

/-! ### Leaf paths from the root -/

section
variable {s : State}

/-- The root is a loaded node. -/
theorem State.root_lt (h : s.nc ≠ 0) : s.nc - 1 < s.nc := by bv_omega

theorem State.toNat_root (h : s.nc ≠ 0) : (s.nc - 1).toNat + 1 = s.nc.toNat := by bv_omega

theorem State.leafValue_eq_some_iff (p : List Bool) (v : Byte) :
    s.leafValue p = some v ↔ s.nc ≠ 0 ∧ s.leafFrom (s.nc - 1) p = some v := by
  by_cases h : s.nc = 0 <;> simp [State.leafValue, h]

/-- The leaf paths are read off the tree only. -/
theorem State.leafValue_congr {t : State} (hc : s.nc = t.nc) (hn : s.node = t.node) (hl : s.lleaf = t.lleaf)
    (hr : s.rleaf = t.rleaf) (p : List Bool) : s.leafValue p = t.leafValue p := by
  rw [State.leafValue, State.leafValue, hc, State.leafFrom_congr hn hl hr]

theorem State.leafValue_advance (p : List Bool) : s.advance.leafValue p = s.leafValue p :=
  State.leafValue_congr s.advance_nc s.advance_node s.advance_lleaf s.advance_rleaf p

/-- No leaf path goes on past a leaf (R162). -/
theorem State.leafValue_append {p q : List Bool} {v u : Byte} (h : s.leafValue p = some v)
    (k : s.leafValue (p ++ q) = some u) : q = [] ∧ v = u :=
  State.leafFrom_append ((s.leafValue_eq_some_iff p v).mp h).2 ((s.leafValue_eq_some_iff (p ++ q) u).mp k).2

/-- A leaf path has 1 to `NC` bits (R161). -/
theorem State.length_leafValue (hw : s.TreeWF) {p : List Bool} {v : Byte} (h : s.leafValue p = some v) :
    1 ≤ p.length ∧ p.length ≤ s.nc.toNat := by
  obtain ⟨h0, hp⟩ := (s.leafValue_eq_some_iff p v).mp h
  exact ⟨List.length_pos_iff.mpr (State.leafFrom_ne_nil hp),
    State.toNat_root h0 ▸ State.length_leafFrom hw (State.root_lt h0) hp⟩

/-- The paths `BuildTable` meets are the leaf paths of the tree (R161, R162). -/
theorem State.mem_leafPaths_root (hw : s.TreeWF) (h0 : s.nc ≠ 0) (p : List Bool) (v : Byte) :
    (p, v) ∈ s.leafPaths s.nc.toNat (s.nc - 1) ↔ s.leafValue p = some v := by
  have hroot := State.root_lt h0
  rw [State.mem_leafPaths hw hroot hroot, s.leafValue_eq_some_iff, and_iff_right h0]

/-! ### The built table -/

/-- `BuildTable` leaves the tree and so its leaf paths as they are. -/
theorem State.leafValue_buildTable (p : List Bool) : s.buildTable.leafValue p = s.leafValue p := by
  have hf := s.buildTable_frame
  exact State.leafValue_congr (by rw [hf]) (by rw [hf]) (by rw [hf]) (by rw [hf]) p

/-- A value with no leaf path has no code, and any other value has its least leaf path: the list of leaf paths is sorted, so
the first one of a value is the least (R162). -/
theorem State.code_buildTable_cases (hw : s.TreeWF) (v : Byte) :
    (s.buildTable.code v = [] ∧ ∀ p, s.leafValue p ≠ some v) ∨
    (s.leafValue (s.buildTable.code v) = some v ∧ ∀ p, s.leafValue p = some v → s.buildTable.code v ≤ p) := by
  rw [State.code_buildTable hw]
  by_cases h0 : s.nc = 0
  · rw [if_pos h0]
    exact .inl ⟨rfl, fun p hp => ((s.leafValue_eq_some_iff p v).mp hp).1 h0⟩
  rw [if_neg h0]
  have hmem := State.mem_leafPaths_root hw h0
  cases hx : (s.leafPaths s.nc.toNat (s.nc - 1)).find? (fun x => x.2 == v) with
  | none =>
    rw [List.find?_eq_none] at hx
    exact .inl ⟨rfl, fun p hp => hx (p, v) ((hmem p v).mpr hp) (beq_self_eq_true v)⟩
  | some x =>
    obtain ⟨hv, before, after, hsplit, hbefore⟩ := List.find?_eq_some_iff_append.mp hx
    obtain ⟨path, u⟩ := x
    obtain rfl : u = v := eq_of_beq hv
    refine .inr ⟨(hmem path u).mp (List.mem_of_find?_eq_some hx), fun p hp => ?_⟩
    have hsorted := s.sorted_leafPaths s.nc.toNat (s.nc - 1)
    rw [← hmem, hsplit, List.mem_append, List.mem_cons] at hp
    rw [hsplit, List.pairwise_append, List.pairwise_cons] at hsorted
    obtain hp | hp | hp := hp
    · exact absurd (hbefore _ hp) (by simp)
    · exact (congrArg Prod.fst hp).ge
    · exact le_of_lt (hsorted.2.1.1 _ hp)

/-- A byte value has no code exactly when it stands at no leaf that can be reached (R162). -/
theorem State.codeLen_buildTable_eq_zero_iff (hw : s.TreeWF) (v : Byte) :
    s.buildTable.codeLen v = 0 ↔ ∀ p, s.leafValue p ≠ some v := by
  rw [← State.code_eq_nil_iff]
  obtain ⟨hnil, hnone⟩ | ⟨hcode, -⟩ := State.code_buildTable_cases hw v
  · exact iff_of_true hnil hnone
  · refine iff_of_false (fun hnil => ?_) (fun hnone => hnone _ hcode)
    exact Nat.not_succ_le_zero 0 (by simpa [hnil] using (State.length_leafValue hw hcode).1)

/-- The code of a value that has one is the least leaf path of that value (R162). -/
theorem State.code_buildTable_least (hw : s.TreeWF) {v : Byte} (hv : s.buildTable.codeLen v ≠ 0) :
    s.leafValue (s.buildTable.code v) = some v ∧ ∀ p, s.leafValue p = some v → s.buildTable.code v ≤ p :=
  (State.code_buildTable_cases hw v).resolve_left fun h => hv ((State.code_eq_nil_iff _ v).mp h.1)

/-- No code goes on to become the code of another value, since no leaf path goes on past a leaf (R163). -/
theorem State.code_buildTable_not_prefix (hw : s.TreeWF) {v u : Byte} (hne : v ≠ u) (hv : s.buildTable.codeLen v ≠ 0)
    (hu : s.buildTable.codeLen u ≠ 0) : ¬ s.buildTable.code v <+: s.buildTable.code u := by
  rintro ⟨q, hq⟩
  have hleaf := (State.code_buildTable_least hw hu).1
  rw [← hq] at hleaf
  exact hne (State.leafValue_append (State.code_buildTable_least hw hv).1 hleaf).2

/-- `CT.BUILD` in a running block before either engine has started (R160). -/
theorem exec_ctBuild_running (hf : s.fcode = 0) (he : s.encd = 0) (hd : s.decd = 0) (hw : s.walk = false) :
    exec .ctBuild s = .next s.buildTable.advance :=
  command_guardTree_running hf he hd hw .ctBuild _

end

/-- Settles O34: the first leaf path of a value in the order of the traversal is the least (`State.code_buildTable_cases`). -/
theorem codesAreLeastLeafPaths : Obligations.CodesAreLeastLeafPaths := by
  refine fun s hwf hf he hd hw => ⟨_, exec_ctBuild_running hf he hd hw, fun p q v u hp hq => (State.leafValue_append hp hq).1,
    fun v => ⟨State.codeLen_buildTable_eq_zero_iff hwf v, fun hv => ?_⟩⟩
  obtain ⟨hcode, hleast⟩ := State.code_buildTable_least hwf hv
  exact ⟨hcode, hleast, State.length_leafValue hwf hcode⟩

/-- Settles O35: a code is a leaf path of its value (`State.code_buildTable_least`), and no leaf path goes on past a leaf
(`State.code_buildTable_not_prefix`). -/
theorem codesAreSoundCompleteAndPrefixFree : Obligations.CodesAreSoundCompleteAndPrefixFree := by
  refine fun s hwf hf he hd hw => ⟨_, exec_ctBuild_running hf he hd hw, fun v hv => ?_, fun p v hp h0 => ?_,
    fun v u hne hv hu => ?_⟩
  · rw [State.leafValue_advance, State.leafValue_buildTable]
    exact (State.code_buildTable_least hwf hv).1
  · rw [State.leafValue_advance, State.leafValue_buildTable] at hp
    exact (State.codeLen_buildTable_eq_zero_iff hwf v).mp h0 p hp
  · have hprefix := State.code_buildTable_not_prefix hwf hne hv hu
    exact ⟨fun heq => hprefix (heq ▸ List.prefix_rfl), hprefix⟩

/-! ### The degenerate tree -/

/-- The tree is the one node `(v, v)` with both fields literal (R164). -/
structure State.Degenerate (s : State) (v : Byte) : Prop where
  nc : s.nc = 1
  node : s.nodeAt 0 = ⟨v, v⟩
  lleaf : s.lleafAt 0 = true
  rleaf : s.rleafAt 0 = true

section
variable {s : State} {v : Byte} (h : s.Degenerate v)
include h

theorem State.Degenerate.treeWF : s.TreeWF := by
  intro i hi
  obtain rfl : i = 0 := by rw [h.nc] at hi; bv_omega
  simp only [h.lleaf, h.rleaf, Bool.true_eq_false, false_imp_iff, and_self]

/-- Either edge of the root is a leaf. -/
theorem State.Degenerate.childIsLeaf (b : Bool) : s.childIsLeaf 0 b = true := by
  cases b
  · exact h.lleaf
  · exact h.rleaf

/-- Either edge of the root leads to `v`. -/
theorem State.Degenerate.child (b : Bool) : s.child 0 b = v := by
  rw [State.child, h.node, ite_self]

/-- The value is discovered twice, and the left path is retained (R164). -/
theorem State.Degenerate.code_buildTable (u : Byte) : s.buildTable.code u = if v = u then [false] else [] := by
  have hpaths : s.leafPaths s.nc.toNat (s.nc - 1) = [([false], v), ([true], v)] := by
    rw [h.nc]
    change s.leafPaths 1 0 = _
    simp only [State.leafPaths, h.childIsLeaf, h.child, if_true, List.singleton_append]
  rw [State.code_buildTable h.treeWF, hpaths, if_neg (by simp [h.nc])]
  by_cases hu : v = u <;> simp [hu]

/-- Between symbols one `dec_step` reads one bit and emits `v`, whatever the bit is (R187). -/
theorem State.Degenerate.decStep_emits {b : Bool} {rest : List Bool} (h8 : s.rcnt ≤ 8) (hw : s.walk = false)
    (hlt : s.decd < s.decm) (hbits : s.unreadBits = b :: rest) :
    ∃ t, decStep s = .done t ∧ t.unreadBits = rest ∧ t.rcnt ≤ 8 ∧
      t = { s with cur := 0, walk := false, decd := s.decd + 1, dbs := s.dbs ++ [v],
                   rbuf := t.rbuf, rcnt := t.rcnt, pbs := t.pbs } := by
  have hnode : s.walkNode = 0 := by simp [State.walkNode, hw, h.nc]
  obtain ⟨hge, -⟩ | ⟨-, h0, -⟩ | ⟨-, -, hr, hp, -⟩ | ⟨c, t, -, -, hstep, -, -, hread, hleaf, -⟩ := decStep_cases s
  · exact absurd hlt (BitVec.not_lt.mpr hge)
  · exact absurd (h.nc.symm.trans h0) (by decide)
  · rw [s.unreadBits_eq_nil_iff.mpr ⟨hr, hp⟩] at hbits
    cases hbits
  · obtain ⟨hcons, h7⟩ := hread h8
    rw [hnode, h.child] at hleaf
    exact ⟨t, hstep, (List.cons.inj (hcons.symm.trans hbits)).2, BitVec.le_trans h7 (by decide), hleaf (h.childIsLeaf c)⟩

end

/-- Between symbols the loop of `DEC.RUN` reads one bit for each byte owed and emits `v` for it (R187). -/
theorem State.Degenerate.decRunBody_emits {v : Byte} (n : Nat) : ∀ {s : State}, s.Degenerate v → s.rcnt ≤ 8 → s.walk = false →
    s.decd ≤ s.decm → (s.decm - s.decd).toNat = n → n ≤ s.unreadBits.length →
    ∃ t, decRunBody s = .done t ∧ t.fcode = s.fcode ∧ t.decd = s.decm ∧ t.dbs = s.dbs ++ List.replicate n v ∧
      t.unreadBits = s.unreadBits.drop n := by
  induction n with
  | zero =>
    intro s h h8 hw hle hn hlen
    have heq : s.decd = s.decm := by bv_omega
    exact ⟨s, by rw [decRunBody_eq, if_neg (by simp [heq])], rfl, heq, by simp, by simp⟩
  | succ n ih =>
    intro s h h8 hw hle hn hlen
    have hlt : s.decd < s.decm := by bv_omega
    obtain ⟨b, rest, hbits⟩ := List.exists_cons_of_length_pos (Nat.zero_lt_of_lt hlen)
    obtain ⟨t, hstep, hrest, ht8, ht⟩ := h.decStep_emits h8 hw hlt hbits
    have htree : t.Degenerate v := by rw [ht]; exact ⟨h.nc, h.node, h.lleaf, h.rleaf⟩
    have hdecd : t.decd = s.decd + 1 := by rw [ht]
    have hdecm : t.decm = s.decm := by rw [ht]
    have hdbs : t.dbs = s.dbs ++ [v] := by rw [ht]
    have hfcode : t.fcode = s.fcode := by rw [ht]
    obtain ⟨u, hrun, hf, hd, ho, hu⟩ := ih htree ht8 (by rw [ht]) (by rw [hdecd, hdecm]; bv_omega)
      (by rw [hdecd, hdecm]; bv_omega) (by rw [hbits] at hlen; rw [hrest]; exact Nat.le_of_succ_le_succ hlen)
    refine ⟨u, ?_, hf.trans hfcode, hd.trans hdecm, ?_, ?_⟩
    · rw [decRunBody_eq, if_pos hlt, hstep]
      exact hrun
    · rw [ho, hdbs, List.append_assoc]
      rfl
    · rw [hu, hrest, hbits, List.drop_succ_cons]

/-- Settles O36: the left path is met first (`code_buildTable`), and both edges of the root are leaves of `v`
(`decStep_emits`, `decRunBody_emits`). -/
theorem degenerateTree : Obligations.DegenerateTree := by
  intro s v hf hnc hnode hl hr
  have h : s.Degenerate v := ⟨hnc, hnode, hl, hr⟩
  refine ⟨fun he hd hw => ⟨_, exec_ctBuild_running hf he hd hw, ?_, fun u hu => ?_⟩, fun b rest h8 hw hlt hbits => ?_,
    fun h8 hw hle hlen => ?_⟩
  · exact (h.code_buildTable v).trans (if_pos rfl)
  · exact (State.code_eq_nil_iff _ u).mp ((h.code_buildTable u).trans (if_neg hu.symm))
  · obtain ⟨t, hstep, hrest, -, ht⟩ := h.decStep_emits h8 hw hlt hbits
    refine ⟨t.advance, (command_running hf decStep).trans (by rw [hstep]; rfl), ?_, ?_, ?_, ?_, hrest⟩
    · rw [ht]; exact hf
    · rw [ht]; rfl
    · rw [ht]; rfl
    · rw [ht]; rfl
  · obtain ⟨t, hrun, hfcode, hd, ho, hu⟩ := State.Degenerate.decRunBody_emits _ h h8 hw hle rfl hlen
    exact ⟨t.advance, (command_running hf decRunBody).trans (by rw [hrun]; rfl), hfcode.trans hf, hd, ho, hu⟩

end Sys2Proof.Machine
end

section
/-! The encoder (43_encoder R171 to R173): one rule for each outcome of `enc_step`, and the loop of `ENC.RUN` past a run of bytes
that have codes. -/

namespace Sys2Proof.Machine

section
variable {s : State}

/-! ### One byte -/

/-- At the count `enc_step` does nothing (R171). -/
theorem encStep_atCount (h : s.encn ≤ s.encd) : encStep s = .done s := if_pos h

/-- With no byte left there is nothing to pop (R171). -/
theorem encStep_truncated (hlt : s.encd < s.encn) (hi : s.ibs = []) : encStep s = raise .truncEnc s.encd s := by
  rw [encStep, if_neg (BitVec.not_le.mpr hlt), State.popIbs, hi]

section
variable {v : Byte} {rest : List Byte} (hlt : s.encd < s.encn) (hi : s.ibs = v :: rest)
include hlt hi

/-- A byte is popped before its code is looked up (R171). -/
theorem encStep_lookup (hv : s.codeLen v = 0) : encStep s = raise .lookup (v.zeroExtend 64) { s with ibs := rest } := by
  rw [encStep, if_neg (BitVec.not_le.mpr hlt), State.popIbs, hi]
  exact if_pos hv

/-- A byte that has a code is encoded whole (R171). -/
theorem encStep_encodes (hv : s.codeLen v ≠ 0) :
    ∃ t, encStep s = .done t ∧ s.Wrote t (s.code v) ∧
      t = { s with ibs := rest, encd := s.encd + 1, wacc := t.wacc, wfill := t.wfill, obs := t.obs } := by
  obtain ⟨hge, -⟩ | ⟨-, hnil, -⟩ | ⟨u, more, -, hcons, hu, -⟩ | ⟨u, more, t, -, hcons, -, hstep, hwrote, ht⟩ := encStep_cases s
  · exact absurd hlt (BitVec.not_lt.mpr hge)
  · exact absurd (hi.symm.trans hnil) (List.cons_ne_nil v rest)
  · obtain ⟨rfl, -⟩ := List.cons.inj (hi.symm.trans hcons)
    exact absurd hu hv
  · obtain ⟨rfl, rfl⟩ := List.cons.inj (hi.symm.trans hcons)
    exact ⟨t, hstep, hwrote, ht⟩

end

/-- `ENC.STEP` in a running block is one `enc_step` (R173). -/
theorem exec_encStep_running (hf : s.fcode = 0) : exec .encStep s = .next (encStep s).state.advance :=
  command_running hf encStep

/-! ### The loop of `ENC.RUN` -/

/-- At the count the loop does nothing (R172). -/
theorem encRunBody_atCount (h : s.encn ≤ s.encd) : encRunBody s = .done s := by
  rw [encRunBody_eq, if_neg (BitVec.not_lt.mpr h)]

/-- The loop goes on from the state its first iteration leaves (R172). -/
theorem encRunBody_of_encStep {t : State} (hlt : s.encd < s.encn) (h : encStep s = .done t) : encRunBody s = encRunBody t := by
  rw [encRunBody_eq, if_pos hlt, h]

/-- `ENC.RUN` in a running block is the loop (R172). -/
theorem exec_encRun_running (hf : s.fcode = 0) : exec .encRun s = .next (encRunBody s).state.advance :=
  command_running hf encRunBody

end

/-- The loop encodes every leading byte that has a code, as far as the count allows, and goes on after them (R172). -/
theorem encRunBody_encodes (good rest : List Byte) : ∀ {s : State}, s.ibs = good ++ rest →
    s.encd.toNat + good.length ≤ s.encn.toNat → (∀ v ∈ good, s.codeLen v ≠ 0) →
    ∃ t, encRunBody s = encRunBody t ∧ s.Wrote t (good.flatMap s.code) ∧
      t = { s with ibs := rest, encd := s.encd + BitVec.ofNat 64 good.length,
                   wacc := t.wacc, wfill := t.wfill, obs := t.obs } := by
  induction good with
  | nil =>
    intro s hi _ _
    refine ⟨s, rfl, s.wrote_nil, ?_⟩
    rw [← List.nil_append rest, ← hi, List.length_nil, BitVec.add_zero]
  | cons v good ih =>
    intro s hi hcount hcodes
    rw [List.length_cons] at hcount
    obtain ⟨hv, hgood⟩ := List.forall_mem_cons.mp hcodes
    have hlt : s.encd < s.encn := by bv_omega
    obtain ⟨t, hstep, hwrote, ht⟩ := encStep_encodes hlt hi hv
    have hcode : t.code = s.code := by rw [ht]; rfl
    obtain ⟨u, hrun, hmore, hu⟩ := @ih t (by rw [ht]; rfl) (by rw [ht]; bv_omega) (by rw [ht]; exact hgood)
    rw [hcode] at hmore
    refine ⟨u, (encRunBody_of_encStep hlt hstep).trans hrun, hwrote.trans hmore, ?_⟩
    rw [List.length_cons, Nat.add_comm, BitVec.ofNat_add, ← BitVec.add_assoc]
    rw [ht] at hu
    exact hu

/-- `ENC.RUN` with input enough and a code for each byte owed reaches the count and does not flush (R172, R174). -/
theorem exec_encRun_encodes {s : State} {n : Nat} (hf : s.fcode = 0) (hn : s.encd.toNat + n = s.encn.toNat)
    (hlen : n ≤ s.ibs.length) (hcodes : ∀ v ∈ s.ibs.take n, s.codeLen v ≠ 0) :
    ∃ t, exec .encRun s = .next t ∧ s.Wrote t ((s.ibs.take n).flatMap s.code) ∧
      t = { s with ibs := s.ibs.drop n, encd := s.encn, wacc := t.wacc, wfill := t.wfill, obs := t.obs, pc := s.pc + 1 } := by
  have htake : (s.ibs.take n).length = n := List.length_take_of_le hlen
  have hcount : s.encd + BitVec.ofNat 64 n = s.encn := by bv_omega
  obtain ⟨t, hrun, hwrote, ht⟩ := encRunBody_encodes _ _ (List.take_append_drop n s.ibs).symm (by rw [htake, hn]) hcodes
  rw [htake, hcount] at ht
  refine ⟨t.advance, ?_, hwrote, by rw [ht]; rfl⟩
  rw [exec_encRun_running hf, hrun, encRunBody_atCount (by rw [ht]; exact BitVec.le_refl _), done_state]

/-- Settles O37: one rule of `enc_step` for each clause. -/
theorem encStepEncodesOneByte : Obligations.EncStepEncodesOneByte := by
  refine ⟨rfl, fun s hf => ?_⟩
  rw [exec_encStep_running hf]
  refine ⟨fun h => ?_, fun hlt hi => ?_, fun v rest hlt hi hv => ?_, fun v rest hlt hi hv => ?_⟩
  · rw [encStep_atCount h]
    rfl
  · rw [encStep_truncated hlt hi]
    rfl
  · rw [encStep_lookup hlt hi hv]
    rfl
  · obtain ⟨t, hstep, hwrote, ht⟩ := encStep_encodes hlt hi hv
    refine ⟨t.advance, by rw [hstep, done_state], hwrote, ?_⟩
    rw [ht]
    rfl

end Sys2Proof.Machine
end

section
/-! Reading back what was packed: `Unpack` undoes `Pack` up to the padding (20_memory R67), and reads one after another
(40_bit_cursor R122). -/

namespace Sys2Proof.Machine

/-! ### Reading back `Pack` -/

/-- The bits packed into a byte are its low bits. -/
theorem prefix_bits_packByte (pad : Byte) {bits : List Bool} (h : bits.length ≤ 8) :
    bits <+: (List.range 8).map (packByte pad 0 bits).getLsbD := by
  rw [List.prefix_iff_getElem]
  refine ⟨by simpa using h, fun j hj => ?_⟩
  simp [getLsbD_packByte bits pad 0 (by simpa using h), hj]

/-- The bits packed come first when the bytes are unpacked (R67). -/
theorem prefix_unpack_pack (pad : Byte) (bits : List Bool) : bits <+: unpack (pack pad bits) := by
  fun_induction pack with
  | case1 => exact List.prefix_rfl
  | case2 b0 b1 b2 b3 b4 b5 b6 b7 rest ih =>
    rw [unpack_cons, ← (prefix_bits_packByte pad (bits := [b0, b1, b2, b3, b4, b5, b6, b7]) le_rfl).eq_of_length rfl]
    exact (List.prefix_append_right_inj [b0, b1, b2, b3, b4, b5, b6, b7]).mpr ih
  | case3 short h0 h8 =>
    rw [unpack_cons, unpack_nil, List.append_nil]
    have hlen := length_pack pad short
    rw [pack.eq_3 pad short h0 h8, List.length_singleton] at hlen
    exact prefix_bits_packByte pad (by omega)

/-- What is read after the bits packed is padding, fewer than eight bits of it (R67). -/
theorem unpack_pack (pad : Byte) (bits : List Bool) : ∃ padding, unpack (pack pad bits) = bits ++ padding ∧
    padding.length = 8 * ((bits.length + 7) / 8) - bits.length := by
  obtain ⟨padding, h⟩ := prefix_unpack_pack pad bits
  refine ⟨padding, h.symm, ?_⟩
  have hlen := congrArg List.length h
  rw [List.length_append, length_unpack, length_pack] at hlen
  omega

/-! ### The read cursor -/

section
variable {s t : State}

/-- With nothing buffered the unread bits are those of `PBS` (R122). -/
theorem State.unreadBits_of_empty_buffer (h : s.rcnt = 0) : s.unreadBits = unpack s.pbs := by
  simp [State.unreadBits, h]

/-- Reads one after another; `hkeep` says that the later ones leave no byte fetched ahead even if they read nothing (R77). -/
theorem State.Consumed.trans {u : State} {x y : List Bool} (h : s.Consumed t x) (k : t.Consumed u y)
    (hkeep : t.rcnt ≤ 7 → u.rcnt ≤ 7) : s.Consumed u (x ++ y) := by
  obtain ⟨hx, -, h7⟩ := h
  obtain ⟨hy, k8, k7⟩ := k
  refine ⟨by rw [hx, hy, List.append_assoc], k8, fun hne => ?_⟩
  by_cases hnil : y = []
  · exact hkeep (h7 fun hx => hne (by rw [hx, hnil, List.append_nil]))
  · exact k7 hnil

/-- A read leaves at most a whole byte buffered. -/
theorem State.Consumed.rcnt_le {x : List Bool} (h : s.Consumed t x) : t.rcnt ≤ 8 := h.2.1

/-- After a read of some bits no byte is fetched ahead (R77). -/
theorem State.Consumed.rcnt_le_seven {x : List Bool} (h : s.Consumed t x) (hx : x ≠ []) : t.rcnt ≤ 7 := h.2.2 hx

/-- The bits after those consumed are the unread ones. -/
theorem State.Consumed.unreadBits_eq {x rest : List Bool} (h : s.Consumed t x) (hs : s.unreadBits = x ++ rest) :
    t.unreadBits = rest := List.append_cancel_left (h.1.symm.trans hs)

end

end Sys2Proof.Machine
end

section
/-! The decoder on leaf paths (44_decoder R181 to R184): one symbol, the loop of `DEC.RUN` as `DEC.SYM` repeated, and `DEC.RUN` past
a run of symbols. -/

namespace Sys2Proof.Machine

/-! ### One symbol -/

section
variable {s : State} {v : Byte}

/-- With a byte owed, a tree and a bit left, `dec_step` reads that bit and follows its edge (R181). -/
theorem decStep_reads {b : Bool} {rest : List Bool} (h8 : s.rcnt ≤ 8) (hlt : s.decd < s.decm) (h0 : s.nc ≠ 0)
    (hbits : s.unreadBits = b :: rest) : ∃ t, decStep s = .done t ∧ s.Consumed t [b] ∧
      (s.childIsLeaf s.walkNode b = true →
        t = { s with cur := s.walkNode, walk := false, decd := s.decd + 1, dbs := s.dbs ++ [s.child s.walkNode b],
                     rbuf := t.rbuf, rcnt := t.rcnt, pbs := t.pbs }) ∧
      (s.childIsLeaf s.walkNode b = false →
        t = { s with cur := s.child s.walkNode b, walk := true, rbuf := t.rbuf, rcnt := t.rcnt, pbs := t.pbs }) := by
  obtain ⟨hge, -⟩ | ⟨-, hnil, -⟩ | ⟨-, -, hr, hp, -⟩ | ⟨c, t, -, -, hstep, -, -, hread, hleaf, hnode⟩ := decStep_cases s
  · exact absurd hlt (BitVec.not_lt.mpr hge)
  · exact absurd hnil h0
  · rw [s.unreadBits_eq_nil_iff.mpr ⟨hr, hp⟩] at hbits
    cases hbits
  · obtain ⟨hcons, h7⟩ := hread h8
    obtain ⟨rfl, -⟩ := List.cons.inj (hcons.symm.trans hbits)
    exact ⟨t, hstep, ⟨hcons, BitVec.le_trans h7 (by decide), fun _ => h7⟩, hleaf, hnode⟩

/-- One `dec_step` that ends the symbol is the whole of the loop of `DEC.SYM` (R184). -/
theorem decSymBody_of_leaf {t : State} (hlt : s.decd < s.decm) (h : decStep s = .done t) (hw : t.walk = false) :
    decSymBody s = .done t := by
  rw [decSymBody_eq, if_pos hlt, h]
  simp only [hw, Bool.false_eq_true, if_false]

/-- A `dec_step` that moves to a child node leaves the rest of the symbol to the loop (R184). -/
theorem decSymBody_of_node {t : State} (hlt : s.decd < s.decm) (h : decStep s = .done t) (hw : t.walk = true) :
    decSymBody s = decSymBody t := by
  rw [decSymBody_eq, if_pos hlt, h]
  simp only [hw, if_true]

/-- The loop of `DEC.SYM` reads the path to the next literal and emits that literal (R184, R185). -/
theorem decSymBody_decodes {rest : List Bool} (p : List Bool) : ∀ {s : State}, s.rcnt ≤ 8 → s.decd < s.decm → s.nc ≠ 0 →
    s.leafFrom s.walkNode p = some v → s.unreadBits = p ++ rest →
    ∃ t, decSymBody s = .done t ∧ s.Consumed t p ∧
      t = { s with decd := s.decd + 1, walk := false, dbs := s.dbs ++ [v],
                   cur := t.cur, rbuf := t.rbuf, rcnt := t.rcnt, pbs := t.pbs } := by
  induction p with
  | nil => intro s _ _ _ hpath; cases hpath
  | cons b p ih =>
    intro s h8 hlt h0 hpath hbits
    obtain ⟨t, hstep, hread, hleaf, hnode⟩ := decStep_reads h8 hlt h0 hbits
    rw [State.leafFrom] at hpath
    cases hc : s.childIsLeaf s.walkNode b with
    | true =>
      rw [hc, if_pos rfl, Option.ite_none_right_eq_some] at hpath
      obtain ⟨rfl, hv⟩ := hpath
      have ht := hleaf hc
      refine ⟨t, decSymBody_of_leaf hlt hstep (by rw [ht]), hread, ?_⟩
      rw [← Option.some.inj hv, ht]
    | false =>
      rw [hc, if_neg Bool.false_ne_true] at hpath
      have ht := hnode hc
      have hwalk : t.walk = true := by rw [ht]
      have hcur : t.walkNode = s.child s.walkNode b := by rw [State.walkNode, hwalk, if_pos rfl, ht]
      have htree : t.leafFrom t.walkNode p = some v := by
        rw [hcur, ← hpath]
        exact State.leafFrom_congr (by rw [ht]) (by rw [ht]) (by rw [ht]) p _
      obtain ⟨u, hsym, hmore, hu⟩ := @ih t hread.rcnt_le (by rw [ht]; exact hlt) (by rw [ht]; exact h0)
        htree (hread.unreadBits_eq hbits)
      refine ⟨u, (decSymBody_of_node hlt hstep hwalk).trans hsym,
        hread.trans hmore fun _ => hmore.rcnt_le_seven (State.leafFrom_ne_nil hpath), ?_⟩
      rw [ht] at hu
      exact hu

/-! ### The loop of `DEC.RUN` -/

/-- At the count the loop does nothing (R183). -/
theorem decRunBody_atCount (h : s.decm ≤ s.decd) : decRunBody s = .done s := by
  rw [decRunBody_eq, if_neg (BitVec.not_lt.mpr h)]

/-- The loop goes on from the state its first iteration leaves (R183). -/
theorem decRunBody_of_decStep {t : State} (hlt : s.decd < s.decm) (h : decStep s = .done t) : decRunBody s = decRunBody t := by
  rw [decRunBody_eq, if_pos hlt, h]

end

/-- `DEC.SYM` and then `DEC.RUN` do what `DEC.RUN` does (R184). -/
theorem decRunBody_of_decSymBody {t : State} : ∀ {s : State}, decSymBody s = .done t → decRunBody s = decRunBody t := by
  intro s h
  induction hn : s.bitsLeft using Nat.strongRecOn generalizing s with
  | ind n ih =>
    rw [decSymBody_eq] at h
    split at h
    · rename_i hlt
      cases hstep : decStep s with
      | raised u => rw [hstep] at h; cases h
      | done u =>
        rw [decRunBody_of_decStep hlt hstep]
        simp only [hstep] at h
        split at h
        · have hbits := decStep_bitsLeft hlt hstep
          exact ih u.bitsLeft (by omega) h rfl
        · cases h
          rfl
    · cases h
      rfl

/-- Between symbols the loop of `DEC.RUN` decodes every leading leaf path, as far as the count allows, and goes on after them
(R183). -/
theorem decRunBody_decodes {ps : List (List Bool)} {vs : List Byte} {rest : List Bool} : ∀ {s : State},
    List.Forall₂ (fun p v => s.leafValue p = some v) ps vs → s.rcnt ≤ 8 → s.walk = false →
    s.decd.toNat + vs.length ≤ s.decm.toNat → s.unreadBits = ps.flatten ++ rest →
    ∃ t, decRunBody s = decRunBody t ∧ s.Consumed t ps.flatten ∧ (s.rcnt ≤ 7 → t.rcnt ≤ 7) ∧
      t = { s with decd := s.decd + BitVec.ofNat 64 vs.length, dbs := s.dbs ++ vs,
                   cur := t.cur, rbuf := t.rbuf, rcnt := t.rcnt, pbs := t.pbs } := by
  induction vs generalizing ps with
  | nil =>
    intro s hpaths h8 _ _ _
    obtain rfl := List.forall₂_nil_right_iff.mp hpaths
    exact ⟨s, rfl, ⟨rfl, h8, fun h => absurd rfl h⟩, id, by rw [List.length_nil, BitVec.add_zero, List.append_nil]⟩
  | cons v vs ih =>
    intro s hpaths h8 hwalk hcount hbits
    obtain ⟨p, qs, hp, hqs, rfl⟩ := List.forall₂_cons_right_iff.mp hpaths
    obtain ⟨h0, hleaf⟩ := (s.leafValue_eq_some_iff p v).mp hp
    rw [List.length_cons] at hcount
    rw [List.flatten_cons, List.append_assoc] at hbits
    obtain ⟨t, hsym, hread, ht⟩ := decSymBody_decodes p h8 (by bv_omega) h0 (by rw [State.walkNode, hwalk]; exact hleaf) hbits
    have hpath : t.leafValue = s.leafValue :=
      funext (State.leafValue_congr (by rw [ht]) (by rw [ht]) (by rw [ht]) (by rw [ht]))
    have h7 := hread.rcnt_le_seven (State.leafFrom_ne_nil hleaf)
    obtain ⟨u, hrun, hmore, hkeep, hu⟩ := @ih qs t (by rw [hpath]; exact hqs) hread.rcnt_le (by rw [ht]) (by rw [ht]; bv_omega)
      (hread.unreadBits_eq hbits)
    refine ⟨u, (decRunBody_of_decSymBody hsym).trans hrun, hread.trans hmore hkeep, fun _ => hkeep h7, ?_⟩
    rw [List.length_cons, Nat.add_comm, BitVec.ofNat_add, ← BitVec.add_assoc, ← List.singleton_append, ← List.append_assoc]
    rw [ht, ← hwalk] at hu
    exact hu

/-- `DEC.RUN` in a running block is the loop (R183). -/
theorem exec_decRun_running {s : State} (hf : s.fcode = 0) : exec .decRun s = .next (decRunBody s).state.advance :=
  command_running hf decRunBody

/-- `DEC.RUN` on as many leaf paths as bytes are owed decodes them and reaches the count (R183). -/
theorem exec_decRun_decodes {s : State} {ps : List (List Bool)} {vs : List Byte} {rest : List Bool} (hf : s.fcode = 0)
    (h8 : s.rcnt ≤ 8) (hw : s.walk = false) (hn : s.decd.toNat + vs.length = s.decm.toNat)
    (hpaths : List.Forall₂ (fun p v => s.leafValue p = some v) ps vs) (hbits : s.unreadBits = ps.flatten ++ rest) :
    ∃ t, exec .decRun s = .next t ∧ s.Consumed t ps.flatten ∧
      t = { s with decd := s.decm, dbs := s.dbs ++ vs, cur := t.cur, rbuf := t.rbuf, rcnt := t.rcnt, pbs := t.pbs,
                   pc := s.pc + 1 } := by
  have hcount : s.decd + BitVec.ofNat 64 vs.length = s.decm := by bv_omega
  obtain ⟨t, hrun, hread, -, ht⟩ := decRunBody_decodes hpaths h8 hw hn.le hbits
  rw [hcount] at ht
  refine ⟨t.advance, ?_, hread, by rw [ht]; rfl⟩
  rw [exec_decRun_running hf, hrun, decRunBody_atCount (by rw [ht]; exact BitVec.le_refl _), done_state]

end Sys2Proof.Machine
end

section
/-! The round trip (43_encoder R174, R175): what an encoding session builds and pushes, and a decoding session on it. -/

namespace Sys2Proof.Machine

/-- An encoding session run to its count and flushed has not faulted, and has pushed `Pack` of the codes of its input (R174). -/
theorem exec_encRun_bwFlush_obs {s b c : State} {n : Nat} (hf : s.fcode = 0) (h0 : s.wfill = 0)
    (hn : s.encd.toNat + n = s.encn.toNat) (hlen : n ≤ s.ibs.length) (hcodes : ∀ v ∈ s.ibs.take n, s.codeLen v ≠ 0)
    (hrun : exec .encRun s = .next b) (hflush : exec .bwFlush b = .next c) :
    b.fcode = 0 ∧ ∃ pad, c.obs = s.obs ++ pack pad ((s.ibs.take n).flatMap s.code) := by
  obtain ⟨t, hexec, hwrote, ht⟩ := exec_encRun_encodes hf hn hlen hcodes
  obtain rfl := Host.Outcome.next.inj (hexec.symm.trans hrun)
  have hb : t.fcode = 0 := by rw [ht]; exact hf
  obtain rfl := Host.Outcome.next.inj ((exec_bwFlush_running hb).symm.trans hflush)
  exact ⟨hb, _, hwrote.flush_obs h0⟩

/-- `CT.BUILD` on a well-formed tree writes the table only, and the codes it writes are leaf paths (R160, R162). -/
theorem exec_ctBuild_table {s a : State} (hwf : s.TreeWF) (hf : s.fcode = 0) (he : s.encd = 0) (hd : s.decd = 0)
    (hw : s.walk = false) (h : exec .ctBuild s = .next a) :
    a = { s with ctLen := a.ctLen, ctBits := a.ctBits, pc := s.pc + 1 } ∧
      ∀ v, a.codeLen v ≠ 0 → s.leafValue (a.code v) = some v := by
  obtain rfl := Host.Outcome.next.inj ((exec_ctBuild_running hf he hd hw).symm.trans h)
  exact ⟨congrArg State.advance s.buildTable_frame, fun v hv => (State.code_buildTable_least hwf hv).1⟩

/-- Settles O51: the codes are leaf paths of the tree (`exec_ctBuild_table`), the bytes pushed are `Pack` of the codes
(`exec_encRun_bwFlush_obs`), unpacking gives the codes back before the padding (`unpack_pack`), and `DEC.RUN` decodes leaf paths
(`exec_decRun_decodes`). -/
theorem compressThenDecompress : Obligations.CompressThenDecompress := by
  intro s a b c d n hwf hf he hd hw h0 hn hlen hbuild hcodes hrun hflush hdf hnc hnode hll hrl hdecm hdecd hdw hr hobs
  obtain ⟨ha, hpath⟩ := exec_ctBuild_table hwf hf he hd hw hbuild
  have hibs : a.ibs = s.ibs := by rw [ha]
  have haobs : a.obs = s.obs := by rw [ha]
  obtain ⟨hb, pad, hpack⟩ := exec_encRun_bwFlush_obs (s := a) (n := n) (by rw [ha]; exact hf) (by rw [ha]; exact h0)
    (by rw [ha, he, hn]; exact Nat.zero_add _) (by rw [hibs]; exact hlen) (by rw [hibs]; exact hcodes) hrun hflush
  rw [hibs, haobs] at hpack
  have hpbs : d.pbs = pack pad ((s.ibs.take n).flatMap a.code) := List.append_cancel_left (hobs.symm.trans hpack)
  obtain ⟨padding, hunpack, hlength⟩ := unpack_pack pad ((s.ibs.take n).flatMap a.code)
  have hbits : d.unreadBits = (s.ibs.take n).flatMap a.code ++ padding := by
    rw [State.unreadBits_of_empty_buffer hr, hpbs, hunpack]
  have hpaths : List.Forall₂ (fun p v => d.leafValue p = some v) ((s.ibs.take n).map a.code) (s.ibs.take n) := by
    rw [List.forall₂_map_left_iff, List.forall₂_same]
    intro v hv
    rw [State.leafValue_congr hnc hnode hll hrl]
    exact hpath v (hcodes v hv)
  obtain ⟨t, hdec, hread, ht⟩ := exec_decRun_decodes hdf (by rw [hr]; decide) hdw
    (by rw [hdecd, hdecm, List.length_take_of_le hlen, hn]; exact Nat.zero_add _) hpaths hbits
  exact ⟨t, padding, hdec, hb, by rw [ht]; exact hdf, by rw [ht], hbits, hread.unreadBits_eq hbits, by omega⟩

end Sys2Proof.Machine
end

section
/-! One step of the decoder (44_decoder R181, R182): the three outcomes of `dec_step` that read no bit, and `DEC.STEP`. -/

namespace Sys2Proof.Machine

section
variable {s : State}

/-- At the count `dec_step` does nothing (R181). -/
theorem decStep_atCount (h : s.decm ≤ s.decd) : decStep s = .done s := if_pos h

section
variable (hlt : s.decd < s.decm)
include hlt

/-- A byte owed and no tree (R181, R190). -/
theorem decStep_noTree (h0 : s.nc = 0) : decStep s = raise .noTree 0 s := by
  rw [decStep, if_neg (BitVec.not_le.mpr hlt), if_pos h0]

/-- A byte owed, a tree and no bit left: the walk stays at its node (R181). -/
theorem decStep_truncated (h0 : s.nc ≠ 0) (hbits : s.unreadBits = []) :
    decStep s = raise .truncDec s.decd { s with cur := s.walkNode, walk := true } := by
  have hnone : ({ s with cur := s.walkNode, walk := true } : State).nextBit = none :=
    (State.nextBit_none_iff _).mpr (s.unreadBits_eq_nil_iff.mp hbits)
  rw [decStep, if_neg (BitVec.not_le.mpr hlt), if_neg h0, s.startSymbol_eq, hnone]

end

/-- `DEC.STEP` in a running block is one `dec_step` (R182). -/
theorem exec_decStep_running (hf : s.fcode = 0) : exec .decStep s = .next (decStep s).state.advance :=
  command_running hf decStep

end

/-- Settles O42: one rule of `dec_step` for each clause, `decStep_reads` where a bit is left. -/
theorem decStepMovesOneEdge : Obligations.DecStepMovesOneEdge := by
  refine ⟨rfl, fun s hf h8 => ?_⟩
  rw [exec_decStep_running hf]
  refine ⟨fun h => ?_, fun hlt h0 => ?_, fun hlt h0 hnil => ?_, fun b rest hlt h0 hbits => ?_⟩
  · rw [decStep_atCount h]
    rfl
  · rw [decStep_noTree hlt h0]
    rfl
  · rw [decStep_truncated hlt h0 hnil]
    rfl
  · obtain ⟨t, hstep, hread, hleaf, hnode⟩ := decStep_reads h8 hlt h0 hbits
    exact ⟨t.advance, by rw [hstep]; rfl, hread, hread.unreadBits_eq hbits, fun hc => congrArg State.advance (hleaf hc),
      fun hc => congrArg State.advance (hnode hc)⟩

end Sys2Proof.Machine
end

section
/-! Which causes a command can record (60_exceptions R208): the causes of each pseudocode, and of `NO_TREE` the condition too
(44_decoder R190). -/

namespace Sys2Proof.Machine

/-- A pseudocode that ends normally has left `FCODE` at `code`, and one that raises has recorded one of these causes. -/
def Flow.FaultsOnlyWith (causes : List Cause) (code : Byte) : Flow → Prop
  | .done t => t.fcode = code
  | .raised t => ∃ c ∈ causes, t.fcode = c.code

/-- A raise records its cause, whatever the state it abandons. -/
theorem raise_faultsOnlyWith {causes : List Cause} {c : Cause} (h : c ∈ causes) (code : Byte) (info : Word64) (s : State) :
    (raise c info s).FaultsOnlyWith causes code := ⟨c, h, rfl⟩

/-- In a running block a command records a cause of its pseudocode or none. -/
theorem command_fcode {causes : List Cause} {body : State → Flow} {s t : State} (hf : s.fcode = 0)
    (h : command body s = .next t) (hb : (body s).FaultsOnlyWith causes s.fcode) :
    t.fcode = 0 ∨ ∃ c ∈ causes, t.fcode = c.code := by
  obtain rfl := Host.Outcome.next.inj ((command_running hf body).symm.trans h)
  cases hu : body s with
  | done u => rw [hu, hf] at hb; exact .inl hb
  | raised u => rw [hu] at hb; exact .inr hb

/-! ### Configuration and the cursors -/

/-- The shape of the three guards of R141: `SEQ` beside the causes of the guarded pseudocode. -/
theorem guard_faultsOnlyWith (i : Instr) (started : State → Bool) {causes : List Cause} {body : State → Flow} {s : State}
    (h : (body s).FaultsOnlyWith causes s.fcode) :
    (if started s then raiseWord .seq i s else body s).FaultsOnlyWith (.seq :: causes) s.fcode := by
  split
  · exact raise_faultsOnlyWith List.mem_cons_self _ _ _
  · cases hb : body s with
    | done u => rw [hb] at h; exact h
    | raised u =>
      rw [hb] at h
      obtain ⟨c, hc, hcode⟩ := h
      exact ⟨c, List.mem_cons_of_mem _ hc, hcode⟩

section
variable {i : Instr} {causes : List Cause} {body : State → Flow} {s t : State} (hf : s.fcode = 0)
include hf

/-- In a running block a guarded command records `SEQ`, a cause of its pseudocode or none (R141). -/
theorem command_guardTree_fcode (h : command (guardTree i body) s = .next t) (hb : (body s).FaultsOnlyWith causes s.fcode) :
    t.fcode = 0 ∨ ∃ c ∈ .seq :: causes, t.fcode = c.code :=
  command_fcode hf h (guard_faultsOnlyWith i (fun s => s.encStarted || s.decStarted) hb)

theorem command_guardEnc_fcode (h : command (guardEnc i body) s = .next t) (hb : (body s).FaultsOnlyWith causes s.fcode) :
    t.fcode = 0 ∨ ∃ c ∈ .seq :: causes, t.fcode = c.code :=
  command_fcode hf h (guard_faultsOnlyWith i State.encStarted hb)

theorem command_guardDec_fcode (h : command (guardDec i body) s = .next t) (hb : (body s).FaultsOnlyWith causes s.fcode) :
    t.fcode = 0 ∨ ∃ c ∈ .seq :: causes, t.fcode = c.code :=
  command_fcode hf h (guard_faultsOnlyWith i State.decStarted hb)

end

/-- The two tests of `TR.PUSH` (R144, R146). -/
theorem trPushBody_faultsOnlyWith (l r : Byte) (ll rl : Bool) (s : State) :
    (trPushBody l r ll rl s).FaultsOnlyWith [.treeFull, .treeInvalid] s.fcode := by
  unfold trPushBody
  split
  · exact raise_faultsOnlyWith (by decide) _ _ _
  · split
    · exact raise_faultsOnlyWith (by decide) _ _ _
    · rfl

/-- The one test of `BR.BIT` (R125). -/
theorem brBitBody_faultsOnlyWith (s : State) : (brBitBody s).FaultsOnlyWith [.rdAtEnd] s.fcode := by
  unfold brBitBody
  cases hn : s.nextBit with
  | none => exact raise_faultsOnlyWith (by decide) _ _ _
  | some x =>
    obtain ⟨hframe, -⟩ := State.nextBit_some hn
    exact (congrArg State.fcode hframe :)

@[simp] theorem State.flush_fcode (s : State) : s.flush.fcode = s.fcode := by
  obtain ⟨-, h⟩ | ⟨-, v, h, -⟩ := s.flush_cases <;> rw [h]

@[simp] theorem State.readCsr_fcode (s : State) (c : Csr) : (s.readCsr c).fcode = s.fcode := by cases c <;> rfl

/-! ### The encoder -/

/-- The two faults of `enc_step` (R171). -/
theorem encStep_faultsOnlyWith (s : State) : (encStep s).FaultsOnlyWith [.lookup, .truncEnc] s.fcode := by
  obtain ⟨-, h⟩ | ⟨-, -, h⟩ | ⟨_, _, -, -, -, h⟩ | ⟨_, _, t, -, -, -, h, -, ht⟩ := encStep_cases s <;> rw [h]
  · rfl
  · exact raise_faultsOnlyWith (by decide) _ _ _
  · exact raise_faultsOnlyWith (by decide) _ _ _
  · exact (congrArg State.fcode ht :)

/-- The loop of `ENC.RUN` raises what its `enc_step` raises (R172). -/
theorem encRunBody_faultsOnlyWith (s : State) : (encRunBody s).FaultsOnlyWith [.lookup, .truncEnc] s.fcode := by
  have hkeep (t u : State) (ht : t.fcode = s.fcode) (_ : t.encd < t.encn) (h : encStep t = .done u) : u.fcode = s.fcode := by
    have hu := encStep_faultsOnlyWith t
    rw [h] at hu
    exact hu.trans ht
  obtain ⟨t, ht, -, h⟩ | ⟨t, u, -, -, hu, h⟩ := encRunBody_induction hkeep s rfl <;> rw [h]
  · exact ht
  · have := encStep_faultsOnlyWith t
    rw [hu] at this
    exact this

/-! ### The decoder -/

/-- The one cause a decoder command can raise, which depends on the tree alone (R181, R190). -/
def State.decoderCause (s : State) : Cause := if s.nc = 0 then .noTree else .truncDec

/-- A `dec_step` that does not raise writes the decoder's count, its walker, its output and the read cursor only (R181). -/
theorem decStep_frame {s t : State} (h : decStep s = .done t) :
    t = { s with decd := t.decd, cur := t.cur, walk := t.walk, rbuf := t.rbuf, rcnt := t.rcnt, pbs := t.pbs, dbs := t.dbs } := by
  obtain ⟨-, k⟩ | ⟨-, -, k⟩ | ⟨-, -, -, -, k⟩ | ⟨b, u, -, -, k, -, -, -, hleaf, hnode⟩ := decStep_cases s
  · cases k.symm.trans h; rfl
  · cases k.symm.trans h
  · cases k.symm.trans h
  · cases k.symm.trans h
    cases hc : s.childIsLeaf s.walkNode b with
    | true => rw [hleaf hc]
    | false => rw [hnode hc]

/-- The fault of `dec_step` (R181). -/
theorem decStep_faultsOnlyWith (s : State) : (decStep s).FaultsOnlyWith [s.decoderCause] s.fcode := by
  obtain ⟨-, h⟩ | ⟨-, h0, h⟩ | ⟨-, h0, -, -, h⟩ | ⟨_, t, -, -, h, -⟩ := decStep_cases s
  · rw [h]
    rfl
  · rw [h, State.decoderCause, if_pos h0]
    exact raise_faultsOnlyWith List.mem_cons_self _ _ _
  · rw [h, State.decoderCause, if_neg h0]
    exact raise_faultsOnlyWith List.mem_cons_self _ _ _
  · rw [h]
    exact (congrArg State.fcode (decStep_frame h) :)

/-- A property of the state that one `dec_step` keeps is kept by the whole loop of `DEC.SYM`. -/
theorem decSymBody_induction {P : State → Prop} (hd : ∀ s t, P s → s.decd < s.decm → decStep s = .done t → P t) (s : State)
    (hs : P s) : (∃ t, P t ∧ decSymBody s = .done t) ∨
      ∃ t u, P t ∧ t.decd < t.decm ∧ decStep t = .raised u ∧ decSymBody s = .raised u := by
  induction hn : s.bitsLeft using Nat.strongRecOn generalizing s with
  | ind n ih =>
    rw [decSymBody_eq]
    split
    · rename_i hlt
      cases h : decStep s with
      | raised u => exact .inr ⟨s, u, hs, hlt, h, rfl⟩
      | done t =>
        have hbits := decStep_bitsLeft hlt h
        have ht := hd s t hs hlt h
        dsimp only
        split
        · exact ih t.bitsLeft (by omega) t ht rfl
        · exact .inl ⟨t, ht, rfl⟩
    · exact .inl ⟨s, hs, rfl⟩

/-- The loops of the decoder go through states with the tree and the `FCODE` of their start. -/
theorem decStep_keeps_nc_fcode (s t u : State) (ht : t.nc = s.nc ∧ t.fcode = s.fcode) (_ : t.decd < t.decm)
    (h : decStep t = .done u) : u.nc = s.nc ∧ u.fcode = s.fcode := by
  rw [decStep_frame h]
  exact ht

/-- A raise out of a loop of the decoder is the raise of a `dec_step` on the same tree. -/
theorem raised_faultsOnlyWith_of_decStep {s t u : State} (hnc : t.nc = s.nc) (h : decStep t = .raised u) :
    (Flow.raised u).FaultsOnlyWith [s.decoderCause] s.fcode := by
  have hu := decStep_faultsOnlyWith t
  rw [h, State.decoderCause, hnc] at hu
  exact hu

/-- The loop of `DEC.RUN` raises what its `dec_step` raises (R183). -/
theorem decRunBody_faultsOnlyWith (s : State) : (decRunBody s).FaultsOnlyWith [s.decoderCause] s.fcode := by
  obtain ⟨t, ht, -, h⟩ | ⟨t, u, ht, -, hu, h⟩ := decRunBody_induction (decStep_keeps_nc_fcode s) s ⟨rfl, rfl⟩ <;> rw [h]
  · exact ht.2
  · exact raised_faultsOnlyWith_of_decStep ht.1 hu

/-- The loop of `DEC.SYM` raises what its `dec_step` raises (R184). -/
theorem decSymBody_faultsOnlyWith (s : State) : (decSymBody s).FaultsOnlyWith [s.decoderCause] s.fcode := by
  obtain ⟨t, ht, h⟩ | ⟨t, u, ht, -, hu, h⟩ := decSymBody_induction (decStep_keeps_nc_fcode s) s ⟨rfl, rfl⟩ <;> rw [h]
  · exact ht.2
  · exact raised_faultsOnlyWith_of_decStep ht.1 hu

/-! ### Every command -/

/-- The causes a command can record in state `s`, as the table of R208 lists them, with `NO_TREE` and `TRUNC_DEC` told apart by
the tree. -/
def State.faultCauses (s : State) : Instr → List Cause
  | .rd _ => [.illegalCmd]
  | .trClr | .ctBuild | .setnLo _ | .setnHi _ | .setmLo _ | .setmHi _ => [.seq]
  | .trPush _ _ _ _ => [.seq, .treeFull, .treeInvalid]
  | .brBit => [.rdAtEnd]
  | .encStep | .encRun => [.lookup, .truncEnc]
  | .decStep | .decSym | .decRun => [s.decoderCause]
  | .reset | .brEnd | .bwBit _ | .bwFlush => []

/-- In a running block a command records a cause of its row of R208 or none. -/
theorem exec_fcode {i : Instr} {s t : State} (hf : s.fcode = 0) (h : exec i s = .next t) :
    t.fcode = 0 ∨ ∃ c ∈ s.faultCauses i, t.fcode = c.code := by
  cases i with
  | reset =>
    obtain rfl := Host.Outcome.next.inj h
    exact .inl rfl
  | rd csr =>
    change execRd csr s = .next t at h
    unfold execRd at h
    split at h
    · obtain rfl := Host.Outcome.next.inj h
      exact .inl ((s.readCsr_fcode _).trans hf)
    · exact command_fcode hf h (raise_faultsOnlyWith List.mem_cons_self _ _ _)
  | trClr => exact command_guardTree_fcode hf h rfl
  | trPush l r ll rl => exact command_guardTree_fcode hf h (trPushBody_faultsOnlyWith l r ll rl s)
  | ctBuild => exact command_guardTree_fcode hf h (congrArg State.fcode s.buildTable_frame :)
  | setnLo imm => exact command_guardEnc_fcode hf h rfl
  | setnHi imm => exact command_guardEnc_fcode hf h rfl
  | setmLo imm => exact command_guardDec_fcode hf h rfl
  | setmHi imm => exact command_guardDec_fcode hf h rfl
  | brBit => exact command_fcode hf h (brBitBody_faultsOnlyWith s)
  | brEnd => exact command_fcode (body := fun s => .done (s.pushRsp (if s.atEnd then 1 else 0))) hf h rfl
  | bwBit b => exact command_fcode (body := fun s => .done (s.putBit b)) hf h (congrArg State.fcode (s.putBit_frame b) :)
  | bwFlush => exact command_fcode (body := fun s => .done s.flush) hf h s.flush_fcode
  | encStep => exact command_fcode hf h (encStep_faultsOnlyWith s)
  | encRun => exact command_fcode hf h (encRunBody_faultsOnlyWith s)
  | decStep => exact command_fcode hf h (decStep_faultsOnlyWith s)
  | decSym => exact command_fcode hf h (decSymBody_faultsOnlyWith s)
  | decRun => exact command_fcode hf h (decRunBody_faultsOnlyWith s)

end Sys2Proof.Machine
end

section
/-! `NO_TREE` (44_decoder R190): the three decoder commands at the count and with no tree. -/

namespace Sys2Proof.Machine

/-- At the count the loop of `DEC.SYM` is not entered (R184). -/
theorem decSymBody_atCount {s : State} (h : s.decm ≤ s.decd) : decSymBody s = .done s := if_pos h

/-- Of the causes only `NO_TREE` has code 5 (R208). -/
theorem Cause.eq_noTree_of_code {c : Cause} (h : c.code = 5) : c = .noTree := by
  cases c with
  | noTree => rfl
  | _ => exact absurd h (by decide)

/-- `NO_TREE` is a cause of the decoder commands alone, and of those with no tree alone (R208). -/
theorem noTree_mem_faultCauses_iff (s : State) (i : Instr) :
    .noTree ∈ s.faultCauses i ↔ (i = .decStep ∨ i = .decSym ∨ i = .decRun) ∧ s.nc = 0 := by
  have hcause : .noTree = s.decoderCause ↔ s.nc = 0 := by
    unfold State.decoderCause
    split <;> simp_all
  cases i <;> simp [State.faultCauses, hcause]

section
variable {s : State} {i : Instr} (hi : i = .decStep ∨ i = .decSym ∨ i = .decRun) (hf : s.fcode = 0)
include hi hf

/-- With the count reached a decoder command does nothing, tree or no tree (R190). -/
theorem exec_decoder_atCount (h : s.decm ≤ s.decd) : exec i s = .next s.passed := by
  obtain rfl | rfl | rfl := hi
  · rw [exec_decStep_running hf, decStep_atCount h]
    rfl
  · refine (command_running hf decSymBody).trans ?_
    rw [decSymBody_atCount h]
    rfl
  · rw [exec_decRun_running hf, decRunBody_atCount h]
    rfl

/-- A byte owed and no tree: the first `dec_step` raises, which ends every decoder command (R190). -/
theorem exec_decoder_noTree (hlt : s.decd < s.decm) (h0 : s.nc = 0) : exec i s = .next (s.faulted 5 0) := by
  have hstep := decStep_noTree hlt h0
  obtain rfl | rfl | rfl := hi
  · rw [exec_decStep_running hf, hstep]
    rfl
  · refine (command_running hf decSymBody).trans ?_
    rw [decSymBody_eq, if_pos hlt, hstep]
    rfl
  · rw [exec_decRun_running hf, decRunBody_eq, if_pos hlt, hstep]
    rfl

end

/-- Settles O48: code 5 comes from a decoder command with no tree (`exec_fcode`, `noTree_mem_faultCauses_iff`), which owed a byte
since at the count it would have passed (`exec_decoder_atCount`). -/
theorem noTreeOnlyWhenAByteIsOwed : Obligations.NoTreeOnlyWhenAByteIsOwed := by
  refine ⟨fun s i hf h0 hi => ⟨fun hlt => exec_decoder_noTree hi hf hlt h0, exec_decoder_atCount hi hf⟩,
    fun s t i hf h h5 => ?_⟩
  obtain hzero | ⟨c, hc, hcode⟩ := exec_fcode hf h
  · exact absurd (hzero.symm.trans h5) (by decide)
  · obtain rfl := Cause.eq_noTree_of_code (hcode.symm.trans h5)
    obtain ⟨hi, h0⟩ := (noTree_mem_faultCauses_iff s i).mp hc
    refine ⟨hi, BitVec.not_le.mp fun hge => ?_, h0⟩
    obtain rfl := Host.Outcome.next.inj ((exec_decoder_atCount hi hf hge).symm.trans h)
    exact absurd (hf.symm.trans h5) (by decide)

end Sys2Proof.Machine
end

section
/-! The system commands (45_system R196 to R198): what a reset leaves of the cursors, the image of each register as its fields
(10_state R33), and `RD` of a defined and of an undefined number. -/

namespace Sys2Proof.Machine

/-! ### `RESET` -/

/-- The bits put since the last whole byte are lost (R196). -/
@[simp] theorem State.pendingBits_toReset (s : State) : s.toReset.pendingBits = [] :=
  s.toReset.pendingBits_eq_nil_iff.mpr s.toReset_wfill

/-- The buffered bits are lost; the next bit read is the first of the next byte on `PBS` (R237). -/
@[simp] theorem State.unreadBits_toReset (s : State) : s.toReset.unreadBits = unpack s.pbs :=
  State.unreadBits_of_empty_buffer s.toReset_rcnt

/-- Settles O13: the state after the frame's count, reset (`exec_reset`), has both cursor buffers empty. -/
theorem resetBeginsASession : Obligations.ResetBeginsASession :=
  ⟨rfl, fun s => ⟨s.advance.toReset, exec_reset s, State.isReset_toReset _, rfl, rfl, rfl, rfl, rfl, rfl, rfl,
    State.pendingBits_toReset _, State.unreadBits_toReset _⟩⟩

/-! ### Register images -/

/-- The word of `RD csr` is `0x02000000` followed by `csr` (R197). -/
theorem encode_rd (csr : Byte) : encode (.rd csr) = (0x02000000#32 ++ csr : BitVec 40) :=
  (BitVec.append_assoc' (x₁ := 0x02#8) (x₂ := 0#24) (x₃ := csr) :)

/-- A byte as the low field of an image, zero above (R33). -/
theorem zeroExtend_byte_eq_append (v : Byte) : v.zeroExtend 64 = (0#56 ++ v : BitVec 64) :=
  BitVec.setWidth_eq_append (by decide)

/-- `at_end()` as a condition on the read cursor (R121). -/
theorem State.atEnd_eq_decide (s : State) : s.atEnd = decide (s.rcnt = 0 ∧ s.pbs = []) :=
  Bool.eq_iff_iff.mpr (s.atEnd_iff.trans decide_eq_true_iff.symm)

/-- The image of `STATUS`, with `ATEND` computed when it is read (R33, R198). -/
theorem State.csrImage_status (s : State) (free : Byte) :
    s.csrImage free .status =
      (0#54 ++ BitVec.ofBool (decide (s.rcnt = 0 ∧ s.pbs = [])) ++ BitVec.ofBool s.walk ++ s.fcode : BitVec 64) := by
  rw [State.csrImage, State.statusImage, State.atEnd_eq_decide]

theorem State.csrImage_nc (s : State) (free : Byte) : s.csrImage free .nc = (0#56 ++ s.nc : BitVec 64) :=
  zeroExtend_byte_eq_append s.nc

theorem State.csrImage_cur (s : State) (free : Byte) : s.csrImage free .cur = (0#56 ++ s.cur : BitVec 64) :=
  zeroExtend_byte_eq_append s.cur

/-- The defined bits of `WCUR` do not depend on the draw (R198). -/
theorem getLsbD_joinAt_wfill (s : State) (free : Byte) {k : Nat} (hk : k < s.wfill.toNat) :
    (joinAt s.wfill.toNat free s.wacc).getLsbD k = s.wacc.getLsbD k := by
  rw [getLsbD_joinAt _ _ _ _ (by omega), if_pos hk]

/-! ### `RD` -/

/-- A defined register is read, halted or not (R197). -/
theorem exec_rd_defined {csr : Byte} {c : Csr} (h : csrOfNumber csr = some c) (s : State) :
    exec (.rd csr) s = .next (s.readCsr c).passed := by
  change execRd csr s = _
  rw [execRd, h]
  rfl

/-- An undefined number is a command that raises `ILLEGAL_CMD` with its own word (R197). -/
theorem exec_rd_undefined {csr : Byte} (h : 0x09 < csr) (s : State) :
    exec (.rd csr) s = command (raiseWord .illegalCmd (.rd csr)) s := by
  change execRd csr s = _
  rw [execRd, (csrOfNumber_eq_none_iff csr).mpr h]

/-- Every register but `WCUR` answers its image and changes nothing else (R197). -/
theorem exec_rd_answers {csr : Byte} {c : Csr} (h : csrOfNumber csr = some c) (hc : c ≠ .wcur) (s : State) :
    exec (.rd csr) s = .next (s.answered (s.csrImage 0 c)) := by
  rw [exec_rd_defined h, State.readCsr, if_neg hc]
  rfl

/-- Settles O14: each number names its register (`exec_rd_answers`), whose image is the fields of R33; `WCUR` is read by itself
because it draws. -/
theorem rdPushesTheImage : Obligations.RdPushesTheImage := by
  refine ⟨encode_rd, fun s => ⟨?status, exec_rd_answers (c := .finfo) rfl (by decide) s, ?nc, ?cur,
    exec_rd_answers (c := .encn) rfl (by decide) s, exec_rd_answers (c := .encd) rfl (by decide) s,
    exec_rd_answers (c := .decm) rfl (by decide) s, exec_rd_answers (c := .decd) rfl (by decide) s,
    exec_rd_answers (c := .rcur) rfl (by decide) s, ?wcur, fun csr h => ⟨fun hf => ?faults, fun hf => ?discarded⟩⟩⟩
  case status => rw [← s.csrImage_status 0, exec_rd_answers (c := .status) rfl (by decide)]
  case nc => rw [← s.csrImage_nc 0, exec_rd_answers (c := .nc) rfl (by decide)]
  case cur => rw [← s.csrImage_cur 0, exec_rd_answers (c := .cur) rfl (by decide)]
  case wcur =>
    exact ⟨joinAt s.wfill.toNat (Config.wcurDraw s.draws) s.wacc, exec_rd_defined (c := .wcur) rfl s,
      fun _ hk => getLsbD_joinAt_wfill s _ hk⟩
  case faults => rw [exec_rd_undefined h, command_running hf, raiseWord_state, recordFault_advance, Cause.code]
  case discarded => rw [exec_rd_undefined h, command_halted hf]

end Sys2Proof.Machine
end

section
/-! The halted block (60_exceptions R206, R210, R213): what it discards, what it still answers, and that of all words only the one
of `RESET` touches the fault record. -/

namespace Sys2Proof.Machine

/-- `RESET` has exactly one word: its row's mask takes every bit (R96). -/
theorem decode_eq_ok_reset_iff (w : CmdWord) : decode w = .ok .reset ↔ w = 0x0100000000 := by
  refine ⟨fun h => ?_, fun h => h ▸ rfl⟩
  have hcovers := (OpcodeRow.covers_iff_decode_mnemonic (r := ⟨"RESET", 0x0100000000, 0xFFFFFFFFFF⟩) (by decide) w).mpr
    ⟨.reset, h, rfl⟩
  rw [OpcodeRow.covers, beq_iff_eq] at hcovers
  exact (BitVec.and_allOnes (x := w)).symm.trans hcovers

/-- The numbers up to 0x09 name registers (R93). -/
theorem exists_csrOfNumber {csr : Byte} (h : csr ≤ 0x09) : ∃ c, csrOfNumber csr = some c :=
  Option.ne_none_iff_exists'.mp fun hnone => BitVec.not_lt.mpr h ((csrOfNumber_eq_none_iff csr).mp hnone)

/-- A step runs the command the word taken decodes to (R206). -/
theorem step_of_decode_ok {s : State} {w : CmdWord} {i : Instr} (hw : s.prog[s.pc]? = some w) (hd : decode w = .ok i) :
    step s = exec i s := by
  simp only [step, stepWith, State.fetch, hw, hd]

/-- A word that is no command goes to the frame's refusal (R206). -/
theorem step_of_decode_error {s : State} {w : CmdWord} {e : DecodeError} (hw : s.prog[s.pc]? = some w)
    (hd : decode w = .error e) : step s = illegalWord w s := by
  simp only [step, stepWith, State.fetch, hw, hd]

section
variable {s : State} (h : s.fcode ≠ 0)
include h

/-- Every command but `RESET` and a `RD` of a defined register has the frame that discards it (R210). -/
theorem exec_halted {i : Instr} (hi : i ≠ .reset) (hrd : ∀ csr, i = .rd csr → 0x09 < csr) : exec i s = .next s.passed := by
  cases i with
  | reset => exact absurd rfl hi
  | rd csr => rw [exec_rd_undefined (hrd csr rfl), command_halted h]
  | brEnd => rw [exec, execBrEnd, command_halted h]
  | bwBit b => rw [exec, execBwBit, command_halted h]
  | bwFlush => rw [exec, execBwFlush, command_halted h]
  | _ => exact command_halted h _

/-- A command other than `RESET` leaves the fault record: it is discarded, or it is a `RD`, which writes only `RSP`. -/
theorem exec_halted_keeps_fault {i : Instr} {t : State} (hi : i ≠ .reset) (ht : exec i s = .next t) :
    t.fcode = s.fcode ∧ t.finfo = s.finfo := by
  by_cases hrd : ∀ csr, i = .rd csr → 0x09 < csr
  · obtain rfl := Host.Outcome.next.inj ((exec_halted h hi hrd).symm.trans ht)
    exact ⟨rfl, rfl⟩
  · push Not at hrd
    obtain ⟨csr, rfl, hcsr⟩ := hrd
    obtain ⟨c, hc⟩ := exists_csrOfNumber (BitVec.not_lt.mp hcsr)
    obtain rfl := Host.Outcome.next.inj ((exec_rd_defined hc s).symm.trans ht)
    obtain ⟨v, hv⟩ := s.readCsr_eq c
    rw [hv]
    exact ⟨rfl, rfl⟩

/-- A step that does not take the word of `RESET` leaves the fault record (R31, R213). -/
theorem step_halted_keeps_fault {t : State} (hst : step s = .next t) (hw : s.prog[s.pc]? ≠ some 0x0100000000) :
    t.fcode = s.fcode ∧ t.finfo = s.finfo := by
  obtain ⟨-, rfl⟩ | ⟨w, i, hfetch, hd, ht⟩ | ⟨w, e, -, -, ⟨-, rfl⟩ | ⟨hf, -⟩⟩ := step_cases hst
  · exact ⟨rfl, rfl⟩
  · refine exec_halted_keeps_fault h (fun hi => hw ?_) ht
    rw [hfetch, (decode_eq_ok_reset_iff w).mp (hi ▸ hd)]
  · exact ⟨rfl, rfl⟩
  · exact absurd hf h

end

/-- A step that takes the word of `RESET` ends in the reset state, halted or not (R196, R206). -/
theorem step_reset {s t : State} (hst : step s = .next t) (hw : s.prog[s.pc]? = some 0x0100000000) : t.IsReset := by
  rw [step_of_decode_ok hw ((decode_eq_ok_reset_iff _).mpr rfl), exec_reset] at hst
  obtain rfl := Host.Outcome.next.inj hst
  exact State.isReset_toReset _

/-- Settles O9: a command or an illegal word in the frame that discards (`exec_halted`, `step_of_decode_error`), and the two
commands outside it (`exec_rd_defined`, `exec_reset`). -/
theorem haltedCommandsAreDiscarded : Obligations.HaltedCommandsAreDiscarded := by
  refine fun s h => ⟨fun _ => exec_halted h, fun w e hw hd => ?illegal, fun csr hcsr => ?read, ⟨_, exec_reset s, rfl⟩⟩
  case illegal => rw [step_of_decode_error hw hd, illegalWord, command_halted h]
  case read =>
    obtain ⟨c, hc⟩ := exists_csrOfNumber hcsr
    exact ⟨c, hc, exec_rd_defined hc s⟩

/-- Settles O10: the two cases of the word taken, `step_halted_keeps_fault` and `step_reset`. -/
theorem onlyResetClearsTheFault : Obligations.OnlyResetClearsTheFault :=
  fun _ _ h hst => ⟨step_halted_keeps_fault h hst, step_reset hst⟩

end Sys2Proof.Machine
end

section
/-! The words of the commands (30_encoding R90 to R97): the encoder and the decoder undo each other format by format, and a word
that is no command is refused for the one of the two reasons of R97 that holds. -/

namespace Sys2Proof

/-! ### Decoding what was encoded -/

theorem decodeC_append (mk : Byte → Instr) (op csr : Byte) : decodeC mk op (0#24 ++ csr : BitVec 32) = .ok (mk csr) := by
  have hreserved : (0#24 ++ csr : BitVec 32).extractLsb' 8 24 = 0 := BitVec.extractLsb'_append_eq_left
  have hcsr : (0#24 ++ csr : BitVec 32).extractLsb' 0 8 = csr := BitVec.extractLsb'_append_eq_right
  rw [decodeC, if_pos hreserved, hcsr]

theorem decodeB_append (mk : Bool → Instr) (op : Byte) (b : Bool) :
    decodeB mk op (0#31 ++ BitVec.ofBool b : BitVec 32) = .ok (mk b) := by cases b <;> rfl

theorem decodeT_append (mk : Byte → Byte → Bool → Bool → Instr) (op l r : Byte) (ll rl : Bool) :
    decodeT mk op (0#14 ++ BitVec.ofBool rl ++ BitVec.ofBool ll ++ r ++ l : BitVec 32) = .ok (mk l r ll rl) := by
  have hreserved : (0#14 ++ BitVec.ofBool rl ++ BitVec.ofBool ll ++ r ++ l : BitVec 32).extractLsb' 18 14 = 0 := by
    iterate 3 rw [BitVec.extractLsb'_append_eq_of_le (by decide)]
    exact BitVec.extractLsb'_append_eq_left
  have hl : (0#14 ++ BitVec.ofBool rl ++ BitVec.ofBool ll ++ r ++ l : BitVec 32).extractLsb' 0 8 = l :=
    BitVec.extractLsb'_append_eq_right
  have hr : (0#14 ++ BitVec.ofBool rl ++ BitVec.ofBool ll ++ r ++ l : BitVec 32).extractLsb' 8 8 = r := by
    rw [BitVec.extractLsb'_append_eq_of_le le_rfl]
    exact BitVec.extractLsb'_append_eq_right
  have hll : (0#14 ++ BitVec.ofBool rl ++ BitVec.ofBool ll ++ r ++ l : BitVec 32).getLsbD 16 = ll := by
    iterate 3 rw [BitVec.getLsbD_append]
    exact BitVec.getLsbD_ofBool ll 0
  have hrl : (0#14 ++ BitVec.ofBool rl ++ BitVec.ofBool ll ++ r ++ l : BitVec 32).getLsbD 17 = rl := by
    iterate 4 rw [BitVec.getLsbD_append]
    exact BitVec.getLsbD_ofBool rl 0
  rw [decodeT, if_pos hreserved, hl, hr, hll, hrl]

/-- Settles O2: the opcode selects the format (`opField_encode`, `argField_encode`), and each format reads the fields its
argument was put together from. -/
theorem decodeEncodeRoundTrip : Obligations.DecodeEncodeRoundTrip := by
  intro i
  rw [decode, opField_encode, argField_encode]
  cases i with
  | rd csr => exact decodeC_append .rd _ csr
  | trPush l r ll rl => exact decodeT_append .trPush _ l r ll rl
  | bwBit b => exact decodeB_append .bwBit _ b
  | _ => rfl

/-! ### Encoding what was decoded -/

theorem ofBool_getLsbD {w : Nat} (x : BitVec w) (k : Nat) : BitVec.ofBool (x.getLsbD k) = x.extractLsb' k 1 := by
  refine BitVec.eq_of_getLsbD_eq fun j hj => ?_
  obtain rfl : j = 0 := by omega
  simp

/-- Where the bits from `n` up are zero, the bits below make up the argument. -/
theorem zero_append_low {m n : Nat} {x : BitVec (m + n)} (h : x.extractLsb' n m = 0#m) : 0#m ++ x.extractLsb' 0 n = x := by
  rw [← h]
  exact BitVec.extractLsb'_append_extractLsb'

/-- What a decoder that tests one condition accepts. -/
theorem eq_of_ite_ok {c : Prop} [Decidable c] {i j : Instr} {e : DecodeError}
    (h : (if c then .ok j else .error e : Except DecodeError Instr) = .ok i) : c ∧ j = i := by
  split at h
  · exact ⟨‹_›, Except.ok.inj h⟩
  · cases h

section
variable {op : Byte} {arg : Arg}

theorem arg_of_decodeZ {i j : Instr} (h : decodeZ j op arg = .ok i) : 0 = arg := (eq_of_ite_ok h).1.symm

theorem arg_of_decodeB {b : Bool} (h : decodeB .bwBit op arg = .ok (.bwBit b)) : argOf (.bwBit b) = arg := by
  obtain ⟨hreserved, hb⟩ := eq_of_ite_ok h
  cases hb
  rw [argOf, ofBool_getLsbD]
  exact zero_append_low (m := 31) (n := 1) hreserved

theorem arg_of_decodeC {csr : Byte} (h : decodeC .rd op arg = .ok (.rd csr)) : argOf (.rd csr) = arg := by
  obtain ⟨hreserved, hcsr⟩ := eq_of_ite_ok h
  cases hcsr
  exact zero_append_low (m := 24) (n := 8) hreserved

theorem arg_of_decodeT {l r : Byte} {ll rl : Bool} (h : decodeT .trPush op arg = .ok (.trPush l r ll rl)) :
    argOf (.trPush l r ll rl) = arg := by
  obtain ⟨hreserved, hfields⟩ := eq_of_ite_ok h
  cases hfields
  rw [argOf, ofBool_getLsbD, ofBool_getLsbD, show 0#14 = arg.extractLsb' 18 14 from hreserved.symm]
  iterate 3 rw [BitVec.extractLsb'_append_extractLsb'_eq_extractLsb' (by decide)]
  exact BitVec.extractLsb'_append_extractLsb' (w := 24) (len := 8)

/-- The argument of a decoded command is the one it was decoded from, the opcode selecting the format (R91). -/
theorem argOf_of_decodeFields {i : Instr} (h : decodeFields op arg = .ok i) : argOf i = arg := by
  obtain rfl := opcodeOf_of_decodeFields h
  cases i with
  | rd csr => exact arg_of_decodeC h
  | trPush l r ll rl => exact arg_of_decodeT h
  | bwBit b => exact arg_of_decodeB h
  | setnLo imm | setnHi imm | setmLo imm | setmHi imm => cases h; rfl
  | _ => exact arg_of_decodeZ h

end

/-- The word of a decoded command is the one it was decoded from (R90). -/
theorem encode_of_decode {w : CmdWord} {i : Instr} (h : decode w = .ok i) : encode i = w :=
  CmdWord.ext_fields ((opField_encode i).trans (opcodeOf_of_decodeFields h))
    ((argField_encode i).trans (argOf_of_decodeFields h))

/-- Settles O3: the opcode and the argument of a decoded command are those of the word (`encode_of_decode`). -/
theorem encodeDecodeRoundTrip : Obligations.EncodeDecodeRoundTrip := fun _ _ h => encode_of_decode h

/-! ### The reason of a refusal -/

/-- A decoder that tests one condition refuses with one reason. -/
theorem eq_of_ite_error {c : Prop} [Decidable c] {i : Instr} {d e : DecodeError}
    (h : (if c then .ok i else .error d : Except DecodeError Instr) = .error e) : e = d := by
  split at h
  · cases h
  · exact (Except.error.inj h).symm

/-- Under an opcode that no row has, every argument is refused for the opcode (R97 (a)). -/
theorem decodeFields_unlisted {op : Byte} (h : ∀ r ∈ opcodeMap, opField r.word ≠ op) (arg : Arg) :
    decodeFields op arg = .error (.unknownOpcode op) := by
  unfold decodeFields
  split
  case h_19 => rfl
  all_goals exact absurd h (by decide)

/-- Under the opcode of a row, an argument is refused for a reserved bit only (R97 (b)). -/
theorem decodeFields_error_of_mem : ∀ r ∈ opcodeMap, ∀ (arg : Arg) (e : DecodeError),
    decodeFields (opField r.word) arg = .error e → e = .reservedBit (opField r.word) := by
  have hw (i : Instr) (op : Byte) (e : DecodeError) (h : (.ok i : Except DecodeError Instr) = .error e) :
      e = .reservedBit op := by cases h
  simp only [opcodeMap, List.forall_mem_append, List.forall_mem_cons, List.not_mem_nil, false_imp_iff, implies_true, and_true]
  exact ⟨⟨fun _ _ => eq_of_ite_error, fun _ _ => eq_of_ite_error, fun _ _ => eq_of_ite_error, fun _ _ => eq_of_ite_error,
      fun _ _ => eq_of_ite_error, fun _ _ => hw _ _ _, fun _ _ => hw _ _ _, fun _ _ => hw _ _ _, fun _ _ => hw _ _ _⟩,
    fun _ _ => eq_of_ite_error, fun _ _ => eq_of_ite_error, fun _ _ => eq_of_ite_error, fun _ _ => eq_of_ite_error,
    fun _ _ => eq_of_ite_error, fun _ _ => eq_of_ite_error, fun _ _ => eq_of_ite_error, fun _ _ => eq_of_ite_error,
    fun _ _ => eq_of_ite_error⟩

theorem CmdWord.opcodeListed_iff (w : CmdWord) : opcodeListed w = true ↔ ∃ r ∈ opcodeMap, opField r.word = opField w := by
  simp [opcodeListed, opField]

/-- No argument bit that a row's mask covers is 1 (R97 (b)). -/
theorem and_mask_low_eq_zero_iff (w mask : CmdWord) : w &&& mask &&& 0xFFFFFFFF = 0 ↔ argField w &&& argField mask = 0 := by
  have hlow : argField (w &&& mask &&& 0xFFFFFFFF) = argField (w &&& mask) := by
    rw [argField_and, show argField 0xFFFFFFFF = BitVec.allOnes 32 from rfl, BitVec.and_allOnes]
  have hhigh : opField (w &&& mask &&& 0xFFFFFFFF) = 0 := by
    rw [opField_and]
    exact BitVec.and_zero
  rw [← argField_and, ← hlow]
  exact ⟨fun h => by rw [h]; rfl, fun h => CmdWord.ext_fields hhigh h⟩

theorem CmdWord.reservedZero_iff {w : CmdWord} {r : OpcodeRow} (hr : r ∈ opcodeMap) (hop : opField r.word = opField w) :
    reservedZero w = true ↔ argField w &&& argField r.mask = 0 := by
  rw [← and_mask_low_eq_zero_iff]
  simp only [reservedZero, List.all_eq_true, Bool.or_eq_true, bne_iff_ne, beq_iff_eq]
  refine ⟨fun h => (h r hr).resolve_left (not_not_intro hop), fun h q hq => ?_⟩
  by_cases hqop : opField q.word = opField w
  · rw [row_eq_of_opField_eq q hq r hr (hqop.trans hop.symm)]
    exact .inr h
  · exact .inl hqop

/-- Settles O5: an opcode of no row is refused as such (`decodeFields_unlisted`); under the opcode of a row the word decodes
exactly when no reserved bit is 1, and is refused for that bit otherwise. -/
theorem decoderNamesTheReason : Obligations.DecoderNamesTheReason := by
  intro w
  change (decode w = .error (.unknownOpcode (opField w)) ↔ _) ∧ (decode w = .error (.reservedBit (opField w)) ↔ _) ∧ _
  by_cases hlisted : CmdWord.opcodeListed w = true
  · obtain ⟨r, hr, hop⟩ := w.opcodeListed_iff.mp hlisted
    have hok : (∃ i, decode w = .ok i) ↔ CmdWord.reservedZero w = true := by
      rw [CmdWord.reservedZero_iff hr hop, ← decodeFields_ok_iff_of_mem r hr, hop, decode]
    have herror (e : DecodeError) (h : decode w = .error e) : e = .reservedBit (opField w) := by
      rw [decode, ← hop] at h
      rw [← hop]
      exact decodeFields_error_of_mem r hr _ e h
    cases hd : decode w with
    | ok i => simp [hlisted, ← hok, hd]
    | error e => simp [hlisted, herror e hd, ← Bool.not_eq_true, ← hok, hd]
  · have hunknown : decode w = .error (.unknownOpcode (opField w)) :=
      decodeFields_unlisted (fun r hr hop => hlisted (w.opcodeListed_iff.mpr ⟨r, hr, hop⟩)) _
    simp [hlisted, hunknown]

/-- Settles O1: each word decodes as written, by evaluation. -/
theorem specWordsDecode : Obligations.SpecWordsDecode := by
  unfold Obligations.SpecWordsDecode
  decide

end Sys2Proof
end

section
/-! What a step can do to the state (10_state R39, R40): every command is a chain of elementary writes, listed once as `Move`. A
property of the state that every elementary write keeps is kept by every step. -/

namespace Sys2Proof.Machine

/-! ### The loops of the engines -/

section
variable {P : State → Prop} {s : State}

/-- What one `enc_step` keeps, whichever way it ends, the loop of `ENC.RUN` keeps (R172). -/
theorem encRunBody_keeps (h : ∀ t, P t → P (encStep t).state) (hs : P s) : P (encRunBody s).state := by
  obtain ⟨t, ht, -, hrun⟩ | ⟨t, u, ht, -, hu, hrun⟩ :=
    encRunBody_induction (fun t u ht _ hu => by simpa [hu] using h t ht) s hs
  · rw [hrun]
    exact ht
  · rw [hrun]
    simpa [hu] using h t ht

/-- What one `dec_step` keeps, whichever way it ends, the loop of `DEC.RUN` keeps (R183). -/
theorem decRunBody_keeps (h : ∀ t, P t → P (decStep t).state) (hs : P s) : P (decRunBody s).state := by
  obtain ⟨t, ht, -, hrun⟩ | ⟨t, u, ht, -, hu, hrun⟩ :=
    decRunBody_induction (fun t u ht _ hu => by simpa [hu] using h t ht) s hs
  · rw [hrun]
    exact ht
  · rw [hrun]
    simpa [hu] using h t ht

/-- What one `dec_step` keeps, whichever way it ends, the loop of `DEC.SYM` keeps (R184). -/
theorem decSymBody_keeps (h : ∀ t, P t → P (decStep t).state) (hs : P s) : P (decSymBody s).state := by
  obtain ⟨t, ht, hrun⟩ | ⟨t, u, ht, -, hu, hrun⟩ :=
    decSymBody_induction (fun t u ht _ hu => by simpa [hu] using h t ht) s hs
  · rw [hrun]
    exact ht
  · rw [hrun]
    simpa [hu] using h t ht

end

/-! ### The elementary writes -/

/-- One elementary write, with what the pseudocode has tested before it. -/
inductive Move : State → State → Prop
  | fault (s : State) (c : Cause) (info : Word64) : Move s (s.recordFault c info)
  | reset (s : State) : Move s s.toReset
  | answer (s : State) (v : Word64) (n : Nat) : Move s { s with rsp := s.rsp ++ [v], draws := n }
  | clearTree (s : State) (hw : s.walk = false) : Move s ({ s with nc := 0 } : State).clearCodes
  | storeNode (s : State) (l r : Byte) (ll rl : Bool) (hw : s.walk = false)
      (hc : ¬ (ll = false ∧ s.nc ≤ l ∨ rl = false ∧ s.nc ≤ r)) : Move s (s.storeNode l r ll rl).clearCodes
  | buildTable (s : State) : Move s s.buildTable
  | setEncn (s : State) (n : Word64) (he : s.encd = 0) : Move s { s with encn := n }
  | setDecm (s : State) (n : Word64) (hd : s.decd = 0) (hw : s.walk = false) : Move s { s with decm := n }
  | readBit {s t : State} {b : Bool} (h : s.nextBit = some (b, t)) : Move s t
  | putBit (s : State) (b : Bool) : Move s (s.putBit b)
  | flush (s : State) : Move s s.flush
  | popByte {s : State} {v : Byte} {rest : List Byte} (h : s.ibs = v :: rest) : Move s { s with ibs := rest }
  | countByte (s : State) (hlt : s.encd < s.encn) : Move s { s with encd := s.encd + 1 }
  | startSymbol (s : State) (hlt : s.decd < s.decm) (h0 : s.nc ≠ 0) : Move s s.startSymbol
  | followBit (s : State) (b : Bool) (hw : s.walk = true) : Move s (s.followBit b)

/-- A chain of elementary writes. -/
abbrev Moves : State → State → Prop := Relation.ReflTransGen Move

/-- A property that every elementary write keeps is kept by a chain of them. -/
theorem Moves.keeps {P : State → Prop} (h : ∀ s t, Move s t → P s → P t) {s t : State} (hm : Moves s t) (hs : P s) : P t := by
  induction hm with
  | refl => exact hs
  | tail _ hmove ih => exact h _ _ hmove ih

/-! ### Every command is a chain -/

/-- The pseudocode is a chain of elementary writes from every state. -/
def IsChain (body : State → Flow) : Prop := ∀ s, Moves s (body s).state

theorem raise_isChain (c : Cause) (info : Word64) : IsChain (raise c info) := fun s => .single (.fault s c info)

/-- A guard of R141 lets the pseudocode run only where the engine concerned has not started. -/
theorem guard_isChain {started : State → Prop} [DecidablePred started] (i : Instr) {body : State → Flow}
    (h : ∀ s, ¬ started s → Moves s (body s).state) (s : State) :
    Moves s (if started s then raiseWord .seq i s else body s).state := by
  split
  · exact raise_isChain _ _ s
  · exact h s ‹_›

theorem guardTree_isChain (i : Instr) {body : State → Flow} (h : ∀ s, s.walk = false → Moves s (body s).state) :
    IsChain (guardTree i body) := fun s => by
  rw [guardTree_eq]
  exact guard_isChain (started := fun s => s.encd ≠ 0 ∨ s.decd ≠ 0 ∨ s.walk = true) i
    (fun s hs => h s (by simpa using fun hw => hs (.inr (.inr hw)))) s

theorem guardEnc_isChain (i : Instr) {body : State → Flow} (h : ∀ s, s.encd = 0 → Moves s (body s).state) :
    IsChain (guardEnc i body) := fun s => by
  rw [guardEnc_eq]
  exact guard_isChain (started := fun s => s.encd ≠ 0) i (fun s hs => h s (not_not.mp hs)) s

theorem guardDec_isChain (i : Instr) {body : State → Flow}
    (h : ∀ s, s.decd = 0 → s.walk = false → Moves s (body s).state) : IsChain (guardDec i body) := fun s => by
  rw [guardDec_eq]
  exact guard_isChain (started := fun s => s.decd ≠ 0 ∨ s.walk = true) i
    (fun s hs => by simp only [not_or, not_not, Bool.not_eq_true] at hs; exact h s hs.1 hs.2) s

theorem trPushBody_isChain (l r : Byte) (ll rl : Bool) (s : State) (hw : s.walk = false) :
    Moves s (trPushBody l r ll rl s).state := by
  unfold trPushBody
  split
  · exact raise_isChain _ _ s
  · split
    · exact raise_isChain _ _ s
    · rename_i hc
      exact .single (.storeNode s l r ll rl hw (mt (s.childInvalid_iff l r ll rl).mpr hc))

theorem brBitBody_isChain : IsChain brBitBody := by
  intro s
  unfold brBitBody
  cases hn : s.nextBit with
  | none => exact raise_isChain _ _ s
  | some x => exact .tail (.single (.readBit hn)) (.answer x.2 _ x.2.draws)

theorem State.putBits_moves (bits : List Bool) : ∀ s : State, Moves s (s.putBits bits) := by
  induction bits with
  | nil => exact fun _ => .refl
  | cons b rest ih => exact fun s => .head (.putBit s b) (ih (s.putBit b))

theorem encStep_isChain : IsChain encStep := by
  intro s
  unfold encStep
  by_cases hge : s.encn ≤ s.encd
  · rw [if_pos hge]
    exact .refl
  rw [if_neg hge]
  obtain ⟨hp, -⟩ | ⟨v, rest, hi, hp⟩ := s.popIbs_eq <;> rw [hp]
  · exact raise_isChain _ _ s
  dsimp only
  have hpop : Moves s { s with ibs := rest } := .single (.popByte hi)
  split
  · exact hpop.trans (raise_isChain _ _ _)
  · obtain ⟨-, hframe⟩ := State.putBits_spec (({ s with ibs := rest } : State).code v) { s with ibs := rest }
    refine (hpop.trans (State.putBits_moves _ _)).tail (.countByte _ ?_)
    rw [hframe]
    exact BitVec.not_le.mp hge

theorem decStep_isChain : IsChain decStep := by
  intro s
  unfold decStep
  by_cases hge : s.decm ≤ s.decd
  · rw [if_pos hge]
    exact .refl
  rw [if_neg hge]
  split
  · exact raise_isChain _ _ s
  have hstart : Moves s s.startSymbol := .single (.startSymbol s (BitVec.not_le.mp hge) ‹_›)
  cases hn : s.startSymbol.nextBit with
  | none => exact hstart.trans (raise_isChain _ _ _)
  | some x =>
    obtain ⟨hframe, -⟩ := State.nextBit_some (t := x.2) (b := x.1) hn
    refine (hstart.tail (.readBit hn)).tail (.followBit _ _ ?_)
    rw [hframe, s.startSymbol_eq]

theorem State.readCsr_moves (s : State) (c : Csr) : Moves s (s.readCsr c) := by
  obtain ⟨v, hv⟩ := s.readCsr_eq c
  rw [hv]
  exact .single (.answer s v _)

/-- A command passes, or it is a chain of elementary writes and counts itself (R206). -/
theorem command_moves {body : State → Flow} {s t : State} (h : command body s = .next t) (hb : IsChain body) :
    ∃ u, Moves s u ∧ t = u.advance := by
  obtain ⟨-, rfl⟩ | ⟨-, rfl⟩ := command_cases h
  · exact ⟨s, .refl, rfl⟩
  · exact ⟨_, hb s, rfl⟩

/-- Every command is a chain of elementary writes and counts itself (R39, R206). -/
theorem exec_moves {i : Instr} {s t : State} (h : exec i s = .next t) : ∃ u, Moves s u ∧ t = u.advance := by
  cases i with
  | reset => exact ⟨s.toReset, .single (.reset s), (Host.Outcome.next.inj h).symm⟩
  | rd csr =>
    cases hc : csrOfNumber csr with
    | none =>
      exact command_moves ((exec_rd_undefined ((csrOfNumber_eq_none_iff csr).mp hc) s).symm.trans h) (raise_isChain _ _)
    | some c => exact ⟨s.readCsr c, s.readCsr_moves c, (Host.Outcome.next.inj ((exec_rd_defined hc s).symm.trans h)).symm⟩
  | trClr => exact command_moves h (guardTree_isChain _ fun s hw => .single (.clearTree s hw))
  | trPush l r ll rl => exact command_moves h (guardTree_isChain _ (trPushBody_isChain l r ll rl))
  | ctBuild => exact command_moves h (guardTree_isChain _ fun s _ => .single (.buildTable s))
  | setnLo imm => exact command_moves h (guardEnc_isChain _ fun s he => .single (.setEncn s _ he))
  | setnHi imm => exact command_moves h (guardEnc_isChain _ fun s he => .single (.setEncn s _ he))
  | setmLo imm => exact command_moves h (guardDec_isChain _ fun s hd hw => .single (.setDecm s _ hd hw))
  | setmHi imm => exact command_moves h (guardDec_isChain _ fun s hd hw => .single (.setDecm s _ hd hw))
  | brBit => exact command_moves h brBitBody_isChain
  | brEnd => exact command_moves (body := fun s => .done (s.pushRsp _)) h (fun s => .single (.answer s _ s.draws))
  | bwBit b => exact command_moves (body := fun s => .done (s.putBit b)) h (fun s => .single (.putBit s b))
  | bwFlush => exact command_moves (body := fun s => .done s.flush) h (fun s => .single (.flush s))
  | encStep => exact command_moves h encStep_isChain
  | encRun =>
    exact command_moves h (fun s => encRunBody_keeps (P := Moves s) (fun t ht => ht.trans (encStep_isChain t)) .refl)
  | decStep => exact command_moves h decStep_isChain
  | decSym =>
    exact command_moves h (fun s => decSymBody_keeps (P := Moves s) (fun t ht => ht.trans (decStep_isChain t)) .refl)
  | decRun =>
    exact command_moves h (fun s => decRunBody_keeps (P := Moves s) (fun t ht => ht.trans (decStep_isChain t)) .refl)

/-- A step idles at the end of `PROG`, or it is a chain of elementary writes and counts the word it took (R206, R243). -/
theorem step_moves {s t : State} (h : step s = .next t) :
    t = s ∨ s.pc < s.prog.length ∧ ∃ u, Moves s u ∧ t = u.advance := by
  obtain ⟨-, rfl⟩ | ⟨w, i, hw, -, ht⟩ | ⟨w, e, hw, -, hrefused⟩ := step_cases h
  · exact .inl rfl
  · exact .inr ⟨(List.getElem?_eq_some_iff.mp hw).1, exec_moves ht⟩
  · refine .inr ⟨(List.getElem?_eq_some_iff.mp hw).1, ?_⟩
    obtain ⟨-, rfl⟩ | ⟨-, rfl⟩ := hrefused
    · exact ⟨s, .refl, rfl⟩
    · exact ⟨_, raise_isChain .illegalCmd (w.zeroExtend 64) s, rfl⟩

end Sys2Proof.Machine
end

section
/-! The invariants (10_state R24, R40): what an elementary write does to the tables, to the counts and the read cursor, and to the
fault record. A step is a chain of such writes, so it keeps the invariants. -/

namespace Sys2Proof.Machine

/-! ### The tables -/

/-- The tree array and the code table. -/
def State.tables (s : State) :
    Byte × Vector Node 256 × Vector Bool 256 × Vector Bool 256 × Vector Byte 256 × Vector CodeBits 256 :=
  (s.nc, s.node, s.lleaf, s.rleaf, s.ctLen, s.ctBits)

/-- The fault record, `pc` and `PROG`. -/
def State.record (s : State) : Byte × Word64 × Nat × List CmdWord := (s.fcode, s.finfo, s.pc, s.prog)

/-- An elementary write that touches the tables or the fault record is one of five; none writes `pc` or `PROG`. -/
theorem Move.cases_frame {s t : State} (h : Move s t) :
    (∃ c info, t = s.recordFault c info) ∨ t = s.toReset ∨ t = ({ s with nc := 0 } : State).clearCodes ∨
    (∃ l r ll rl, ¬ (ll = false ∧ s.nc ≤ l ∨ rl = false ∧ s.nc ≤ r) ∧ t = (s.storeNode l r ll rl).clearCodes) ∨
    t = s.buildTable ∨ (t.tables = s.tables ∧ t.record = s.record) := by
  cases h
  case fault c info => exact .inl ⟨c, info, rfl⟩
  case reset => exact .inr (.inl rfl)
  case clearTree => exact .inr (.inr (.inl rfl))
  case storeNode l r ll rl _ hc => exact .inr (.inr (.inr (.inl ⟨l, r, ll, rl, hc, rfl⟩)))
  case buildTable => exact .inr (.inr (.inr (.inr (.inl rfl))))
  all_goals refine .inr (.inr (.inr (.inr (.inr ?_))))
  case readBit hn =>
    rw [(State.nextBit_some hn).1]
    exact ⟨rfl, rfl⟩
  case putBit b =>
    rw [s.putBit_frame b]
    exact ⟨rfl, rfl⟩
  case flush => obtain ⟨-, h⟩ | ⟨-, v, h, -⟩ := s.flush_cases <;> rw [h] <;> exact ⟨rfl, rfl⟩
  case startSymbol =>
    rw [s.startSymbol_eq]
    exact ⟨rfl, rfl⟩
  case followBit b =>
    unfold State.followBit
    split <;> exact ⟨rfl, rfl⟩
  all_goals exact ⟨rfl, rfl⟩

/-- Well-formedness reads the tree only. -/
theorem State.TreeWF.congr {s t : State} (h : s.TreeWF) (hc : t.nc = s.nc) (hn : t.node = s.node) (hl : t.lleaf = s.lleaf)
    (hr : t.rleaf = s.rleaf) : t.TreeWF := by
  simpa only [State.TreeWF, State.nodeAt, State.lleafAt, State.rleafAt, hc, hn, hl, hr] using h

/-- An empty tree is well formed. -/
theorem State.treeWF_of_empty {s : State} (h : s.nc = 0) : s.TreeWF := fun i hi => absurd hi (by rw [h]; bv_omega)

theorem State.TreeWF.buildTable {s : State} (h : s.TreeWF) : s.buildTable.TreeWF := by
  have hframe := s.buildTable_frame
  exact h.congr (by rw [hframe]) (by rw [hframe]) (by rw [hframe]) (by rw [hframe])

/-- A node whose index children are below its own index keeps the tree well formed (R24, R145). -/
theorem State.TreeWF.storeNode {s : State} (h : s.TreeWF) {l r : Byte} {ll rl : Bool}
    (hc : ¬ (ll = false ∧ s.nc ≤ l ∨ rl = false ∧ s.nc ≤ r)) : (s.storeNode l r ll rl).clearCodes.TreeWF := by
  intro i hi
  change i < s.nc + 1 at hi
  change ((s.storeNode l r ll rl).lleafAt i = false → ((s.storeNode l r ll rl).nodeAt i).l < i) ∧
    ((s.storeNode l r ll rl).rleafAt i = false → ((s.storeNode l r ll rl).nodeAt i).r < i)
  rw [State.nodeAt_storeNode, State.lleafAt_storeNode, State.rleafAt_storeNode]
  by_cases hi' : s.nc = i
  · simp only [hi', if_true]
    rw [hi', not_or] at hc
    exact ⟨fun hl => BitVec.not_le.mp fun hle => hc.1 ⟨hl, hle⟩, fun hr => BitVec.not_le.mp fun hle => hc.2 ⟨hr, hle⟩⟩
  · simp only [hi', if_false]
    exact h i (by bv_omega)

theorem State.TreeWF.of_tables {s t : State} (h : s.TreeWF) (htables : t.tables = s.tables) : t.TreeWF := by
  simp only [State.tables, Prod.mk.injEq] at htables
  obtain ⟨hc, hn, hl, hr, -⟩ := htables
  exact h.congr hc hn hl hr

/-- No elementary write breaks the tree (R24). -/
theorem Move.keeps_treeWF {s t : State} (h : Move s t) (hw : s.TreeWF) : t.TreeWF := by
  obtain ⟨c, info, rfl⟩ | rfl | rfl | ⟨l, r, ll, rl, hc, rfl⟩ | rfl | ⟨htables, -⟩ := h.cases_frame
  · exact hw
  · exact State.treeWF_of_empty rfl
  · exact State.treeWF_of_empty rfl
  · exact hw.storeNode hc
  · exact hw.buildTable
  · exact hw.of_tables htables

/-- Settles O54: a step is a chain of elementary writes (`step_moves`), none of which breaks the tree (`Move.keeps_treeWF`). -/
theorem stepKeepsTheTreeWellFormed : Obligations.StepKeepsTheTreeWellFormed := by
  intro s t hw h
  obtain rfl | ⟨-, u, hu, rfl⟩ := step_moves h
  · exact hw
  · exact (hu.keeps (fun _ _ => Move.keeps_treeWF) hw :)

/-- The invariants of the tables: a well-formed tree, and a code table that is empty or the whole one of that tree. -/
structure State.TablesSound (s : State) : Prop where
  treeWF : s.TreeWF
  table : ∀ v : Byte, s.codeLen v ≠ 0 → s.code v = s.buildTable.code v
  tableWhole : (∀ v : Byte, s.codeLen v = 0) ∨ ∀ v : Byte, s.code v = s.buildTable.code v

theorem State.TablesSound.of_empty {s : State} (hw : s.TreeWF) (h : ∀ v, s.codeLen v = 0) : s.TablesSound :=
  ⟨hw, fun v hv => absurd (h v) hv, .inl h⟩

theorem State.TablesSound.buildTable {s : State} (hw : s.TreeWF) : s.buildTable.TablesSound :=
  ⟨hw.buildTable, fun v _ => (State.code_buildTable_buildTable hw v).symm,
    .inr fun v => (State.code_buildTable_buildTable hw v).symm⟩

theorem State.TablesSound.congr {s t : State} (h : s.TablesSound) (htables : t.tables = s.tables) : t.TablesSound := by
  simp only [State.tables, Prod.mk.injEq] at htables
  obtain ⟨hc, hn, hl, hr, hlen, hbits⟩ := htables
  have hcodeLen : t.codeLen = s.codeLen := by funext v; simp only [State.codeLen, hlen]
  have hcode : t.code = s.code := by funext v; simp only [State.code, State.codeLen, State.codeBits, hlen, hbits]
  have hbuild : t.buildTable.code = s.buildTable.code :=
    funext fun v => (State.code_buildTable_congr h.treeWF hc.symm hn.symm hl.symm hr.symm v).symm
  refine ⟨h.treeWF.congr hc hn hl hr, ?_, ?_⟩
  · rw [hcodeLen, hcode, hbuild]
    exact h.table
  · rw [hcodeLen, hcode, hbuild]
    exact h.tableWhole

/-- Every elementary write keeps the code table empty or whole. -/
theorem Move.keeps_tablesSound {s t : State} (h : Move s t) (hs : s.TablesSound) : t.TablesSound := by
  obtain ⟨c, info, rfl⟩ | rfl | rfl | ⟨l, r, ll, rl, hc, rfl⟩ | rfl | ⟨htables, -⟩ := h.cases_frame
  · exact hs.congr rfl
  · exact .of_empty (State.treeWF_of_empty rfl) s.isReset_toReset.codeLen
  · exact .of_empty (State.treeWF_of_empty rfl) fun v => State.codeLen_clearCodes _ v
  · exact .of_empty (hs.treeWF.storeNode hc) fun v => State.codeLen_clearCodes _ v
  · exact .buildTable hs.treeWF
  · exact hs.congr htables

/-! ### The counts, the walker and the read cursor -/

/-- The invariants of the counts, the walker and the read cursor. -/
structure State.CountsSound (s : State) : Prop where
  encd_le : s.encd ≤ s.encn
  decd_le : s.decd ≤ s.decm
  rcnt_le : s.rcnt ≤ 8
  walking : s.walk = true → s.cur < s.nc
  owing : s.walk = true → s.decd < s.decm

/-- A child that is a node index is below its node (R24). -/
theorem State.TreeWF.child_lt {s : State} (h : s.TreeWF) {i : Byte} (hi : i < s.nc) {b : Bool}
    (hb : s.childIsLeaf i b = false) : s.child i b < i := by
  obtain ⟨hl, hr⟩ := h i hi
  cases b
  · exact hl hb
  · exact hr hb

/-- Outside a symbol the invariants of the walker say nothing. -/
theorem State.CountsSound.of_not_walking {s : State} (he : s.encd ≤ s.encn) (hd : s.decd ≤ s.decm) (h8 : s.rcnt ≤ 8)
    (hw : s.walk = false) : s.CountsSound :=
  ⟨he, hd, h8, fun h => absurd (hw.symm.trans h) Bool.false_ne_true, fun h => absurd (hw.symm.trans h) Bool.false_ne_true⟩

/-- Following an edge counts a byte that is owed, or goes down to a loaded node (R181, R186). -/
theorem State.CountsSound.followBit {s : State} (h : s.CountsSound) (hwf : s.TreeWF) (hw : s.walk = true) (b : Bool) :
    (s.followBit b).CountsSound := by
  have howed := h.owing hw
  have hcur := h.walking hw
  unfold State.followBit
  split
  · exact .of_not_walking h.encd_le (show s.decd + 1 ≤ s.decm by bv_omega) h.rcnt_le rfl
  · exact { h with walking := fun _ => BitVec.lt_trans (hwf.child_lt hcur (Bool.eq_false_iff.mpr ‹_›)) hcur }

/-- Every elementary write keeps the counts, the walker and the read cursor within their bounds. -/
theorem Move.keeps_countsSound {s t : State} (hm : Move s t) (hwf : s.TreeWF) (h : s.CountsSound) : t.CountsSound := by
  cases hm with
  | reset => exact .of_not_walking (BitVec.le_refl _) (BitVec.le_refl _) (show (0 : BitVec 4) ≤ 8 by decide) rfl
  | clearTree hw => exact .of_not_walking h.encd_le h.decd_le h.rcnt_le hw
  | storeNode l r ll rl hw => exact .of_not_walking h.encd_le h.decd_le h.rcnt_le hw
  | buildTable =>
    rw [s.buildTable_frame]
    exact { h with }
  | setEncn n he => exact { h with encd_le := show s.encd ≤ n by bv_omega }
  | setDecm n hd hw => exact .of_not_walking h.encd_le (show s.decd ≤ n by bv_omega) h.rcnt_le hw
  | readBit hn =>
    obtain ⟨hframe, -, -, hread⟩ := State.nextBit_some hn
    have h7 := (hread h.rcnt_le).2
    rw [hframe]
    exact { h with rcnt_le := BitVec.le_trans h7 (by decide) }
  | putBit b =>
    rw [s.putBit_frame b]
    exact { h with }
  | flush =>
    obtain ⟨-, hs⟩ | ⟨-, v, hs, -⟩ := s.flush_cases
    · rwa [hs]
    · rw [hs]
      exact { h with }
  | countByte hlt => exact { h with encd_le := show s.encd + 1 ≤ s.encn by bv_omega }
  | startSymbol hlt h0 =>
    rw [s.startSymbol_eq]
    refine { h with walking := fun _ => show s.walkNode < s.nc from ?_, owing := fun _ => hlt }
    unfold State.walkNode
    split
    · exact h.walking ‹_›
    · exact State.root_lt h0
  | followBit b hw => exact h.followBit hwf hw b
  | fault | answer | popByte => exact { h with }

/-! ### The fault record, `pc` and `PROG` -/

/-- The invariants of the fault record, of `pc` and of `PROG`. -/
structure State.RecordSound (s : State) : Prop where
  fcode_le : s.fcode ≤ 9
  finfo_zero : s.fcode = 0 → s.finfo = 0
  pc_le : s.pc ≤ s.prog.length

/-- Every elementary write keeps the fault record one of R208, and leaves `pc` where it is. -/
theorem Move.keeps_recordSound {s t : State} (hm : Move s t) (h : s.RecordSound) : t.RecordSound := by
  obtain ⟨c, info, rfl⟩ | rfl | rfl | ⟨l, r, ll, rl, -, rfl⟩ | rfl | ⟨-, hrecord⟩ := hm.cases_frame
  · exact ⟨c.code_range.2, fun h0 => absurd h0 c.code_range.1, h.pc_le⟩
  · exact ⟨show (0 : Byte) ≤ 9 by decide, fun _ => rfl, h.pc_le⟩
  · exact { h with }
  · exact { h with }
  · rw [s.buildTable_frame]
    exact { h with }
  · simp only [State.record, Prod.mk.injEq] at hrecord
    obtain ⟨hfcode, hfinfo, hpc, hprog⟩ := hrecord
    exact ⟨hfcode ▸ h.fcode_le, by rw [hfcode, hfinfo]; exact h.finfo_zero, by rw [hpc, hprog]; exact h.pc_le⟩

/-! ### The invariants together -/

theorem State.inv_iff (s : State) : s.Inv ↔ s.TablesSound ∧ s.CountsSound ∧ s.RecordSound :=
  ⟨fun h => ⟨{ h with }, { h with }, { h with }⟩, fun ⟨ht, hc, hr⟩ => { ht, hc, hr with }⟩

/-- Every elementary write keeps the invariants. -/
theorem Move.keeps_inv {s t : State} (hm : Move s t) (h : s.Inv) : t.Inv := by
  obtain ⟨ht, hc, hr⟩ := s.inv_iff.mp h
  exact t.inv_iff.mpr ⟨hm.keeps_tablesSound ht, hm.keeps_countsSound h.treeWF hc, hm.keeps_recordSound hr⟩

/-- Counting a word that was there keeps the invariants. -/
theorem State.Inv.advance {s : State} (h : s.Inv) (hpc : s.pc < s.prog.length) : s.advance.Inv := by
  obtain ⟨ht, hc, hr⟩ := s.inv_iff.mp h
  exact s.advance.inv_iff.mpr ⟨ht.congr rfl, { hc with }, { hr with pc_le := hpc }⟩

/-- An elementary write leaves `pc` and `PROG` as they are. -/
theorem Move.pc_prog {s t : State} (hm : Move s t) : t.pc = s.pc ∧ t.prog = s.prog := by
  obtain ⟨c, info, rfl⟩ | rfl | rfl | ⟨l, r, ll, rl, -, rfl⟩ | rfl | ⟨-, hrecord⟩ := hm.cases_frame
  · exact ⟨rfl, rfl⟩
  · exact ⟨rfl, rfl⟩
  · exact ⟨rfl, rfl⟩
  · exact ⟨rfl, rfl⟩
  · rw [s.buildTable_frame]
    exact ⟨rfl, rfl⟩
  · simp only [State.record, Prod.mk.injEq] at hrecord
    exact hrecord.2.2

theorem Moves.pc_prog {s t : State} (hm : Moves s t) : t.pc = s.pc ∧ t.prog = s.prog := by
  refine hm.keeps (P := fun t => t.pc = s.pc ∧ t.prog = s.prog) (fun _ _ hmove h => ?_) ⟨rfl, rfl⟩
  exact ⟨hmove.pc_prog.1.trans h.1, hmove.pc_prog.2.trans h.2⟩

/-- Settles O53: a step is a chain of elementary writes (`step_moves`), each of which keeps the invariants
(`Move.keeps_inv`) and leaves `pc` below the end of `PROG`, so that counting the word taken keeps them too. -/
theorem stepKeepsTheInvariants : Obligations.StepKeepsTheInvariants := by
  intro s t hs h
  obtain rfl | ⟨hpc, u, hu, rfl⟩ := step_moves h
  · exact hs
  · have hinv : u.Inv := hu.keeps (fun _ _ => Move.keeps_inv) hs
    obtain ⟨hupc, huprog⟩ := hu.pc_prog
    exact hinv.advance (by rwa [hupc, huprog])

/-- Settles O52: at launch both tables are empty and every count is 0. -/
theorem launchMeetsTheInvariants : Obligations.LaunchMeetsTheInvariants := fun prog ibs0 pbs0 =>
  (State.inv_iff _).mpr ⟨.of_empty (State.treeWF_of_empty rfl) (State.isReset_launch prog ibs0 pbs0).codeLen,
    .of_not_walking (BitVec.le_refl _) (BitVec.le_refl _) (show (0 : BitVec 4) ≤ 8 by decide) rfl,
    ⟨show (0 : Byte) ≤ 9 by decide, fun _ => rfl, Nat.zero_le _⟩⟩

/-! ### The streams -/

/-- Output streams have grown at their end, input streams have lost bytes at their front (R63, R64). -/
def State.StreamsMoved (s t : State) : Prop :=
  s.obs <+: t.obs ∧ s.dbs <+: t.dbs ∧ s.rsp <+: t.rsp ∧ t.ibs <:+ s.ibs ∧ t.pbs <:+ s.pbs

theorem State.StreamsMoved.refl (s : State) : s.StreamsMoved s :=
  ⟨List.prefix_rfl, List.prefix_rfl, List.prefix_rfl, List.suffix_rfl, List.suffix_rfl⟩

theorem State.StreamsMoved.trans {s t u : State} (h : s.StreamsMoved t) (k : t.StreamsMoved u) : s.StreamsMoved u := by
  obtain ⟨ho, hd, hr, hi, hp⟩ := h
  obtain ⟨ko, kd, kr, ki, kp⟩ := k
  exact ⟨ho.trans ko, hd.trans kd, hr.trans kr, ki.trans hi, kp.trans hp⟩

/-- An elementary write moves each stream in its own direction or not at all (R63, R64). -/
theorem Move.streamsMoved {s t : State} (hm : Move s t) : s.StreamsMoved t := by
  obtain ⟨ho, hd, hr, hi, hp⟩ := State.StreamsMoved.refl s
  cases hm with
  | answer v => exact ⟨ho, hd, List.prefix_append _ _, hi, hp⟩
  | buildTable =>
    rw [s.buildTable_frame]
    exact ⟨ho, hd, hr, hi, hp⟩
  | readBit hn =>
    obtain ⟨hframe, hpbs, -⟩ := State.nextBit_some hn
    refine ⟨?_, ?_, ?_, ?_, hpbs⟩ <;> rw [hframe]
  | putBit b =>
    obtain ⟨pushed, hobs, -⟩ := s.putBit_wrote b
    refine ⟨⟨pushed, hobs.symm⟩, ?_⟩
    rw [s.putBit_frame b]
    exact ⟨hd, hr, hi, hp⟩
  | flush =>
    obtain ⟨-, hs⟩ | ⟨-, v, hs, -⟩ := s.flush_cases <;> rw [hs]
    · exact ⟨ho, hd, hr, hi, hp⟩
    · exact ⟨List.prefix_append _ _, hd, hr, hi, hp⟩
  | popByte h => exact ⟨ho, hd, hr, ⟨[_], h.symm⟩, hp⟩
  | startSymbol =>
    rw [s.startSymbol_eq]
    exact ⟨ho, hd, hr, hi, hp⟩
  | followBit b =>
    unfold State.followBit
    split
    · exact ⟨ho, List.prefix_append _ _, hr, hi, hp⟩
    · exact ⟨ho, hd, hr, hi, hp⟩
  | _ => exact ⟨ho, hd, hr, hi, hp⟩

/-- Settles O55: a step is a chain of elementary writes (`step_moves`), each of which moves the streams one way
(`Move.streamsMoved`). -/
theorem streamsMoveOneWay : Obligations.StreamsMoveOneWay := by
  intro s t h
  obtain rfl | ⟨-, u, hu, rfl⟩ := step_moves h
  · exact State.StreamsMoved.refl _
  · exact (hu.keeps (P := s.StreamsMoved) (fun _ _ hm h => h.trans hm.streamsMoved) (.refl s) :)

end Sys2Proof.Machine
end

section
/-! Two runs side by side: a relation between states that are alike to an engine, and that what the engine writes keeps, is kept by
its steps and its loops; a command keeps what its pseudocode keeps. The cursors act alike on any two states with the same buffer
and stream. -/

namespace Sys2Proof.Machine

/-- Two pseudocodes end in the same way, in related states. -/
inductive Flow.Rel (R : State → State → Prop) : Flow → Flow → Prop
  | done {s t : State} (h : R s t) : Flow.Rel R (.done s) (.done t)
  | raised {s t : State} (h : R s t) : Flow.Rel R (.raised s) (.raised t)

section
variable {R : State → State → Prop} {f g : Flow}

theorem Flow.Rel.state (h : f.Rel R g) : R f.state g.state := by
  cases h with
  | done h => exact h
  | raised h => exact h

theorem Flow.Rel.mono {Q : State → State → Prop} (hRQ : ∀ s t, R s t → Q s t) (h : f.Rel R g) : f.Rel Q g := by
  cases h with
  | done h => exact .done (hRQ _ _ h)
  | raised h => exact .raised (hRQ _ _ h)

end

/-- A command takes related states to related states when its pseudocode does (R206). -/
theorem command_rel {R : State → State → Prop} {body : State → Flow} {s t : State}
    (hadvance : ∀ {s t : State}, R s t → R s.advance t.advance) (h : R s t) (hf : s.fcode = t.fcode)
    (hb : (body s).Rel R (body t)) : ∃ u v, command body s = .next u ∧ command body t = .next v ∧ R u v := by
  by_cases h0 : s.fcode = 0
  · exact ⟨_, _, command_running h0 body, command_running (hf ▸ h0) body, hadvance hb.state⟩
  · exact ⟨_, _, command_halted h0 body, command_halted (hf ▸ h0) body, hadvance h⟩

/-! ### The cursors -/

section
variable {s t : State}

/-- `next_bit` depends on the read cursor and `PBS` only, and writes nothing else (R122). -/
theorem State.nextBit_parallel (hbuf : s.rbuf = t.rbuf) (hcnt : s.rcnt = t.rcnt) (hpbs : s.pbs = t.pbs) :
    (s.nextBit = none ∧ t.nextBit = none) ∨ ∃ b v n p, s.nextBit = some (b, { s with rbuf := v, rcnt := n, pbs := p }) ∧
      t.nextBit = some (b, { t with rbuf := v, rcnt := n, pbs := p }) := by
  unfold State.nextBit
  rw [hcnt, hpbs]
  split
  · cases t.pbs with
    | nil => exact .inl ⟨rfl, rfl⟩
    | cons v rest => exact .inr ⟨_, v, 8 - 1, rest, rfl, rfl⟩
  · refine .inr ⟨_, s.rbuf, s.rcnt - 1, s.pbs, rfl, ?_⟩
    rw [State.takeBit, hbuf, hcnt, hpbs]

/-- `put_bit` depends on the write cursor and `OBS` only, and writes nothing else (R123). -/
theorem State.putBits_parallel (bits : List Bool) : ∀ {s t : State}, s.wacc = t.wacc → s.wfill = t.wfill → s.obs = t.obs →
    ∃ a n o, s.putBits bits = { s with wacc := a, wfill := n, obs := o } ∧
      t.putBits bits = { t with wacc := a, wfill := n, obs := o } := by
  induction bits with
  | nil =>
    intro s t hacc hfill hobs
    exact ⟨s.wacc, s.wfill, s.obs, rfl, by rw [hacc, hfill, hobs, State.putBits]⟩
  | cons b rest ih =>
    intro s t hacc hfill hobs
    have hparts : (s.putBit b).wacc = (t.putBit b).wacc ∧ (s.putBit b).wfill = (t.putBit b).wfill ∧
        (s.putBit b).obs = (t.putBit b).obs := by
      by_cases h7 : t.wfill = 7
      · rw [State.putBit_eighth (hfill.trans h7), State.putBit_eighth h7, hacc, hfill, hobs]
        exact ⟨rfl, rfl, rfl⟩
      · rw [State.putBit_below_eighth (hfill ▸ h7), State.putBit_below_eighth h7, hacc, hfill, hobs]
        exact ⟨rfl, rfl, rfl⟩
    obtain ⟨a, n, o, hs, ht⟩ := ih hparts.1 hparts.2.1 hparts.2.2
    refine ⟨a, n, o, hs.trans ?_, ht.trans ?_⟩
    · rw [s.putBit_frame b]
    · rw [t.putBit_frame b]

end

/-! ### The encoder -/

/-- A byte has been taken from `IBS` (R171). -/
def State.withIbs (s : State) (rest : List Byte) : State := { s with ibs := rest }

/-- One more byte is encoded (R171). -/
def State.countEncoded (s : State) : State := { s with encd := s.encd + 1 }

/-- `enc_step` with a byte owed and a byte left (R171). -/
theorem encStep_cons {s : State} {v : Byte} {rest : List Byte} (hlt : s.encd < s.encn) (hi : s.ibs = v :: rest) :
    encStep s = if s.codeLen v = 0 then raise .lookup (v.zeroExtend 64) (s.withIbs rest)
      else .done ((s.withIbs rest).putBits (s.code v)).countEncoded := by
  rw [encStep, if_neg (BitVec.not_le.mpr hlt), State.popIbs, hi]
  rfl

/-- Related states are alike to the encoder, and what the encoder writes keeps them related. -/
structure EncoderRel (R : State → State → Prop) : Prop where
  counts : ∀ {s t}, R s t → s.encd = t.encd ∧ s.encn = t.encn
  ibs : ∀ {s t}, R s t → s.ibs = t.ibs
  codeLen : ∀ {s t}, R s t → s.codeLen = t.codeLen
  code : ∀ {s t}, R s t → s.code = t.code
  fault : ∀ {s t}, R s t → ∀ c info, R (s.recordFault c info) (t.recordFault c info)
  pop : ∀ {s t}, R s t → ∀ rest, R (s.withIbs rest) (t.withIbs rest)
  put : ∀ {s t}, R s t → ∀ bits, R (s.putBits bits) (t.putBits bits)
  count : ∀ {s t}, R s t → R s.countEncoded t.countEncoded

section
variable {R : State → State → Prop} (hR : EncoderRel R)
include hR

theorem EncoderRel.encStep {s t : State} (h : R s t) : (encStep s).Rel R (encStep t) := by
  obtain ⟨hd, hn⟩ := hR.counts h
  by_cases hge : s.encn ≤ s.encd
  · rw [encStep_atCount hge, encStep_atCount (hd ▸ hn ▸ hge)]
    exact .done h
  have hlt := BitVec.not_le.mp hge
  have hlt' : t.encd < t.encn := hd ▸ hn ▸ hlt
  cases hi : s.ibs with
  | nil =>
    rw [encStep_truncated hlt hi, encStep_truncated hlt' (hR.ibs h ▸ hi), hd]
    exact .raised (hR.fault h _ _)
  | cons v rest =>
    rw [encStep_cons hlt hi, encStep_cons hlt' (hR.ibs h ▸ hi), hR.codeLen h, hR.code h]
    split
    · exact .raised (hR.fault (hR.pop h rest) _ _)
    · exact .done (hR.count (hR.put (hR.pop h rest) _))

theorem EncoderRel.encLoop (n : Nat) : ∀ {s t : State}, R s t → (encLoop n s).Rel R (encLoop n t) := by
  induction n with
  | zero => exact .done
  | succ n ih =>
    intro s t h
    obtain ⟨hd, hn⟩ := hR.counts h
    have hnext := hR.encStep h
    rw [Machine.encLoop, Machine.encLoop, hd, hn]
    generalize Machine.encStep s = f, Machine.encStep t = g at hnext ⊢
    split
    · cases hnext with
      | done h => exact ih h
      | raised h => exact .raised h
    · exact .done h

theorem EncoderRel.encRunBody {s t : State} (h : R s t) : (encRunBody s).Rel R (encRunBody t) := by
  rw [Machine.encRunBody, Machine.encRunBody, hR.ibs h]
  exact hR.encLoop _ h

end

/-! ### The decoder -/

/-- Related states are alike to the decoder, and what the decoder writes keeps them related. -/
structure DecoderRel (R : State → State → Prop) : Prop where
  counts : ∀ {s t}, R s t → s.decd = t.decd ∧ s.decm = t.decm
  nc : ∀ {s t}, R s t → s.nc = t.nc
  walk : ∀ {s t}, R s t → s.walk = t.walk
  bitsLeft : ∀ {s t}, R s t → s.bitsLeft = t.bitsLeft
  fault : ∀ {s t}, R s t → ∀ c info, R (s.recordFault c info) (t.recordFault c info)
  start : ∀ {s t}, R s t → s.decd < s.decm → s.nc ≠ 0 → R s.startSymbol t.startSymbol
  read : ∀ {s t}, R s t → (s.nextBit = none ∧ t.nextBit = none) ∨
    ∃ b u v, s.nextBit = some (b, u) ∧ t.nextBit = some (b, v) ∧ R u v
  follow : ∀ {s t}, R s t → s.walk = true → ∀ b, R (s.followBit b) (t.followBit b)

section
variable {R : State → State → Prop} (hR : DecoderRel R)
include hR

theorem DecoderRel.decStep {s t : State} (h : R s t) : (decStep s).Rel R (decStep t) := by
  obtain ⟨hd, hm⟩ := hR.counts h
  unfold Machine.decStep
  rw [← hd, ← hm, ← hR.nc h]
  split
  · exact .done h
  split
  · exact .raised (hR.fault h _ _)
  have hstart := hR.start h (BitVec.not_le.mp ‹_›) ‹_›
  obtain ⟨hs, ht⟩ | ⟨b, u, v, hs, ht, huv⟩ := hR.read hstart
  · rw [hs, ht]
    exact .raised (hR.fault hstart _ _)
  · rw [hs, ht]
    obtain ⟨hframe, -⟩ := State.nextBit_some hs
    exact .done (hR.follow huv (by rw [hframe, s.startSymbol_eq]) b)

theorem DecoderRel.decLoop (n : Nat) : ∀ {s t : State}, R s t → (decLoop n s).Rel R (decLoop n t) := by
  induction n with
  | zero => exact .done
  | succ n ih =>
    intro s t h
    obtain ⟨hd, hm⟩ := hR.counts h
    have hnext := hR.decStep h
    rw [Machine.decLoop, Machine.decLoop, hd, hm]
    generalize Machine.decStep s = f, Machine.decStep t = g at hnext ⊢
    split
    · cases hnext with
      | done h => exact ih h
      | raised h => exact .raised h
    · exact .done h

theorem DecoderRel.symLoop (n : Nat) : ∀ {s t : State}, R s t → (symLoop n s).Rel R (symLoop n t) := by
  induction n with
  | zero => exact .done
  | succ n ih =>
    intro s t h
    have hnext := hR.decStep h
    rw [Machine.symLoop, Machine.symLoop]
    generalize Machine.decStep s = f, Machine.decStep t = g at hnext ⊢
    cases hnext with
    | done h =>
      dsimp only
      rw [hR.walk h]
      split
      · exact ih h
      · exact .done h
    | raised h => exact .raised h

theorem DecoderRel.decRunBody {s t : State} (h : R s t) : (decRunBody s).Rel R (decRunBody t) := by
  rw [Machine.decRunBody, Machine.decRunBody, hR.bitsLeft h]
  exact hR.decLoop _ h

theorem DecoderRel.decSymBody {s t : State} (h : R s t) : (decSymBody s).Rel R (decSymBody t) := by
  obtain ⟨hd, hm⟩ := hR.counts h
  rw [Machine.decSymBody, Machine.decSymBody, hR.bitsLeft h, hd, hm]
  split
  · exact .done h
  · exact hR.symLoop _ h

end

end Sys2Proof.Machine
end

section
/-! Storage that holds no value (93_implementation_defined U4 to U6): two states that agree on everything that holds a value still
agree after any operation, so no command can tell them apart. -/

namespace Sys2Proof.Machine

section
variable {s t : State} (h : s.Agrees t)
include h

/-! ### What agreeing states have in common -/

theorem State.Agrees.nc : s.nc = t.nc := (congrArg State.nc h.rest :)
theorem State.Agrees.rbuf : s.rbuf = t.rbuf := (congrArg State.rbuf h.rest :)
theorem State.Agrees.rcnt : s.rcnt = t.rcnt := (congrArg State.rcnt h.rest :)
theorem State.Agrees.wfill : s.wfill = t.wfill := (congrArg State.wfill h.rest :)
theorem State.Agrees.cur : s.cur = t.cur := (congrArg State.cur h.rest :)
theorem State.Agrees.walk : s.walk = t.walk := (congrArg State.walk h.rest :)
theorem State.Agrees.fcode : s.fcode = t.fcode := (congrArg State.fcode h.rest :)
theorem State.Agrees.ibs : s.ibs = t.ibs := (congrArg State.ibs h.rest :)
theorem State.Agrees.pbs : s.pbs = t.pbs := (congrArg State.pbs h.rest :)
theorem State.Agrees.obs : s.obs = t.obs := (congrArg State.obs h.rest :)
theorem State.Agrees.draws : s.draws = t.draws := (congrArg State.draws h.rest :)

theorem State.Agrees.encCounts : s.encd = t.encd ∧ s.encn = t.encn :=
  ⟨(congrArg State.encd h.rest :), (congrArg State.encn h.rest :)⟩

theorem State.Agrees.decCounts : s.decd = t.decd ∧ s.decm = t.decm :=
  ⟨(congrArg State.decd h.rest :), (congrArg State.decm h.rest :)⟩

theorem State.Agrees.codeLen (v : Byte) : s.codeLen v = t.codeLen v :=
  BitVec.eq_of_toNat_eq (by rw [← State.length_code, h.code v, State.length_code])

/-- The bits placed in `WACC` are the same (R29). -/
theorem State.Agrees.wacc_bit {k : Nat} (hk : k < s.wfill.toNat) : s.wacc.getLsbD k = t.wacc.getLsbD k := by
  have hbit := congrArg (·[k]?) h.pending
  simpa [State.pendingBits, ← h.wfill, hk] using hbit

/-- A loaded node has the same children (R22, R23). -/
theorem State.Agrees.child {i : Byte} (hi : i < s.nc) (b : Bool) :
    s.child i b = t.child i b ∧ s.childIsLeaf i b = t.childIsLeaf i b := by
  simp only [State.child, State.childIsLeaf, h.node i hi, h.lleaf i hi, h.rleaf i hi, and_self]

theorem State.Agrees.treeWF (hw : s.TreeWF) : t.TreeWF := by
  intro i hi
  rw [← h.nc] at hi
  rw [← h.node i hi, ← h.lleaf i hi, ← h.rleaf i hi]
  exact hw i hi

/-! ### The frame and the system commands -/

theorem State.Agrees.advance : s.advance.Agrees t.advance := { h with rest := (congrArg State.advance h.rest :) }

theorem State.Agrees.recordFault (c : Cause) (info : Word64) : (s.recordFault c info).Agrees (t.recordFault c info) :=
  { h with rest := (congrArg (State.recordFault · c info) h.rest :) }

theorem raise_agrees (c : Cause) (info : Word64) : (raise c info s).Rel State.Agrees (raise c info t) :=
  .raised (h.recordFault c info)

theorem State.Agrees.toReset : s.toReset.Agrees t.toReset where
  rest := (congrArg State.toReset h.rest :)
  node _ hi := absurd hi BitVec.not_lt_zero
  lleaf _ hi := absurd hi BitVec.not_lt_zero
  rleaf _ hi := absurd hi BitVec.not_lt_zero
  code v := by
    rw [(State.code_eq_nil_iff _ v).mpr (s.isReset_toReset.codeLen v), (State.code_eq_nil_iff _ v).mpr (t.isReset_toReset.codeLen v)]
  pending := by rw [State.pendingBits_toReset, State.pendingBits_toReset]

/-- A register shows the same image, the bits of `WCUR` that hold no value being drawn (R198). -/
theorem State.Agrees.csrImage (free : Byte) (c : Csr) : s.csrImage free c = t.csrImage free c := by
  cases c with
  | wcur =>
    have hjoin : joinAt s.wfill.toNat free s.wacc = joinAt s.wfill.toNat free t.wacc := by
      refine BitVec.eq_of_getLsbD_eq fun k _ => ?_
      rw [getLsbD_joinAt _ _ _ _ (by omega), getLsbD_joinAt _ _ _ _ (by omega)]
      split
      · exact h.wacc_bit ‹_›
      · rfl
    rw [State.csrImage, State.csrImage, State.wcurImage, State.wcurImage, hjoin, h.wfill]
  | status => exact (congrArg State.statusImage h.rest :)
  | rcur => exact (congrArg State.rcurImage h.rest :)
  | nc => rw [State.csrImage_nc, State.csrImage_nc, h.nc]
  | cur => rw [State.csrImage_cur, State.csrImage_cur, h.cur]
  | finfo => exact (congrArg State.finfo h.rest :)
  | encn => exact h.encCounts.2
  | encd => exact h.encCounts.1
  | decm => exact h.decCounts.2
  | decd => exact h.decCounts.1

theorem State.Agrees.answer (v : Word64) (n : Nat) :
    ({ s with rsp := s.rsp ++ [v], draws := n } : State).Agrees { t with rsp := t.rsp ++ [v], draws := n } :=
  { h with rest := (congrArg (fun x : State => { x with rsp := x.rsp ++ [v], draws := n }) h.rest :) }

theorem State.Agrees.readCsr (c : Csr) : (s.readCsr c).Agrees (t.readCsr c) := by
  rw [State.readCsr, State.readCsr, h.csrImage, h.csrImage, h.draws]
  split
  · exact h.answer _ _
  · exact { h with rest := (congrArg (State.pushRsp · (t.csrImage 0 c)) h.rest :) }

/-! ### The tree and the code table -/

theorem State.Agrees.clearCodes : s.clearCodes.Agrees t.clearCodes :=
  { h with
    rest := (congrArg State.clearCodes h.rest :)
    code := fun v => by
      rw [(State.code_eq_nil_iff _ v).mpr (s.codeLen_clearCodes v), (State.code_eq_nil_iff _ v).mpr (t.codeLen_clearCodes v)] }

theorem State.Agrees.clearTree : ({ s with nc := 0 } : State).clearCodes.Agrees ({ t with nc := 0 } : State).clearCodes :=
  State.Agrees.clearCodes
    { h with
      rest := (congrArg (fun x : State => { x with nc := 0 }) h.rest :)
      node := fun _ hi => absurd hi BitVec.not_lt_zero
      lleaf := fun _ hi => absurd hi BitVec.not_lt_zero
      rleaf := fun _ hi => absurd hi BitVec.not_lt_zero }

/-- The node stored holds a value from now on, and it is the same node. -/
theorem State.Agrees.storeNode (l r : Byte) (ll rl : Bool) : (s.storeNode l r ll rl).Agrees (t.storeNode l r ll rl) := by
  have hlt {i : Byte} (hi : i < (s.storeNode l r ll rl).nc) (hne : s.nc ≠ i) : i < s.nc := by
    rw [State.storeNode_nc] at hi
    bv_omega
  refine { h with rest := ?_, node := fun i hi => ?_, lleaf := fun i hi => ?_, rleaf := fun i hi => ?_ }
  · rw [← (congrArg (State.storeNode · l r ll rl) h.rest :)]
    rfl
  · rw [State.nodeAt_storeNode, State.nodeAt_storeNode, ← h.nc]
    split
    · rfl
    · exact h.node i (hlt hi ‹_›)
  · rw [State.lleafAt_storeNode, State.lleafAt_storeNode, ← h.nc]
    split
    · rfl
    · exact h.lleaf i (hlt hi ‹_›)
  · rw [State.rleafAt_storeNode, State.rleafAt_storeNode, ← h.nc]
    split
    · rfl
    · exact h.rleaf i (hlt hi ‹_›)

/-- From a loaded node of a well-formed tree both trees have the same leaf paths. -/
theorem State.Agrees.leafPaths (hw : s.TreeWF) (depth : Nat) : ∀ {i : Byte}, i < s.nc →
    s.leafPaths depth i = t.leafPaths depth i := by
  induction depth with
  | zero => exact fun _ => rfl
  | succ depth ih =>
    intro i hi
    have side (b : Bool) : (if s.childIsLeaf i b then [([b], s.child i b)]
          else (s.leafPaths depth (s.child i b)).map fun x => (b :: x.1, x.2)) =
        if t.childIsLeaf i b then [([b], t.child i b)]
          else (t.leafPaths depth (t.child i b)).map fun x => (b :: x.1, x.2) := by
      rw [← (h.child hi b).1, ← (h.child hi b).2]
      split
      · rfl
      · rw [ih (BitVec.lt_trans (hw.child_lt hi (Bool.eq_false_iff.mpr ‹_›)) hi)]
    simp only [State.leafPaths, side]

theorem State.Agrees.buildTable (hw : s.TreeWF) : s.buildTable.Agrees t.buildTable := by
  have hcode (v : Byte) : s.buildTable.code v = t.buildTable.code v := by
    rw [State.code_buildTable hw, State.code_buildTable (h.treeWF hw), ← h.nc]
    split
    · rfl
    · rw [h.leafPaths hw _ (State.root_lt ‹_›)]
  have hs := s.buildTable_frame
  have ht := t.buildTable_frame
  refine ⟨?_, ?_, ?_, ?_, hcode, ?_⟩
  · rw [hs, ht]
    exact (congrArg (fun x : State => { x with ctLen := t.buildTable.ctLen, ctBits := t.buildTable.ctBits }) h.rest :)
  · rw [hs, ht]
    exact h.node
  · rw [hs, ht]
    exact h.lleaf
  · rw [hs, ht]
    exact h.rleaf
  · rw [hs, ht]
    exact h.pending

/-! ### The cursors -/

/-- A bit read is the same bit (R122). -/
theorem State.Agrees.nextBit : (s.nextBit = none ∧ t.nextBit = none) ∨
    ∃ b u v, s.nextBit = some (b, u) ∧ t.nextBit = some (b, v) ∧ u.Agrees v := by
  obtain hnone | ⟨b, x, n, p, hs, ht⟩ := State.nextBit_parallel h.rbuf h.rcnt h.pbs
  · exact .inl hnone
  · exact .inr ⟨b, _, _, hs, ht,
      { h with rest := (congrArg (fun y : State => { y with rbuf := x, rcnt := n, pbs := p }) h.rest :) }⟩

theorem brBitBody_agrees : (brBitBody s).Rel State.Agrees (brBitBody t) := by
  unfold brBitBody
  obtain ⟨hs, ht⟩ | ⟨b, u, v, hs, ht, huv⟩ := h.nextBit
  · rw [hs, ht]
    exact raise_agrees h _ _
  · rw [hs, ht]
    exact .done { huv with rest := (congrArg (State.pushRsp · ((BitVec.ofBool b).zeroExtend 64)) huv.rest :) }

/-- A bit put leaves the same bits pending, and a byte it completes is the same byte (R123). -/
theorem State.Agrees.putBit (b : Bool) : (s.putBit b).Agrees (t.putBit b) := by
  have hlt : s.wfill.toNat < 8 := s.wfill.isLt
  by_cases h7 : s.wfill = 7
  · have hbyte : setBit s.wacc s.wfill.toNat b = setBit t.wacc s.wfill.toNat b := by
      refine BitVec.eq_of_getLsbD_eq fun k hk => ?_
      rw [getLsbD_setBit _ _ _ hlt, getLsbD_setBit _ _ _ hlt]
      split
      · rfl
      · exact h.wacc_bit (by rw [h7] at *; simp at *; omega)
    rw [State.putBit_eighth h7, State.putBit_eighth (h.wfill ▸ h7), ← h.wfill, hbyte]
    exact { h with
      rest := (congrArg (fun x : State => { x with
        wacc := setBit t.wacc s.wfill.toNat b, wfill := 0, obs := x.obs ++ [setBit t.wacc s.wfill.toNat b] }) h.rest :)
      pending := rfl }
  · rw [State.putBit_below_eighth h7, State.putBit_below_eighth (h.wfill ▸ h7), ← h.wfill]
    have hfill : (s.wfill + 1).toNat = s.wfill.toNat + 1 := by bv_omega
    refine { h with
      rest := (congrArg (fun x : State => { x with wacc := setBit t.wacc s.wfill.toNat b, wfill := s.wfill + 1 }) h.rest :)
      pending := ?_ }
    simp only [State.pendingBits, hfill, map_getLsbD_setBit _ _ _ hlt]
    have hpending := h.pending
    simp only [State.pendingBits, ← h.wfill] at hpending
    rw [hpending]

/-- A flush pushes the pending bits and a draw, which are the same (R124). -/
theorem State.Agrees.flush : s.flush.Agrees t.flush := by
  have hobs : s.flush.obs = t.flush.obs := by rw [State.flush_obs, State.flush_obs, h.obs, h.draws, h.pending]
  obtain ⟨hs0, hs⟩ | ⟨hs0, v, hs, -⟩ := s.flush_cases <;> obtain ⟨ht0, ht⟩ | ⟨ht0, w, ht, -⟩ := t.flush_cases
  · rwa [hs, ht]
  · exact absurd (h.wfill ▸ hs0) ht0
  · exact absurd (h.wfill ▸ ht0) hs0
  · obtain rfl : v = w := by simpa [hs, ht, h.obs] using hobs
    rw [hs, ht]
    exact { h with
      rest := (congrArg (fun x : State => { x with wfill := 0, obs := x.obs ++ [v], draws := x.draws + 1 }) h.rest :)
      pending := rfl }

end

theorem State.Agrees.putBits (bits : List Bool) : ∀ {s t : State}, s.Agrees t → (s.putBits bits).Agrees (t.putBits bits) := by
  induction bits with
  | nil => exact id
  | cons b rest ih => exact fun h => ih (h.putBit b)

/-! ### The engines -/

theorem encoderRel_agrees : EncoderRel State.Agrees where
  counts := State.Agrees.encCounts
  ibs := State.Agrees.ibs
  codeLen h := funext h.codeLen
  code h := funext h.code
  fault := State.Agrees.recordFault
  pop h rest := { h with rest := (congrArg (State.withIbs · rest) h.rest :) }
  put h bits := h.putBits bits
  count h := { h with rest := (congrArg State.countEncoded h.rest :) }

theorem State.followBit_leaf {s : State} {b : Bool} (hc : s.childIsLeaf s.cur b = true) :
    s.followBit b = { s with decd := s.decd + 1, walk := false, dbs := s.dbs ++ [s.child s.cur b] } := by
  rw [State.followBit, if_pos hc]
  rfl

theorem State.followBit_node {s : State} {b : Bool} (hc : s.childIsLeaf s.cur b = false) :
    s.followBit b = { s with cur := s.child s.cur b } := by
  rw [State.followBit, if_neg (Bool.eq_false_iff.mp hc)]

theorem State.Agrees.followBit {s t : State} (h : s.Agrees t) (hcur : s.cur < s.nc) (b : Bool) :
    (s.followBit b).Agrees (t.followBit b) := by
  have hchild : s.child s.cur b = t.child t.cur b := by rw [(h.child hcur b).1, h.cur]
  have hleaf : s.childIsLeaf s.cur b = t.childIsLeaf t.cur b := by rw [(h.child hcur b).2, h.cur]
  cases hc : s.childIsLeaf s.cur b with
  | true =>
    rw [State.followBit_leaf hc, State.followBit_leaf (hleaf ▸ hc), hchild]
    exact { h with
      rest := (congrArg (fun x : State => { x with
        decd := x.decd + 1, walk := false, dbs := x.dbs ++ [t.child t.cur b] }) h.rest :) }
  | false =>
    rw [State.followBit_node hc, State.followBit_node (hleaf ▸ hc), hchild]
    exact { h with rest := (congrArg (fun x : State => { x with cur := t.child t.cur b }) h.rest :) }

theorem State.Agrees.startSymbol {s t : State} (h : s.Agrees t) : s.startSymbol.Agrees t.startSymbol := by
  have hnode : s.walkNode = t.walkNode := (congrArg State.walkNode h.rest :)
  rw [s.startSymbol_eq, t.startSymbol_eq, hnode]
  exact { h with rest := (congrArg (fun x : State => { x with cur := t.walkNode, walk := true }) h.rest :) }

/-- Two states that agree, the first of which meets the invariants. -/
def State.SoundAgrees (s t : State) : Prop := s.Inv ∧ s.Agrees t

/-- The decoder stands at a loaded node, so it sees the same children (R181, R186). -/
theorem decoderRel_soundAgrees : DecoderRel State.SoundAgrees where
  counts h := h.2.decCounts
  nc h := h.2.nc
  walk h := h.2.walk
  bitsLeft h := (congrArg State.bitsLeft h.2.rest :)
  fault h c info := ⟨(Move.fault _ c info).keeps_inv h.1, h.2.recordFault c info⟩
  start h hlt h0 := ⟨(Move.startSymbol _ hlt h0).keeps_inv h.1, h.2.startSymbol⟩
  read h := h.2.nextBit.imp_right fun ⟨b, u, v, hs, ht, huv⟩ => ⟨b, u, v, hs, ht, (Move.readBit hs).keeps_inv h.1, huv⟩
  follow h hw b := ⟨(Move.followBit _ b hw).keeps_inv h.1, h.2.followBit (h.1.walking hw) b⟩

theorem State.SoundAgrees.rel_agrees {f g : Flow} (h : f.Rel State.SoundAgrees g) : f.Rel State.Agrees g :=
  h.mono fun _ _ => And.right

/-! ### Every command -/

/-- The three guards of R141 test the same and fault the same. -/
theorem guard_agrees {p q : Prop} [Decidable p] [Decidable q] (hpq : p ↔ q) (i : Instr) {body : State → Flow} {s t : State}
    (h : s.Agrees t) (hb : (body s).Rel State.Agrees (body t)) :
    (if p then raiseWord .seq i s else body s).Rel State.Agrees (if q then raiseWord .seq i t else body t) := by
  by_cases hp : p
  · rw [if_pos hp, if_pos (hpq.mp hp)]
    exact raise_agrees h _ _
  · rw [if_neg hp, if_neg (mt hpq.mpr hp)]
    exact hb

section
variable {s t : State} (h : s.Agrees t) (i : Instr) {body : State → Flow} (hb : (body s).Rel State.Agrees (body t))
include h hb

theorem command_agrees : ∃ u v, command body s = .next u ∧ command body t = .next v ∧ u.Agrees v :=
  command_rel State.Agrees.advance h h.fcode hb

theorem command_guardTree_agrees :
    ∃ u v, command (guardTree i body) s = .next u ∧ command (guardTree i body) t = .next v ∧ u.Agrees v := by
  refine command_agrees h ?_
  rw [guardTree_eq, guardTree_eq]
  exact guard_agrees (by rw [h.encCounts.1, h.decCounts.1, h.walk]) i h hb

theorem command_guardEnc_agrees :
    ∃ u v, command (guardEnc i body) s = .next u ∧ command (guardEnc i body) t = .next v ∧ u.Agrees v := by
  refine command_agrees h ?_
  rw [guardEnc_eq, guardEnc_eq]
  exact guard_agrees (by rw [h.encCounts.1]) i h hb

theorem command_guardDec_agrees :
    ∃ u v, command (guardDec i body) s = .next u ∧ command (guardDec i body) t = .next v ∧ u.Agrees v := by
  refine command_agrees h ?_
  rw [guardDec_eq, guardDec_eq]
  exact guard_agrees (by rw [h.decCounts.1, h.walk]) i h hb

end

section
variable {s t : State} (h : s.Agrees t)
include h

theorem trPushBody_agrees (l r : Byte) (ll rl : Bool) : (trPushBody l r ll rl s).Rel State.Agrees (trPushBody l r ll rl t) := by
  have hinvalid : s.childInvalid l r ll rl = t.childInvalid l r ll rl := (congrArg (State.childInvalid · l r ll rl) h.rest :)
  unfold trPushBody
  rw [hinvalid, h.nc]
  split
  · exact raise_agrees h _ _
  · split
    · exact raise_agrees h _ _
    · exact .done (h.storeNode l r ll rl).clearCodes

theorem execRd_agrees (csr : Byte) : ∃ u v, execRd csr s = .next u ∧ execRd csr t = .next v ∧ u.Agrees v := by
  unfold execRd
  split
  · exact ⟨_, _, rfl, rfl, (h.readCsr _).advance⟩
  · exact command_agrees h (raise_agrees h _ _)

/-- Every command takes agreeing states to agreeing states. -/
theorem exec_agrees (hi : s.Inv) (i : Instr) : ∃ u v, exec i s = .next u ∧ exec i t = .next v ∧ u.Agrees v := by
  cases i with
  | reset => exact ⟨_, _, exec_reset s, exec_reset t, h.advance.toReset⟩
  | rd csr => exact execRd_agrees h csr
  | trClr => exact command_guardTree_agrees h _ (.done h.clearTree)
  | trPush l r ll rl => exact command_guardTree_agrees h _ (trPushBody_agrees h l r ll rl)
  | ctBuild => exact command_guardTree_agrees h _ (.done (h.buildTable hi.treeWF))
  | setnLo imm =>
    exact command_guardEnc_agrees h _
      (.done { h with rest := (congrArg (fun x : State => { x with encn := setLowHalf x.encn imm }) h.rest :) })
  | setnHi imm =>
    exact command_guardEnc_agrees h _
      (.done { h with rest := (congrArg (fun x : State => { x with encn := setHighHalf x.encn imm }) h.rest :) })
  | setmLo imm =>
    exact command_guardDec_agrees h _
      (.done { h with rest := (congrArg (fun x : State => { x with decm := setLowHalf x.decm imm }) h.rest :) })
  | setmHi imm =>
    exact command_guardDec_agrees h _
      (.done { h with rest := (congrArg (fun x : State => { x with decm := setHighHalf x.decm imm }) h.rest :) })
  | brBit => exact command_agrees h (brBitBody_agrees h)
  | brEnd =>
    exact command_agrees (body := fun s => .done (s.pushRsp (if s.atEnd then 1 else 0))) h
      (.done { h with rest := (congrArg (fun x : State => x.pushRsp (if x.atEnd then 1 else 0)) h.rest :) })
  | bwBit b => exact command_agrees (body := fun s => .done (s.putBit b)) h (.done (h.putBit b))
  | bwFlush => exact command_agrees (body := fun s => .done s.flush) h (.done h.flush)
  | encStep => exact command_agrees h (encoderRel_agrees.encStep h)
  | encRun => exact command_agrees h (encoderRel_agrees.encRunBody h)
  | decStep => exact command_agrees h (State.SoundAgrees.rel_agrees (decoderRel_soundAgrees.decStep ⟨hi, h⟩))
  | decSym => exact command_agrees h (State.SoundAgrees.rel_agrees (decoderRel_soundAgrees.decSymBody ⟨hi, h⟩))
  | decRun => exact command_agrees h (State.SoundAgrees.rel_agrees (decoderRel_soundAgrees.decRunBody ⟨hi, h⟩))

end

/-- Settles O56: agreeing states fetch the same word, and both the command it decodes to (`exec_agrees`) and the refusal of a
word that is no command keep them agreeing. -/
theorem valuelessStorageIsUnobservable : Obligations.ValuelessStorageIsUnobservable := by
  intro s t hi h
  have hfetch : s.fetch = t.fetch := (congrArg State.fetch h.rest :)
  unfold step stepWith
  rw [hfetch]
  cases t.fetch with
  | none => exact ⟨s, t, rfl, rfl, h⟩
  | some w =>
    dsimp only
    cases decode w with
    | ok i => exact exec_agrees h hi i
    | error e => exact command_agrees h (raise_agrees h _ _)

end Sys2Proof.Machine
end

section
/-! What a command does not depend on (40_bit_cursor R120, 70_reset_and_hazards R241): putting other values into fields that its
pseudocode neither reads nor writes commutes with the command. -/

namespace Sys2Proof.Machine

/-! ### Updates beside a pseudocode -/

/-- An update of the state that the frame and the fault record neither see nor undo. -/
structure BesideFrame (f : State → State) : Prop where
  fcode : ∀ s, (f s).fcode = s.fcode
  advance : ∀ s, (f s).advance = f s.advance
  fault : ∀ s c info, (f s).recordFault c info = f (s.recordFault c info)

/-- The pseudocode does the same before and after the update. -/
def Commutes (f : State → State) (body : State → Flow) : Prop :=
  ∀ s, (body s).Rel (fun s t => t = f s) (body (f s))

theorem command_commutes {f : State → State} (hf : BesideFrame f) {body : State → Flow} {s t : State}
    (h : command body s = .next t) (hb : Commutes f body) : command body (f s) = .next (f t) := by
  obtain ⟨u, v, hu, hv, rfl⟩ := command_rel (R := fun s t => t = f s) (fun h => by rw [h, hf.advance]) rfl (hf.fcode s).symm (hb s)
  rw [hv, Host.Outcome.next.inj (h.symm.trans hu)]

/-! ### The read cursor -/

/-- An update beside the read cursor, its stream and the responses. -/
structure BesideReads (f : State → State) : Prop extends BesideFrame f where
  rbuf : ∀ s, (f s).rbuf = s.rbuf
  rcnt : ∀ s, (f s).rcnt = s.rcnt
  pbs : ∀ s, (f s).pbs = s.pbs
  read : ∀ s v n p, ({ f s with rbuf := v, rcnt := n, pbs := p } : State) = f { s with rbuf := v, rcnt := n, pbs := p }
  answer : ∀ s v, (f s).pushRsp v = f (s.pushRsp v)

section
variable {f : State → State} (hf : BesideReads f)
include hf

theorem BesideReads.nextBit (s : State) : (s.nextBit = none ∧ (f s).nextBit = none) ∨
    ∃ b u v, s.nextBit = some (b, u) ∧ (f s).nextBit = some (b, v) ∧ v = f u := by
  obtain hnone | ⟨b, x, n, p, hs, ht⟩ := State.nextBit_parallel (hf.rbuf s).symm (hf.rcnt s).symm (hf.pbs s).symm
  · exact .inl hnone
  · exact .inr ⟨b, _, _, hs, ht, hf.read s x n p⟩

theorem BesideReads.brBit : Commutes f brBitBody := by
  intro s
  unfold brBitBody
  obtain ⟨hs, ht⟩ | ⟨b, u, v, hs, ht, rfl⟩ := hf.nextBit s
  · rw [hs, ht]
    exact .raised (hf.fault s _ _)
  · rw [hs, ht]
    exact .done (hf.answer u _)

theorem BesideReads.brEnd : Commutes f fun s => .done (s.pushRsp (if s.atEnd then 1 else 0)) := by
  intro s
  dsimp only
  rw [State.atEnd_eq_decide (f s), hf.rcnt, hf.pbs, ← State.atEnd_eq_decide]
  exact .done (hf.answer s _)

/-- What `BR.BIT` and `BR.END` do, they do after the update. -/
theorem BesideReads.exec {i : Instr} (hi : i = .brBit ∨ i = .brEnd) {s t : State} (h : exec i s = .next t) :
    exec i (f s) = .next (f t) := by
  obtain rfl | rfl := hi
  · exact command_commutes hf.toBesideFrame h hf.brBit
  · exact command_commutes (body := fun s => .done (s.pushRsp (if s.atEnd then 1 else 0))) hf.toBesideFrame h hf.brEnd

end

/-! ### The write cursor -/

/-- `s` with another write cursor, stream and count of draws. -/
def State.withWrites (s : State) (a : Byte) (n : BitVec 3) (o : List Byte) (d : Nat) : State :=
  { s with wacc := a, wfill := n, obs := o, draws := d }

theorem State.flush_eq_withWrites (s : State) : s.flush = if s.wfill = 0 then s else
    s.withWrites s.wacc 0 (s.obs ++ [joinAt s.wfill.toNat (Config.padDraw s.draws) s.wacc]) (s.draws + 1) := rfl

/-- An update beside the write cursor, its stream and the draws. -/
structure BesideWrites (f : State → State) : Prop extends BesideFrame f where
  wacc : ∀ s, (f s).wacc = s.wacc
  wfill : ∀ s, (f s).wfill = s.wfill
  obs : ∀ s, (f s).obs = s.obs
  draws : ∀ s, (f s).draws = s.draws
  write : ∀ s a n o d, (f s).withWrites a n o d = f (s.withWrites a n o d)

section
variable {f : State → State} (hf : BesideWrites f)
include hf

theorem BesideWrites.putBits (bits : List Bool) (s : State) : (f s).putBits bits = f (s.putBits bits) := by
  obtain ⟨a, n, o, hs, ht⟩ := State.putBits_parallel bits (hf.wacc s).symm (hf.wfill s).symm (hf.obs s).symm
  rw [hs, ht]
  exact (congrArg ((f s).withWrites a n o) (hf.draws s)).trans (hf.write s a n o s.draws)

theorem BesideWrites.flush (s : State) : (f s).flush = f s.flush := by
  rw [State.flush_eq_withWrites, State.flush_eq_withWrites, hf.wfill, hf.wacc, hf.obs, hf.draws, hf.write]
  split <;> rfl

/-- What `BW.BIT` and `BW.FLUSH` do, they do after the update. -/
theorem BesideWrites.exec {i : Instr} (hi : (∃ b, i = .bwBit b) ∨ i = .bwFlush) {s t : State} (h : exec i s = .next t) :
    exec i (f s) = .next (f t) := by
  obtain ⟨b, rfl⟩ | rfl := hi
  · exact command_commutes (body := fun s => .done (s.putBit b)) hf.toBesideFrame h (fun s => .done (hf.putBits [b] s))
  · exact command_commutes (body := fun s => .done s.flush) hf.toBesideFrame h (fun s => .done (hf.flush s))

end

/-! ### The fields beside each command -/

/-- `s` with another write cursor and stream. -/
def State.withWriteCursor (acc : Byte) (fill : BitVec 3) (obs : List Byte) (s : State) : State :=
  { s with wacc := acc, wfill := fill, obs := obs }

/-- `s` with another read cursor and stream. -/
def State.withReadCursor (buf : Byte) (cnt : BitVec 4) (pbs : List Byte) (s : State) : State :=
  { s with rbuf := buf, rcnt := cnt, pbs := pbs }

/-- `s` with other configuration: tree, code table and counts. -/
def State.withConfiguration (nc : Byte) (node : Vector Node 256) (lleaf rleaf : Vector Bool 256) (ctLen : Vector Byte 256)
    (ctBits : Vector CodeBits 256) (encn encd decm decd : Word64) (s : State) : State :=
  { s with nc := nc, node := node, lleaf := lleaf, rleaf := rleaf, ctLen := ctLen, ctBits := ctBits,
           encn := encn, encd := encd, decm := decm, decd := decd }

/-- `s` with another decoder: its counts, walker, read cursor and streams. -/
def State.withDecoder (decm decd : Word64) (cur : Byte) (walk : Bool) (rbuf : Byte) (rcnt : BitVec 4) (pbs dbs : List Byte)
    (s : State) : State :=
  { s with decm := decm, decd := decd, cur := cur, walk := walk, rbuf := rbuf, rcnt := rcnt, pbs := pbs, dbs := dbs }

/-- `s` with another encoder: its counts, code table, write cursor and streams. -/
def State.withEncoder (encn encd : Word64) (ctLen : Vector Byte 256) (ctBits : Vector CodeBits 256) (wacc : Byte)
    (wfill : BitVec 3) (ibs obs : List Byte) (s : State) : State :=
  { s with encn := encn, encd := encd, ctLen := ctLen, ctBits := ctBits, wacc := wacc, wfill := wfill, ibs := ibs, obs := obs }

theorem besideReads_withWriteCursor (acc : Byte) (fill : BitVec 3) (obs : List Byte) :
    BesideReads (State.withWriteCursor acc fill obs) where
  fcode _ := rfl
  advance _ := rfl
  fault _ _ _ := rfl
  rbuf _ := rfl
  rcnt _ := rfl
  pbs _ := rfl
  read _ _ _ _ := rfl
  answer _ _ := rfl

theorem besideWrites_withReadCursor (buf : Byte) (cnt : BitVec 4) (pbs : List Byte) :
    BesideWrites (State.withReadCursor buf cnt pbs) where
  fcode _ := rfl
  advance _ := rfl
  fault _ _ _ := rfl
  wacc _ := rfl
  wfill _ := rfl
  obs _ := rfl
  draws _ := rfl
  write _ _ _ _ _ := rfl

section
variable (nc : Byte) (node : Vector Node 256) (lleaf rleaf : Vector Bool 256) (ctLen : Vector Byte 256)
  (ctBits : Vector CodeBits 256) (encn encd decm decd : Word64)

theorem besideReads_withConfiguration :
    BesideReads (State.withConfiguration nc node lleaf rleaf ctLen ctBits encn encd decm decd) where
  fcode _ := rfl
  advance _ := rfl
  fault _ _ _ := rfl
  rbuf _ := rfl
  rcnt _ := rfl
  pbs _ := rfl
  read _ _ _ _ := rfl
  answer _ _ := rfl

theorem besideWrites_withConfiguration :
    BesideWrites (State.withConfiguration nc node lleaf rleaf ctLen ctBits encn encd decm decd) where
  fcode _ := rfl
  advance _ := rfl
  fault _ _ _ := rfl
  wacc _ := rfl
  wfill _ := rfl
  obs _ := rfl
  draws _ := rfl
  write _ _ _ _ _ := rfl

end

/-- Settles O24: each half of the cursor commutes with an update of the other half and of the configuration (`BesideReads.exec`,
`BesideWrites.exec`); with the values that were there, that says the command leaves them. -/
theorem cursorHalvesAreIndependent : Obligations.CursorHalvesAreIndependent := by
  refine ⟨fun i s hi => ?reads, fun i s hi => ?writes, fun i s hi => ?configuration⟩ <;> obtain ⟨t, ht⟩ := exec_next i s
  case reads =>
    have hcomm (acc fill obs) := (besideReads_withWriteCursor acc fill obs).exec hi ht
    have hself : t = t.withWriteCursor s.wacc s.wfill s.obs := Host.Outcome.next.inj (ht.symm.trans (hcomm _ _ _))
    exact ⟨t, ht, (congrArg State.wacc hself :), (congrArg State.wfill hself :), (congrArg State.obs hself :), hcomm⟩
  case writes =>
    have hcomm (buf cnt pbs) := (besideWrites_withReadCursor buf cnt pbs).exec hi ht
    have hself : t = t.withReadCursor s.rbuf s.rcnt s.pbs := Host.Outcome.next.inj (ht.symm.trans (hcomm _ _ _))
    exact ⟨t, ht, (congrArg State.rbuf hself :), (congrArg State.rcnt hself :), (congrArg State.pbs hself :), hcomm⟩
  case configuration =>
    refine ⟨t, ht, fun nc node lleaf rleaf ctLen ctBits encn encd decm decd => ?_⟩
    obtain hi | hi : (i = .brBit ∨ i = .brEnd) ∨ ((∃ b, i = .bwBit b) ∨ i = .bwFlush) := or_assoc.mpr hi
    · exact (besideReads_withConfiguration nc node lleaf rleaf ctLen ctBits encn encd decm decd).exec hi ht
    · exact (besideWrites_withConfiguration nc node lleaf rleaf ctLen ctBits encn encd decm decd).exec hi ht

/-! ### The two engines -/

section
variable (decm decd : Word64) (cur : Byte) (walk : Bool) (rbuf : Byte) (rcnt : BitVec 4) (pbs dbs : List Byte)

theorem besideWrites_withDecoder : BesideWrites (State.withDecoder decm decd cur walk rbuf rcnt pbs dbs) where
  fcode _ := rfl
  advance _ := rfl
  fault _ _ _ := rfl
  wacc _ := rfl
  wfill _ := rfl
  obs _ := rfl
  draws _ := rfl
  write _ _ _ _ _ := rfl

/-- The encoder does not see another decoder (R241). -/
theorem encoderRel_withDecoder : EncoderRel fun s t => t = s.withDecoder decm decd cur walk rbuf rcnt pbs dbs where
  counts h := by rw [h]; exact ⟨rfl, rfl⟩
  ibs h := by rw [h]; rfl
  codeLen h := by rw [h]; rfl
  code h := by rw [h]; rfl
  fault h _ _ := by rw [h]; rfl
  pop h _ := by rw [h]; rfl
  put h bits := by rw [h, (besideWrites_withDecoder decm decd cur walk rbuf rcnt pbs dbs).putBits]
  count h := by rw [h]; rfl

theorem exec_encoder_withDecoder {i : Instr} (hi : i = .encStep ∨ i = .encRun) {s t : State} (h : exec i s = .next t) :
    exec i (s.withDecoder decm decd cur walk rbuf rcnt pbs dbs) = .next (t.withDecoder decm decd cur walk rbuf rcnt pbs dbs) := by
  have hbeside := (besideWrites_withDecoder decm decd cur walk rbuf rcnt pbs dbs).toBesideFrame
  have hrel := encoderRel_withDecoder decm decd cur walk rbuf rcnt pbs dbs
  obtain rfl | rfl := hi
  · exact command_commutes hbeside h (fun _ => hrel.encStep rfl)
  · exact command_commutes hbeside h (fun _ => hrel.encRunBody rfl)

end

section
variable (encn encd : Word64) (ctLen : Vector Byte 256) (ctBits : Vector CodeBits 256) (wacc : Byte) (wfill : BitVec 3)
  (ibs obs : List Byte)

theorem besideReads_withEncoder : BesideReads (State.withEncoder encn encd ctLen ctBits wacc wfill ibs obs) where
  fcode _ := rfl
  advance _ := rfl
  fault _ _ _ := rfl
  rbuf _ := rfl
  rcnt _ := rfl
  pbs _ := rfl
  read _ _ _ _ := rfl
  answer _ _ := rfl

theorem State.startSymbol_withEncoder (s : State) : (s.withEncoder encn encd ctLen ctBits wacc wfill ibs obs).startSymbol =
    s.startSymbol.withEncoder encn encd ctLen ctBits wacc wfill ibs obs := by
  rw [State.startSymbol_eq, s.startSymbol_eq]
  rfl

theorem State.followBit_withEncoder (s : State) (b : Bool) :
    (s.withEncoder encn encd ctLen ctBits wacc wfill ibs obs).followBit b =
      (s.followBit b).withEncoder encn encd ctLen ctBits wacc wfill ibs obs := by
  cases hc : s.childIsLeaf s.cur b with
  | true =>
    rw [State.followBit_leaf hc, State.followBit_leaf (s := s.withEncoder encn encd ctLen ctBits wacc wfill ibs obs) hc]
    rfl
  | false =>
    rw [State.followBit_node hc, State.followBit_node (s := s.withEncoder encn encd ctLen ctBits wacc wfill ibs obs) hc]
    rfl

/-- The decoder does not see another encoder (R241). -/
theorem decoderRel_withEncoder :
    DecoderRel fun s t => t = s.withEncoder encn encd ctLen ctBits wacc wfill ibs obs where
  counts h := by rw [h]; exact ⟨rfl, rfl⟩
  nc h := by rw [h]; rfl
  walk h := by rw [h]; rfl
  bitsLeft h := by rw [h]; rfl
  fault h _ _ := by rw [h]; rfl
  start h _ _ := by rw [h, State.startSymbol_withEncoder]
  read h := by rw [h]; exact (besideReads_withEncoder encn encd ctLen ctBits wacc wfill ibs obs).nextBit _
  follow h _ b := by rw [h, State.followBit_withEncoder]

theorem exec_decoder_withEncoder {i : Instr} (hi : i = .decStep ∨ i = .decSym ∨ i = .decRun) {s t : State}
    (h : exec i s = .next t) : exec i (s.withEncoder encn encd ctLen ctBits wacc wfill ibs obs) =
      .next (t.withEncoder encn encd ctLen ctBits wacc wfill ibs obs) := by
  have hbeside := (besideReads_withEncoder encn encd ctLen ctBits wacc wfill ibs obs).toBesideFrame
  have hrel := decoderRel_withEncoder encn encd ctLen ctBits wacc wfill ibs obs
  obtain rfl | rfl | rfl := hi
  · exact command_commutes hbeside h (fun _ => hrel.decStep rfl)
  · exact command_commutes hbeside h (fun _ => hrel.decSymBody rfl)
  · exact command_commutes hbeside h (fun _ => hrel.decRunBody rfl)

end

/-- Settles O50: each engine commutes with an update of the other (`exec_encoder_withDecoder`, `exec_decoder_withEncoder`). -/
theorem enginesShareOnlyTheTree : Obligations.EnginesShareOnlyTheTree := by
  refine ⟨fun i s hi => ?_, fun i s hi => ?_⟩ <;> obtain ⟨t, ht⟩ := exec_next i s
  · exact ⟨t, ht, fun decm decd cur walk rbuf rcnt pbs dbs => exec_encoder_withDecoder decm decd cur walk rbuf rcnt pbs dbs hi ht⟩
  · exact ⟨t, ht, fun encn encd ctLen ctBits wacc wfill ibs obs =>
      exec_decoder_withEncoder encn encd ctLen ctBits wacc wfill ibs obs hi ht⟩

end Sys2Proof.Machine
end

section
/-! The frame of every command (10_state R39) and what it answers (30_encoding R100): one inversion for each shape of command says
what is written and when it faults. -/

namespace Sys2Proof.Machine

/-! ### The execution frame -/

/-- Settles O6: the word taken is decoded and run (`step_of_decode_ok`) or refused (`step_of_decode_error`), and the word placed
for the next step is the one taken (`State.fetch_placeWord`). -/
theorem stepRunsTheDecodedCommand : Obligations.StepRunsTheDecodedCommand := by
  refine ⟨fun s w hw => ⟨fun i hd => step_of_decode_ok hw hd, fun e hd hf => ?runs, fun e hd hf => ?halted⟩, fun s i => ?placed⟩
  case runs =>
    rw [step_of_decode_error hw hd, illegalWord, command_running hf]
    rfl
  case halted => rw [step_of_decode_error hw hd, illegalWord, command_halted hf]
  case placed =>
    have hword : BitVec.ofNat 40 ((encode i).toNat % 2 ^ 40) = encode i := by
      rw [Nat.mod_eq_of_lt (encode i).isLt, BitVec.ofNat_toNat, BitVec.setWidth_eq]
    refine step_of_decode_ok (w := encode i) ?_ (decodeEncodeRoundTrip i)
    rw [State.withFetchWord, hword]
    exact State.fetch_placeWord s _

/-- Settles O8: with no word to fetch a step is the state itself. -/
theorem endedRunIdles : Obligations.EndedRunIdles := by
  intro s h
  unfold step stepWith
  rw [s.fetch_eq_none_iff.mpr h]

/-! ### What a command of each shape does -/

section
variable {s t : State}

/-- A guarded command passes while halted, faults once the engine concerned has started, or runs its pseudocode (R141). -/
theorem guarded_cases {started : Prop} [Decidable started] {i : Instr} {guarded body : State → Flow}
    (hguard : guarded s = if started then raiseWord .seq i s else body s) (h : command guarded s = .next t) :
    (s.fcode ≠ 0 ∧ t = s.passed) ∨ (s.fcode = 0 ∧ started ∧ t = s.faulted 2 ((encode i).zeroExtend 64)) ∨
    (s.fcode = 0 ∧ ¬ started ∧ t = (body s).state.advance) := by
  obtain ⟨hf, ht⟩ | ⟨hf, ht⟩ := command_cases h
  · exact .inl ⟨hf, ht⟩
  rw [hguard] at ht
  by_cases hs : started
  · rw [if_pos hs] at ht
    exact .inr (.inl ⟨hf, hs, ht⟩)
  · rw [if_neg hs] at ht
    exact .inr (.inr ⟨hf, hs, ht⟩)

/-- `TR.PUSH` past the guard (R143 to R146). -/
theorem trPushBody_cases (l r : Byte) (ll rl : Bool) (s : State) :
    (s.nc = 255 ∧ trPushBody l r ll rl s = raiseWord .treeFull (.trPush l r ll rl) s) ∨
    ((ll = false ∧ s.nc ≤ l ∨ rl = false ∧ s.nc ≤ r) ∧
      trPushBody l r ll rl s = raiseWord .treeInvalid (.trPush l r ll rl) s) ∨
    trPushBody l r ll rl s = .done (s.storeNode l r ll rl).clearCodes := by
  unfold trPushBody
  split
  · exact .inl ⟨‹_›, rfl⟩
  split
  · exact .inr (.inl ⟨(s.childInvalid_iff l r ll rl).mp ‹_›, rfl⟩)
  · exact .inr (.inr rfl)

/-- `BR.BIT` passes while halted, faults with no bit left, or answers the next bit (R125). -/
theorem exec_brBit_cases (h : exec .brBit s = .next t) :
    (s.fcode ≠ 0 ∧ t = s.passed) ∨ (s.fcode = 0 ∧ s.rcnt = 0 ∧ s.pbs = [] ∧ t = s.faulted 9 0) ∨
    ∃ b u, s.fcode = 0 ∧ s.nextBit = some (b, u) ∧ t = u.answered ((BitVec.ofBool b).zeroExtend 64) := by
  by_cases hf : s.fcode = 0
  · cases hn : s.nextBit with
    | none =>
      obtain ⟨h0, hp⟩ := s.nextBit_none_iff.mp hn
      exact .inr (.inl ⟨hf, h0, hp, Host.Outcome.next.inj (h.symm.trans (exec_brBit_atEnd hf h0 hp))⟩)
    | some x => exact .inr (.inr ⟨x.1, x.2, hf, rfl, Host.Outcome.next.inj (h.symm.trans (exec_brBit_answers hf hn))⟩)
  · exact .inl ⟨hf, Host.Outcome.next.inj (h.symm.trans (command_halted hf brBitBody))⟩

/-- `BR.END` passes while halted, or answers `at_end()` (R126). -/
theorem exec_brEnd_cases (h : exec .brEnd s = .next t) :
    (s.fcode ≠ 0 ∧ t = s.passed) ∨ (s.fcode = 0 ∧ t = s.answered (if s.atEnd then 1 else 0)) :=
  command_cases (body := fun s => .done (s.pushRsp (if s.atEnd then 1 else 0))) h

/-- `RD` of a defined register answers it; of an undefined number it passes while halted and faults otherwise (R197). -/
theorem exec_rd_cases {csr : Byte} (h : exec (.rd csr) s = .next t) :
    (∃ c, t = (s.readCsr c).passed) ∨ (0x09 < csr ∧ s.fcode ≠ 0 ∧ t = s.passed) ∨
    (0x09 < csr ∧ s.fcode = 0 ∧ t = s.faulted 1 ((encode (.rd csr)).zeroExtend 64)) := by
  cases hc : csrOfNumber csr with
  | some c => exact .inl ⟨c, Host.Outcome.next.inj (h.symm.trans (exec_rd_defined hc s))⟩
  | none =>
    have hcsr := (csrOfNumber_eq_none_iff csr).mp hc
    rw [exec_rd_undefined hcsr] at h
    obtain ⟨hf, ht⟩ | ⟨hf, ht⟩ := command_cases h
    · exact .inr (.inl ⟨hcsr, hf, ht⟩)
    · exact .inr (.inr ⟨hcsr, hf, ht⟩)

end

/-! ### The frames -/

/-- Settles O57: `RD` by its three outcomes (`exec_rd_cases`), `RESET` by what `State.toReset` writes. -/
theorem frameOfSystemCommands : Obligations.FrameOfSystemCommands := by
  refine ⟨fun s t csr h => ?_, fun s t h => ?_⟩
  · obtain ⟨c, rfl⟩ | ⟨-, -, rfl⟩ | ⟨-, -, rfl⟩ := exec_rd_cases h
    · obtain ⟨v, hv⟩ := s.readCsr_eq c
      rw [hv]
      rfl
    · rfl
    · rfl
  · obtain rfl := Host.Outcome.next.inj ((exec_reset s).symm.trans h)
    rfl

/-- Settles O58: the read side by its outcomes (`exec_brBit_cases`, `exec_brEnd_cases`), the write side by what `put_bit` and
`flush` write. -/
theorem frameOfCursorCommands : Obligations.FrameOfCursorCommands := by
  refine fun s t => ⟨fun h => ?brBit, fun h => ?brEnd, fun b h => ?bwBit, fun h => ?bwFlush⟩
  case brBit =>
    obtain ⟨-, rfl⟩ | ⟨-, -, -, rfl⟩ | ⟨b, u, -, hn, rfl⟩ := exec_brBit_cases h
    · rfl
    · rfl
    · rw [(State.nextBit_some hn).1]
      rfl
  case brEnd =>
    obtain ⟨-, rfl⟩ | ⟨-, rfl⟩ := exec_brEnd_cases h
    · rfl
    · rfl
  case bwBit =>
    obtain ⟨-, rfl⟩ | ⟨-, rfl⟩ := command_cases (body := fun s => .done (s.putBit b)) h
    · rfl
    · rw [done_state, s.putBit_frame b]
      rfl
  case bwFlush =>
    obtain ⟨-, rfl⟩ | ⟨-, rfl⟩ := command_cases (body := fun s => .done s.flush) h
    · rfl
    · obtain ⟨-, hs⟩ | ⟨-, v, hs, -⟩ := s.flush_cases <;> rw [done_state, hs] <;> rfl

/-- Settles O59: each command by its three outcomes (`guarded_cases`). -/
theorem frameOfConfigurationCommands : Obligations.FrameOfConfigurationCommands := by
  refine fun s t => ⟨fun h => ?clr, fun l r ll rl h => ?push, fun h => ?build, fun imm h => ?setn, fun imm h => ?setm⟩
  case clr => obtain ⟨-, rfl⟩ | ⟨-, -, rfl⟩ | ⟨-, -, rfl⟩ := guarded_cases (guardTree_eq .trClr _ s) h <;> rfl
  case push =>
    obtain ⟨-, rfl⟩ | ⟨-, -, rfl⟩ | ⟨-, -, rfl⟩ := guarded_cases (guardTree_eq (.trPush l r ll rl) _ s) h
    · rfl
    · rfl
    · obtain ⟨-, hb⟩ | ⟨-, hb⟩ | hb := trPushBody_cases l r ll rl s <;> rw [hb] <;> rfl
  case build =>
    obtain ⟨-, rfl⟩ | ⟨-, -, rfl⟩ | ⟨-, -, rfl⟩ := guarded_cases (guardTree_eq .ctBuild _ s) h
    · rfl
    · rfl
    · rw [done_state, s.buildTable_frame]
      rfl
  case setn =>
    obtain h | h := h
    · obtain ⟨-, rfl⟩ | ⟨-, -, rfl⟩ | ⟨-, -, rfl⟩ := guarded_cases (guardEnc_eq (.setnLo imm) _ s) h <;> rfl
    · obtain ⟨-, rfl⟩ | ⟨-, -, rfl⟩ | ⟨-, -, rfl⟩ := guarded_cases (guardEnc_eq (.setnHi imm) _ s) h <;> rfl
  case setm =>
    obtain h | h := h
    · obtain ⟨-, rfl⟩ | ⟨-, -, rfl⟩ | ⟨-, -, rfl⟩ := guarded_cases (guardDec_eq (.setmLo imm) _ s) h <;> rfl
    · obtain ⟨-, rfl⟩ | ⟨-, -, rfl⟩ | ⟨-, -, rfl⟩ := guarded_cases (guardDec_eq (.setmHi imm) _ s) h <;> rfl

/-- Nothing but what the encoder may write differs (R39). -/
def State.EncoderWrites (s t : State) : Prop :=
  t = { s with encd := t.encd, wacc := t.wacc, wfill := t.wfill, ibs := t.ibs, obs := t.obs,
               fcode := t.fcode, finfo := t.finfo, pc := t.pc }

theorem State.EncoderWrites.trans {s t u : State} (h : s.EncoderWrites t) (k : t.EncoderWrites u) : s.EncoderWrites u := by
  unfold State.EncoderWrites at h k
  rw [h] at k
  exact k

theorem encStep_writes (s : State) : s.EncoderWrites (encStep s).state := by
  obtain ⟨-, h⟩ | ⟨-, -, h⟩ | ⟨_, _, -, -, -, h⟩ | ⟨_, _, t, -, -, -, h, -, ht⟩ := encStep_cases s <;> rw [h]
  · rfl
  · rfl
  · rfl
  · rw [done_state, ht]
    rfl

theorem encRunBody_writes (s : State) : s.EncoderWrites (encRunBody s).state :=
  encRunBody_keeps (fun t ht => ht.trans (encStep_writes t)) rfl

/-- Nothing but what the decoder may write differs (R39). -/
def State.DecoderWrites (s t : State) : Prop :=
  t = { s with decd := t.decd, cur := t.cur, walk := t.walk, rbuf := t.rbuf, rcnt := t.rcnt, pbs := t.pbs, dbs := t.dbs,
               fcode := t.fcode, finfo := t.finfo, pc := t.pc }

theorem State.DecoderWrites.trans {s t u : State} (h : s.DecoderWrites t) (k : t.DecoderWrites u) : s.DecoderWrites u := by
  unfold State.DecoderWrites at h k
  rw [h] at k
  exact k

theorem decStep_writes (s : State) : s.DecoderWrites (decStep s).state := by
  obtain ⟨-, h⟩ | ⟨-, -, h⟩ | ⟨-, -, -, -, h⟩ | ⟨_, t, -, -, h, -⟩ := decStep_cases s <;> rw [h]
  · rfl
  · rfl
  · rfl
  · rw [done_state, decStep_frame h]
    rfl

theorem decRunBody_writes (s : State) : s.DecoderWrites (decRunBody s).state :=
  decRunBody_keeps (fun t ht => ht.trans (decStep_writes t)) rfl

theorem decSymBody_writes (s : State) : s.DecoderWrites (decSymBody s).state :=
  decSymBody_keeps (fun t ht => ht.trans (decStep_writes t)) rfl

/-- Passing and counting the word are in the frame of either engine. -/
theorem command_encoderWrites {body : State → Flow} {s t : State} (h : command body s = .next t)
    (hb : s.EncoderWrites (body s).state) : s.EncoderWrites t := by
  obtain ⟨-, rfl⟩ | ⟨-, rfl⟩ := command_cases h
  · rfl
  · exact hb.trans rfl

theorem command_decoderWrites {body : State → Flow} {s t : State} (h : command body s = .next t)
    (hb : s.DecoderWrites (body s).state) : s.DecoderWrites t := by
  obtain ⟨-, rfl⟩ | ⟨-, rfl⟩ := command_cases h
  · rfl
  · exact hb.trans rfl

/-- Settles O60: what a step of an engine writes (`encStep_writes`, `decStep_writes`) its loops write too. -/
theorem frameOfTheEngines : Obligations.FrameOfTheEngines := by
  refine fun i s t h => ⟨?_, ?_⟩
  · rintro (rfl | rfl)
    · exact command_encoderWrites h (encStep_writes s)
    · exact command_encoderWrites h (encRunBody_writes s)
  · rintro (rfl | rfl | rfl)
    · exact command_decoderWrites h (decStep_writes s)
    · exact command_decoderWrites h (decSymBody_writes s)
    · exact command_decoderWrites h (decRunBody_writes s)

/-! ### The responses -/

/-- A command other than `BR.BIT`, `BR.END` and `RD` does not write `RSP` (R100). -/
theorem exec_rsp {i : Instr} {s t : State} (h : exec i s = .next t) (hb : i ≠ .brBit) (he : i ≠ .brEnd)
    (hrd : ∀ csr, i ≠ .rd csr) : t.rsp = s.rsp := by
  obtain ⟨hclr, hpush, hbuild, hsetn, hsetm⟩ := frameOfConfigurationCommands s t
  obtain ⟨-, -, hput, hflush⟩ := frameOfCursorCommands s t
  obtain ⟨henc, hdec⟩ := frameOfTheEngines i s t h
  cases i with
  | brBit => exact absurd rfl hb
  | brEnd => exact absurd rfl he
  | rd csr => exact absurd rfl (hrd csr)
  | reset => exact (congrArg State.rsp (frameOfSystemCommands.2 s t h) :)
  | trClr => exact (congrArg State.rsp (hclr h) :)
  | trPush l r ll rl => exact (congrArg State.rsp (hpush l r ll rl h) :)
  | ctBuild => exact (congrArg State.rsp (hbuild h) :)
  | setnLo imm => exact (congrArg State.rsp (hsetn imm (.inl h)) :)
  | setnHi imm => exact (congrArg State.rsp (hsetn imm (.inr h)) :)
  | setmLo imm => exact (congrArg State.rsp (hsetm imm (.inl h)) :)
  | setmHi imm => exact (congrArg State.rsp (hsetm imm (.inr h)) :)
  | bwBit b => exact (congrArg State.rsp (hput b h) :)
  | bwFlush => exact (congrArg State.rsp (hflush h) :)
  | encStep => exact (congrArg State.rsp (henc (.inl rfl)) :)
  | encRun => exact (congrArg State.rsp (henc (.inr rfl)) :)
  | decStep => exact (congrArg State.rsp (hdec (.inl rfl)) :)
  | decSym => exact (congrArg State.rsp (hdec (.inr (.inl rfl))) :)
  | decRun => exact (congrArg State.rsp (hdec (.inr (.inr rfl))) :)

/-- In a running block `BR.BIT`, `BR.END` and `RD` answer one word, or fault and answer none (R100). -/
theorem exec_answers_cases {i : Instr} {s t : State} (h : exec i s = .next t) (hf : s.fcode = 0)
    (hi : i = .brBit ∨ i = .brEnd ∨ ∃ csr, i = .rd csr) :
    (t.fcode = 0 ∧ ∃ v, t.rsp = s.rsp ++ [v]) ∨ (t.fcode ≠ 0 ∧ t.rsp = s.rsp) := by
  obtain rfl | rfl | ⟨csr, rfl⟩ := hi
  · obtain ⟨hh, -⟩ | ⟨-, -, -, rfl⟩ | ⟨b, u, -, hn, rfl⟩ := exec_brBit_cases h
    · exact absurd hf hh
    · exact .inr ⟨(Cause.code_range .rdAtEnd).1, rfl⟩
    · rw [(State.nextBit_some hn).1]
      exact .inl ⟨hf, _, rfl⟩
  · obtain ⟨hh, -⟩ | ⟨-, rfl⟩ := exec_brEnd_cases h
    · exact absurd hf hh
    · exact .inl ⟨hf, _, rfl⟩
  · obtain ⟨c, rfl⟩ | ⟨-, hh, -⟩ | ⟨-, -, rfl⟩ := exec_rd_cases h
    · obtain ⟨v, hv⟩ := s.readCsr_eq c
      rw [hv]
      exact .inl ⟨hf, v, rfl⟩
    · exact absurd hf hh
    · exact .inr ⟨(Cause.code_range .illegalCmd).1, rfl⟩

/-- Settles O15: the frames say that no other command writes `RSP` (`exec_rsp`); the three that do answer exactly when they do
not fault (`exec_answers_cases`); while halted a command is discarded (`exec_halted`). -/
theorem responsesAreOneWordEach : Obligations.ResponsesAreOneWordEach := by
  refine fun i s t h => ⟨fun ⟨hb, he, hrd⟩ => exec_rsp h hb he hrd, fun hf h0 hi => ?completes, fun hf hne => ?faults,
    fun hh hi hrd => ?discarded⟩
  case completes => exact ((exec_answers_cases h hf hi).resolve_right fun k => k.1 h0).2
  case faults =>
    by_cases hi : i = .brBit ∨ i = .brEnd ∨ ∃ csr, i = .rd csr
    · exact ((exec_answers_cases h hf hi).resolve_left fun k => hne k.1).2
    · simp only [not_or, not_exists] at hi
      exact exec_rsp h hi.1 hi.2.1 hi.2.2
  case discarded =>
    obtain rfl := Host.Outcome.next.inj ((exec_halted hh hi hrd).symm.trans h)
    rfl

end Sys2Proof.Machine
end

section
/-! The fault table (60_exceptions R208): for each command that can fault, the cause, the condition and the `FINFO` recorded. -/

namespace Sys2Proof.Machine

/-- A command of a running block that has recorded a fault is one whose pseudocode raised. -/
theorem command_raised {causes : List Cause} {body : State → Flow} {s t : State} (hf : s.fcode = 0)
    (h : command body s = .next t) (hne : t.fcode ≠ 0) (hb : (body s).FaultsOnlyWith causes s.fcode) :
    ∃ u, body s = .raised u ∧ t = u.advance := by
  obtain rfl := Host.Outcome.next.inj ((command_running hf body).symm.trans h)
  cases hu : body s with
  | raised u => exact ⟨u, rfl, rfl⟩
  | done u =>
    rw [hu] at hb hne
    exact absurd (hb.trans hf) hne

/-! ### The encoder -/

/-- What `TRUNC_ENC` and `LOOKUP` record in `u`, seen from a state `s` whose input and table they concern (R171, R208). -/
def State.EncoderFault (s u : State) : Prop :=
  (u.fcode = 6 ∧ ∃ v : Byte, u.finfo = v.zeroExtend 64 ∧ s.codeLen v = 0 ∧ v ∈ s.ibs) ∨
  (u.fcode = 7 ∧ u.finfo = u.encd ∧ u.encd < u.encn ∧ u.ibs = [])

theorem encStep_raised {s u : State} (h : encStep s = .raised u) : s.EncoderFault u := by
  obtain ⟨-, k⟩ | ⟨hlt, hi, k⟩ | ⟨v, rest, hlt, hi, hv, k⟩ | ⟨_, _, _, -, -, -, k, -⟩ := encStep_cases s <;>
    cases k.symm.trans h
  · exact .inr ⟨rfl, rfl, hlt, hi⟩
  · exact .inl ⟨rfl, v, rfl, hv, by simp [hi]⟩

theorem encRunBody_raised {s u : State} (h : encRunBody s = .raised u) : s.EncoderFault u := by
  have hkeep (t t' : State) (ht : t.codeLen = s.codeLen ∧ t.ibs <:+ s.ibs) (_ : t.encd < t.encn)
      (hstep : encStep t = .done t') : t'.codeLen = s.codeLen ∧ t'.ibs <:+ s.ibs := by
    obtain ⟨-, k⟩ | ⟨-, -, k⟩ | ⟨_, _, -, -, -, k⟩ | ⟨v, rest, x, -, hi, -, k, -, hx⟩ := encStep_cases t <;>
      cases k.symm.trans hstep
    · exact ht
    · rw [hx]
      exact ⟨ht.1, ((List.suffix_cons v rest).trans (hi ▸ ht.2) :)⟩
  obtain ⟨t, -, -, hrun⟩ | ⟨t, x, ⟨hlen, hibs⟩, -, hstep, hrun⟩ := encRunBody_induction hkeep s ⟨rfl, List.suffix_rfl⟩ <;>
    cases hrun.symm.trans h
  obtain ⟨h6, v, hinfo, hv, hmem⟩ | h7 := encStep_raised hstep
  · exact .inl ⟨h6, v, hinfo, hlen ▸ hv, hibs.subset hmem⟩
  · exact .inr h7

/-! ### The decoder -/

/-- What `NO_TREE` and `TRUNC_DEC` record in `u`, seen from the state `s` the command started in (R181, R190, R208). -/
def State.DecoderFault (s u : State) : Prop :=
  (u.fcode = 5 ∧ u.finfo = 0 ∧ s.decd < s.decm ∧ s.nc = 0) ∨
  (u.fcode = 8 ∧ u.finfo = u.decd ∧ u.decd < u.decm ∧ u.rcnt = 0 ∧ u.pbs = [])

theorem decStep_raised {s u : State} (h : decStep s = .raised u) : s.DecoderFault u := by
  obtain ⟨-, k⟩ | ⟨hlt, h0, k⟩ | ⟨hlt, -, hr, hp, k⟩ | ⟨_, _, -, -, k, -⟩ := decStep_cases s <;> cases k.symm.trans h
  · exact .inl ⟨rfl, rfl, hlt, h0⟩
  · exact .inr ⟨rfl, rfl, hlt, hr, hp⟩

/-- The fault of a step inside a loop is that of the loop: the tree is the same, and a byte was owed from the start. -/
theorem State.DecoderFault.of_step {s t u : State} (hlt : s.decd < s.decm) (hnc : t.nc = s.nc) (h : t.DecoderFault u) :
    s.DecoderFault u :=
  h.imp_left fun ⟨h5, hinfo, _, h0⟩ => ⟨h5, hinfo, hlt, hnc.symm.trans h0⟩

theorem decRunBody_raised {s u : State} (h : decRunBody s = .raised u) : s.DecoderFault u := by
  have hlt : s.decd < s.decm := BitVec.not_le.mp fun hge => by cases (decRunBody_atCount hge).symm.trans h
  obtain ⟨t, -, -, hrun⟩ | ⟨t, x, ⟨hnc, -⟩, -, hstep, hrun⟩ :=
      decRunBody_induction (decStep_keeps_nc_fcode s) s ⟨rfl, rfl⟩ <;>
    cases hrun.symm.trans h
  exact .of_step hlt hnc (decStep_raised hstep)

theorem decSymBody_raised {s u : State} (h : decSymBody s = .raised u) : s.DecoderFault u := by
  have hlt : s.decd < s.decm := BitVec.not_le.mp fun hge => by cases (decSymBody_atCount hge).symm.trans h
  obtain ⟨t, -, hrun⟩ | ⟨t, x, ⟨hnc, -⟩, -, hstep, hrun⟩ :=
      decSymBody_induction (decStep_keeps_nc_fcode s) s ⟨rfl, rfl⟩ <;>
    cases hrun.symm.trans h
  exact .of_step hlt hnc (decStep_raised hstep)

/-! ### Every command -/

section
variable {i : Instr} {s t : State} (hf : s.fcode = 0) (h : exec i s = .next t) (hne : t.fcode ≠ 0)
include hf h hne

theorem exec_encoder_fault (hi : i = .encStep ∨ i = .encRun) : s.EncoderFault t := by
  obtain rfl | rfl := hi
  · obtain ⟨u, hu, rfl⟩ := command_raised hf h hne (encStep_faultsOnlyWith s)
    exact (encStep_raised hu :)
  · obtain ⟨u, hu, rfl⟩ := command_raised hf h hne (encRunBody_faultsOnlyWith s)
    exact (encRunBody_raised hu :)

theorem exec_decoder_fault (hi : i = .decStep ∨ i = .decSym ∨ i = .decRun) : s.DecoderFault t := by
  obtain rfl | rfl | rfl := hi
  · obtain ⟨u, hu, rfl⟩ := command_raised hf h hne (decStep_faultsOnlyWith s)
    exact (decStep_raised hu :)
  · obtain ⟨u, hu, rfl⟩ := command_raised hf h hne (decSymBody_faultsOnlyWith s)
    exact (decSymBody_raised hu :)
  · obtain ⟨u, hu, rfl⟩ := command_raised hf h hne (decRunBody_faultsOnlyWith s)
    exact (decRunBody_raised hu :)

omit h in
/-- A guarded command whose pseudocode raises nothing can record `SEQ` only (R141); `h` as `guarded_cases` gives it. -/
theorem guarded_fault {started : Prop} {w : Word64} {r : State}
    (h : (s.fcode ≠ 0 ∧ t = s.passed) ∨ (s.fcode = 0 ∧ started ∧ t = s.faulted 2 w) ∨
      (s.fcode = 0 ∧ ¬ started ∧ t = r.advance))
    (hr : r.fcode = s.fcode) : started ∧ t.fcode = 2 ∧ t.finfo = w := by
  obtain ⟨hh, -⟩ | ⟨-, hs, rfl⟩ | ⟨-, -, rfl⟩ := h
  · exact absurd hf hh
  · exact ⟨hs, rfl, rfl⟩
  · exact absurd (hr.trans hf) hne

end

/-- The commands with no cause do not fault (R208). -/
theorem exec_fcode_of_no_cause {i : Instr} {s t : State} (hf : s.fcode = 0) (h : exec i s = .next t)
    (hi : s.faultCauses i = []) : t.fcode = 0 := by
  obtain h0 | ⟨c, hc, -⟩ := exec_fcode hf h
  · exact h0
  · rw [hi] at hc
    cases hc

/-- The rows of R208 for a command `i` with the word `w`, from `s` to `t`: all but `ILLEGAL_CMD`. -/
def FaultRow (w : CmdWord) (i : Instr) (s t : State) : Prop :=
  (t.fcode = 2 ∧ t.finfo = w.zeroExtend 64 ∧
    ((i = .trClr ∨ (∃ l r ll rl, i = .trPush l r ll rl) ∨ i = .ctBuild) ∧ (s.encd ≠ 0 ∨ s.decd ≠ 0 ∨ s.walk = true) ∨
     ((∃ imm, i = .setnLo imm) ∨ (∃ imm, i = .setnHi imm)) ∧ s.encd ≠ 0 ∨
     ((∃ imm, i = .setmLo imm) ∨ (∃ imm, i = .setmHi imm)) ∧ (s.decd ≠ 0 ∨ s.walk = true))) ∨
  (t.fcode = 3 ∧ t.finfo = w.zeroExtend 64 ∧ (∃ l r ll rl, i = .trPush l r ll rl) ∧ s.nc = 255) ∨
  (t.fcode = 4 ∧ t.finfo = w.zeroExtend 64 ∧
    ∃ l r ll rl, i = .trPush l r ll rl ∧ (ll = false ∧ s.nc ≤ l ∨ rl = false ∧ s.nc ≤ r)) ∨
  (t.fcode = 5 ∧ t.finfo = 0 ∧ (i = .decStep ∨ i = .decSym ∨ i = .decRun) ∧ s.decd < s.decm ∧ s.nc = 0) ∨
  (t.fcode = 6 ∧ (i = .encStep ∨ i = .encRun) ∧ ∃ v : Byte, t.finfo = v.zeroExtend 64 ∧ s.codeLen v = 0 ∧ v ∈ s.ibs) ∨
  (t.fcode = 7 ∧ (i = .encStep ∨ i = .encRun) ∧ t.finfo = t.encd ∧ t.encd < t.encn ∧ t.ibs = []) ∨
  (t.fcode = 8 ∧ (i = .decStep ∨ i = .decSym ∨ i = .decRun) ∧ t.finfo = t.decd ∧ t.decd < t.decm ∧
    t.rcnt = 0 ∧ t.pbs = []) ∨
  (t.fcode = 9 ∧ t.finfo = 0 ∧ i = .brBit ∧ s.rcnt = 0 ∧ s.pbs = [])

section
variable {s t : State} (hf : s.fcode = 0) (hne : t.fcode ≠ 0)
include hf hne

theorem exec_trPush_fault {l r : Byte} {ll rl : Bool} (h : exec (.trPush l r ll rl) s = .next t) :
    FaultRow (encode (.trPush l r ll rl)) (.trPush l r ll rl) s t := by
  obtain ⟨hh, -⟩ | ⟨-, hs, rfl⟩ | ⟨-, -, rfl⟩ := guarded_cases (guardTree_eq (.trPush l r ll rl) _ s) h
  · exact absurd hf hh
  · exact .inl ⟨rfl, rfl, .inl ⟨.inr (.inl ⟨l, r, ll, rl, rfl⟩), hs⟩⟩
  · obtain ⟨hfull, hb⟩ | ⟨hinvalid, hb⟩ | hb := trPushBody_cases l r ll rl s <;> rw [hb] at hne ⊢
    · exact .inr (.inl ⟨rfl, rfl, ⟨l, r, ll, rl, rfl⟩, hfull⟩)
    · exact .inr (.inr (.inl ⟨rfl, rfl, l, r, ll, rl, rfl, hinvalid⟩))
    · exact absurd hf hne

theorem exec_brBit_fault (h : exec .brBit s = .next t) : FaultRow (encode .brBit) .brBit s t := by
  obtain ⟨hh, -⟩ | ⟨-, h0, hp, rfl⟩ | ⟨b, u, -, hn, rfl⟩ := exec_brBit_cases h
  · exact absurd hf hh
  · exact .inr (.inr (.inr (.inr (.inr (.inr (.inr ⟨rfl, rfl, rfl, h0, hp⟩))))))
  · exact absurd ((congrArg State.fcode (State.nextBit_some hn).1 :).trans hf) hne

theorem faultRow_of_encoder {i : Instr} (hi : i = .encStep ∨ i = .encRun) (h : exec i s = .next t) :
    FaultRow (encode i) i s t := by
  obtain ⟨h6, hlookup⟩ | ⟨h7, htrunc⟩ := exec_encoder_fault hf h hne hi
  · exact .inr (.inr (.inr (.inr (.inl ⟨h6, hi, hlookup⟩))))
  · exact .inr (.inr (.inr (.inr (.inr (.inl ⟨h7, hi, htrunc⟩)))))

theorem faultRow_of_decoder {i : Instr} (hi : i = .decStep ∨ i = .decSym ∨ i = .decRun) (h : exec i s = .next t) :
    FaultRow (encode i) i s t := by
  obtain ⟨h5, hinfo, hnone⟩ | ⟨h8, htrunc⟩ := exec_decoder_fault hf h hne hi
  · exact .inr (.inr (.inr (.inl ⟨h5, hinfo, hi, hnone⟩)))
  · exact .inr (.inr (.inr (.inr (.inr (.inr (.inl ⟨h8, hi, htrunc⟩))))))

/-- The fault a command of a running block records is one of its own row (R208). -/
theorem exec_faultRow {i : Instr} (h : exec i s = .next t) (hrd : ∀ csr, i ≠ .rd csr) : FaultRow (encode i) i s t := by
  cases i with
  | rd csr => exact absurd rfl (hrd csr)
  | trClr =>
    obtain ⟨hs, h2, hinfo⟩ := guarded_fault hf hne (guarded_cases (guardTree_eq .trClr _ s) h) rfl
    exact .inl ⟨h2, hinfo, .inl ⟨.inl rfl, hs⟩⟩
  | trPush l r ll rl => exact exec_trPush_fault hf hne h
  | ctBuild =>
    obtain ⟨hs, h2, hinfo⟩ := guarded_fault hf hne (guarded_cases (guardTree_eq .ctBuild _ s) h)
      (congrArg State.fcode s.buildTable_frame :)
    exact .inl ⟨h2, hinfo, .inl ⟨.inr (.inr rfl), hs⟩⟩
  | setnLo imm =>
    obtain ⟨hs, h2, hinfo⟩ := guarded_fault hf hne (guarded_cases (guardEnc_eq (.setnLo imm) _ s) h) rfl
    exact .inl ⟨h2, hinfo, .inr (.inl ⟨.inl ⟨imm, rfl⟩, hs⟩)⟩
  | setnHi imm =>
    obtain ⟨hs, h2, hinfo⟩ := guarded_fault hf hne (guarded_cases (guardEnc_eq (.setnHi imm) _ s) h) rfl
    exact .inl ⟨h2, hinfo, .inr (.inl ⟨.inr ⟨imm, rfl⟩, hs⟩)⟩
  | setmLo imm =>
    obtain ⟨hs, h2, hinfo⟩ := guarded_fault hf hne (guarded_cases (guardDec_eq (.setmLo imm) _ s) h) rfl
    exact .inl ⟨h2, hinfo, .inr (.inr ⟨.inl ⟨imm, rfl⟩, hs⟩)⟩
  | setmHi imm =>
    obtain ⟨hs, h2, hinfo⟩ := guarded_fault hf hne (guarded_cases (guardDec_eq (.setmHi imm) _ s) h) rfl
    exact .inl ⟨h2, hinfo, .inr (.inr ⟨.inr ⟨imm, rfl⟩, hs⟩)⟩
  | brBit => exact exec_brBit_fault hf hne h
  | encStep => exact faultRow_of_encoder hf hne (.inl rfl) h
  | encRun => exact faultRow_of_encoder hf hne (.inr rfl) h
  | decStep => exact faultRow_of_decoder hf hne (.inl rfl) h
  | decSym => exact faultRow_of_decoder hf hne (.inr (.inl rfl)) h
  | decRun => exact faultRow_of_decoder hf hne (.inr (.inr rfl)) h
  | reset | brEnd | bwBit b | bwFlush => exact absurd (exec_fcode_of_no_cause hf h rfl) hne

end

/-- Settles O11: a word that is no command, or names no register, records itself; the fault of any other command is one of its
own row (`exec_faultRow`), its word being the one taken (`encode_of_decode`). -/
theorem faultCausesAreTheTable : Obligations.FaultCausesAreTheTable := by
  refine ⟨fun s t w hf hw hst hne => ?_, fun s t i hf h hi => ?_⟩
  · obtain ⟨hnone, -⟩ | ⟨w', i, hw', hd, h⟩ | ⟨w', e, hw', hd, ⟨hh, -⟩ | ⟨-, rfl⟩⟩ := step_cases hst
    · cases hw.symm.trans hnone
    · obtain rfl := Option.some.inj (hw.symm.trans hw')
      obtain rfl := encode_of_decode hd
      by_cases hrd : ∀ csr, i ≠ .rd csr
      · exact .inr ⟨i, hd, exec_faultRow hf hne h hrd⟩
      · push Not at hrd
        obtain ⟨csr, rfl⟩ := hrd
        obtain ⟨c, rfl⟩ | ⟨-, hh, -⟩ | ⟨hcsr, -, rfl⟩ := exec_rd_cases h
        · exact absurd ((s.readCsr_fcode c).trans hf) hne
        · exact absurd hf hh
        · exact .inl ⟨rfl, rfl, .inr ⟨csr, hd, hcsr⟩⟩
    · exact absurd hf hh
    · obtain rfl := Option.some.inj (hw.symm.trans hw')
      exact .inl ⟨rfl, rfl, .inl ⟨e, hd⟩⟩
  · obtain rfl | rfl | ⟨b, rfl⟩ | rfl := hi <;> exact exec_fcode_of_no_cause hf h rfl

end Sys2Proof.Machine
end

section
/-! Three short obligations of the configuration and the counts (R94, R160, R170, R180), and the bits a cursor reads back
(40_bit_cursor R122, R129; 20_memory R67). -/

namespace Sys2Proof.Machine

/-! ### Configuration and counts -/

/-- Writing both halves of a count, the high one first, replaces it. -/
@[simp] theorem setLowHalf_setHighHalf (n v : Word64) :
    setLowHalf (setHighHalf n (v.extractLsb' 32 32)) (v.extractLsb' 0 32) = v :=
  Word64.ext_halves (by simp) (by simp)

/-- Settles O30: whichever half is written first, the two replace the count (`setHighHalf_setLowHalf`,
`setLowHalf_setHighHalf`). -/
theorem countsLoadInEitherOrder : Obligations.CountsLoadInEitherOrder := by
  refine fun s v hf => ⟨fun he => ?_, fun hd hw => ?_⟩
  · simp [exec_setnLo_running, exec_setnHi_running, hf, he]
  · simp [exec_setmLo_running, exec_setmHi_running, hf, hd, hw]

/-- Without a tree `BuildTable` empties the table (R160). -/
theorem State.codeLen_buildTable_of_noTree {s : State} (h : s.nc = 0) (v : Byte) : s.buildTable.codeLen v = 0 := by
  rw [State.buildTable_eq, if_pos h]
  exact State.codeLen_clearCodes s v

/-- Settles O33: the guard answers once an engine has started, and `BuildTable` writes the table only
(`State.buildTable_frame`). -/
theorem ctBuildWritesOnlyTheTable : Obligations.CtBuildWritesOnlyTheTable := by
  refine ⟨rfl, fun s hf => ⟨fun h => command_guardTree_started hf h .ctBuild _, fun he hd hw => ?_⟩⟩
  exact ⟨_, exec_ctBuild_running hf he hd hw, congrArg State.advance s.buildTable_frame, State.codeLen_buildTable_of_noTree⟩

/-- Settles O49: at the count the pseudocode of each engine is the identity. -/
theorem satisfiedCountsReadNothing : Obligations.SatisfiedCountsReadNothing := by
  refine fun s hf => ⟨fun h => ⟨?_, ?_⟩, fun h => ⟨?_, ?_, ?_⟩⟩
  · rw [exec_encRun_running hf, encRunBody_atCount h]
    rfl
  · rw [exec_encStep_running hf, encStep_atCount h]
    rfl
  · exact exec_decoder_atCount (.inr (.inr rfl)) hf h
  · exact exec_decoder_atCount (.inr (.inl rfl)) hf h
  · exact exec_decoder_atCount (.inl rfl) hf h

/-! ### Reading in order -/

/-- Settles O20: `next_bit` answers the first unread bit (`State.nextBit_of_unread`), and since at most seven bits stay buffered
the rest fixes how many bytes are left on `PBS`. -/
theorem readCursorFollowsTheStream : Obligations.ReadCursorFollowsTheStream := by
  refine fun s h8 => ⟨s.length_unreadBits, s.atEnd_iff.trans s.unreadBits_eq_nil_iff.symm, fun hf b rest hbits => ?_⟩
  obtain ⟨u, hn, hrest, h7, hu⟩ := State.nextBit_of_unread h8 hbits
  have hlen : rest.length = u.rcnt.toNat + 8 * u.pbs.length := hrest ▸ u.length_unreadBits
  have h7' : u.rcnt.toNat ≤ 7 := h7
  refine ⟨_, exec_brBit_answers hf hn, hrest, ⟨?_, ?_, fun _ => h7⟩, (congrArg (State.rsp · ++ [_]) hu :), ?_⟩
  · exact hbits.trans (congrArg (b :: ·) hrest.symm)
  · exact BitVec.le_trans h7 (by decide)
  · change u.pbs.length = rest.length / 8
    omega

/-! ### Reading back what was written -/

/-- Settles O21. -/
theorem unpackUndoesPack : Obligations.UnpackUndoesPack :=
  fun bits pad => ⟨List.prefix_iff_eq_take.mp (prefix_unpack_pack pad bits) |>.symm, length_pack pad bits, length_unpack⟩

/-- Settles O23: the flush has pushed `Pack` of the bits put (`putAndFlushPack`), which a cursor that starts on it unpacks
(`unpack_pack`). -/
theorem cursorRoundTrip : Obligations.CursorRoundTrip := by
  intro s t r bits hf h0 hflush hobs hr
  obtain ⟨⟨u, hu, -, hpack, -⟩, -⟩ := putAndFlushPack s bits hf h0
  obtain rfl := Host.Outcome.next.inj (hflush.symm.trans hu)
  rw [State.unreadBits_of_empty_buffer hr, List.append_cancel_left (hobs.symm.trans hpack)]
  exact unpack_pack _ bits

end Sys2Proof.Machine
end

section
/-! `ENC.RUN` to its count and up to its faults (43_encoder R172, R174, R176). -/

namespace Sys2Proof.Machine

/-- Settles O38: the codes of the bytes owed are put (`exec_encRun_encodes`). -/
theorem encRunEncodesToTheCount : Obligations.EncRunEncodesToTheCount := by
  refine ⟨rfl, fun s n hf hle hn hlen hcodes => exec_encRun_encodes hf ?_ hlen hcodes⟩
  bv_omega

/-- An `enc_step` that raises ends the loop (R172). -/
theorem encRunBody_of_raised {s t : State} (h : encStep s = .raised t) : encRunBody s = .raised t := by
  have hlt : s.encd < s.encn := BitVec.not_le.mp fun hge => by cases (encStep_atCount hge).symm.trans h
  rw [encRunBody_eq, if_pos hlt, h]

section
variable {s : State} {good : List Byte} (hf : s.fcode = 0) (hcount : s.encd.toNat + good.length < s.encn.toNat)
  (hcodes : ∀ v ∈ good, s.codeLen v ≠ 0)
include hf hcount hcodes

/-- `ENC.RUN` faults at the first byte that has no code, that byte popped (R172). -/
theorem exec_encRun_lookup {v : Byte} {rest : List Byte} (hi : s.ibs = good ++ v :: rest) (hv : s.codeLen v = 0) :
    ∃ t, exec .encRun s = .next t ∧ s.Wrote t (good.flatMap s.code) ∧
      t = { s with ibs := rest, encd := s.encd + BitVec.ofNat 64 good.length, fcode := 6, finfo := v.zeroExtend 64,
                   wacc := t.wacc, wfill := t.wfill, obs := t.obs, pc := s.pc + 1 } := by
  obtain ⟨t, hrun, hwrote, ht⟩ := encRunBody_encodes good (v :: rest) hi hcount.le hcodes
  have hlt : t.encd < t.encn := by rw [ht]; bv_omega
  have hstep := encStep_lookup hlt (by rw [ht]) (show t.codeLen v = 0 by rw [ht]; exact hv)
  refine ⟨{ t with ibs := rest, fcode := 6, finfo := v.zeroExtend 64, pc := t.pc + 1 }, ?_, hwrote, by rw [ht]⟩
  rw [exec_encRun_running hf, hrun, encRunBody_of_raised hstep]
  rfl

/-- `ENC.RUN` faults when the input ends before the count (R172). -/
theorem exec_encRun_truncated (hi : s.ibs = good) :
    ∃ t, exec .encRun s = .next t ∧ s.Wrote t (good.flatMap s.code) ∧
      t = { s with ibs := [], encd := s.encd + BitVec.ofNat 64 good.length, fcode := 7,
                   finfo := s.encd + BitVec.ofNat 64 good.length,
                   wacc := t.wacc, wfill := t.wfill, obs := t.obs, pc := s.pc + 1 } := by
  obtain ⟨t, hrun, hwrote, ht⟩ := encRunBody_encodes good [] (hi.trans good.append_nil.symm) hcount.le hcodes
  have hlt : t.encd < t.encn := by rw [ht]; bv_omega
  have hstep := encStep_truncated hlt (by rw [ht])
  refine ⟨{ t with fcode := 7, finfo := t.encd, pc := t.pc + 1 }, ?_, hwrote, by rw [ht]⟩
  rw [exec_encRun_running hf, hrun, encRunBody_of_raised hstep]
  rfl

end

/-- Settles O39: the bytes before the fault are encoded (`encRunBody_encodes`), and the next `enc_step` raises. -/
theorem encRunFaultsAtTheFirstBadByte : Obligations.EncRunFaultsAtTheFirstBadByte := by
  intro s good hf hle hlen hcodes
  have hcount : s.encd.toNat + good.length < s.encn.toNat := by bv_omega
  exact ⟨fun v rest hi hv => exec_encRun_lookup hf hcount hcodes hi hv, exec_encRun_truncated hf hcount hcodes⟩

/-- Under the invariant a byte has no code exactly when it stands at no leaf path or the table is empty (R176, log 22). -/
theorem State.Inv.codeLen_eq_zero_iff {s : State} (h : s.Inv) (v : Byte) :
    s.codeLen v = 0 ↔ (∀ p, s.leafValue p ≠ some v) ∨ ∀ u, s.codeLen u = 0 := by
  have hbuilt := State.codeLen_buildTable_eq_zero_iff h.treeWF v
  rw [← State.code_eq_nil_iff] at hbuilt
  refine ⟨fun hv => ?_, ?_⟩
  · obtain hempty | hwhole := h.tableWhole
    · exact .inr hempty
    · rw [← State.code_eq_nil_iff, hwhole v, hbuilt] at hv
      exact .inl hv
  · rintro (hnone | hempty)
    · by_contra hv
      exact hv ((State.code_eq_nil_iff s v).mp ((h.table v hv).trans (hbuilt.mpr hnone)))
    · exact hempty v

/-- `ENC.RUN` faults with `LOOKUP` exactly when one of the bytes it is to encode has no code (R172). -/
theorem exec_encRun_fcode_eq_six_iff {s t : State} {n : Nat} (hf : s.fcode = 0) (hn : s.encd.toNat + n = s.encn.toNat)
    (h : exec .encRun s = .next t) : t.fcode = 6 ↔ ∃ v ∈ s.ibs.take n, s.codeLen v = 0 := by
  cases hx : (s.ibs.take n).find? (s.codeLen · = 0) with
  | none =>
    have hgood : ∀ v ∈ s.ibs.take n, s.codeLen v ≠ 0 := by simpa using hx
    refine iff_of_false ?_ fun ⟨v, hmem, hv⟩ => hgood v hmem hv
    obtain hlen | hlen := le_or_gt n s.ibs.length
    · obtain ⟨u, hu, -, hframe⟩ := exec_encRun_encodes hf hn hlen hgood
      obtain rfl := Host.Outcome.next.inj (h.symm.trans hu)
      rw [hframe, hf]
      decide
    · rw [List.take_of_length_le hlen.le] at hgood
      obtain ⟨u, hu, -, hframe⟩ := exec_encRun_truncated hf (by omega) hgood rfl
      obtain rfl := Host.Outcome.next.inj (h.symm.trans hu)
      rw [show t.fcode = 7 from congrArg State.fcode hframe]
      decide
  | some v =>
    obtain ⟨hv, good, rest, hsplit, hgood⟩ := List.find?_eq_some_iff_append.mp hx
    have hv : s.codeLen v = 0 := of_decide_eq_true hv
    have hlen : good.length < n := by
      have := congrArg List.length hsplit
      simp at this
      omega
    have hi : s.ibs = good ++ v :: (rest ++ s.ibs.drop n) := by
      rw [← List.cons_append, ← List.append_assoc, ← hsplit, List.take_append_drop]
    obtain ⟨u, hu, -, hframe⟩ := exec_encRun_lookup hf (by omega) (by simpa using hgood) hi hv
    obtain rfl := Host.Outcome.next.inj (h.symm.trans hu)
    refine iff_of_true (by rw [hframe]) ⟨v, ?_, hv⟩
    rw [hsplit]
    exact List.mem_append_right good List.mem_cons_self

/-- Settles O40: the run faults with `LOOKUP` on a byte without a code (`exec_encRun_fcode_eq_six_iff`), which under the
invariant is a byte at no leaf or a byte of an empty table (`State.Inv.codeLen_eq_zero_iff`). -/
theorem lookupMeansNoLeafOrNoTable : Obligations.LookupMeansNoLeafOrNoTable := by
  intro s t hinv hf h
  have hle := hinv.encd_le
  simp only [← hinv.codeLen_eq_zero_iff]
  exact exec_encRun_fcode_eq_six_iff hf (by bv_omega) h

end Sys2Proof.Machine
end

section
/-! Steps and runs compose (43_encoder R173, 44_decoder R184). -/

namespace Sys2Proof.Machine

/-- A command that does the first part of what another does, and then that other, do what the other does: a first part that
completes leaves the rest, a first part that raises is the whole, and neither depends on `pc`. -/
theorem command_compose {first whole : State → Flow} (hwhole : IgnoresProgram whole) {s : State}
    {causes : List Cause} (hfault : (first s).FaultsOnlyWith causes s.fcode)
    (hdone : ∀ t, first s = .done t → whole s = whole t) (hraised : ∀ t, first s = .raised t → whole s = .raised t) :
    ∃ t u, command first s = .next t ∧ command whole t = .next u ∧ command whole s = .next { u with pc := s.pc + 1 } := by
  by_cases hf : s.fcode = 0
  · obtain ⟨a, ha, hpc, -, -⟩ := (command_counts hwhole).next s
    have hself : { a with pc := s.pc + 1 } = a := by rw [← hpc]
    have hwhole_s := command_running hf whole
    cases h : first s with
    | done t =>
      rw [h] at hfault
      have hft : t.fcode = 0 := hfault.trans hf
      obtain ⟨b, hb, -, -, hcount⟩ := (command_counts hwhole).next t
      have hab : a = b := by
        rw [hdone t h, ← command_running hft whole, hb] at hwhole_s
        exact Host.Outcome.next.inj (ha.symm.trans hwhole_s)
      refine ⟨t.advance, _, ?_, hcount (t.pc + 1), ?_⟩
      · rw [command_running hf, h]
        rfl
      · rw [ha, ← hab]
        exact congrArg _ hself.symm
    | raised t =>
      rw [h] at hfault
      obtain ⟨c, -, hc⟩ := hfault
      have hft : t.advance.fcode ≠ 0 := hc ▸ c.code_range.1
      refine ⟨t.advance, t.advance.passed, ?_, command_halted hft whole, ?_⟩
      · rw [command_running hf, h]
        rfl
      · rw [hraised t h] at hwhole_s
        obtain rfl := Host.Outcome.next.inj (ha.symm.trans hwhole_s)
        exact hwhole_s.trans (congrArg _ hself.symm)
  · exact ⟨s.passed, s.passed.passed, command_halted hf first, command_halted (s := s.passed) hf whole, command_halted hf whole⟩

/-- A `dec_step` that raises ends the loop of `DEC.RUN` (R183). -/
theorem decRunBody_of_raised {s t : State} (h : decStep s = .raised t) : decRunBody s = .raised t := by
  have hlt : s.decd < s.decm := BitVec.not_le.mp fun hge => by cases (decStep_atCount hge).symm.trans h
  rw [decRunBody_eq, if_pos hlt, h]

/-- A symbol that raises ends the loop of `DEC.RUN` (R184). -/
theorem decRunBody_of_decSymBody_raised {s u : State} (h : decSymBody s = .raised u) : decRunBody s = .raised u := by
  have hkeep (a b : State) (ha : decRunBody s = decRunBody a) (hlt : a.decd < a.decm) (hb : decStep a = .done b) :
      decRunBody s = decRunBody b := ha.trans (decRunBody_of_decStep hlt hb)
  obtain ⟨t, -, hsym⟩ | ⟨t, x, ht, -, hstep, hsym⟩ := decSymBody_induction hkeep s rfl <;> cases hsym.symm.trans h
  exact ht.trans (decRunBody_of_raised hstep)

/-- `ENC.STEP` and then `ENC.RUN` do what `ENC.RUN` does, at the count too (R173). -/
theorem encRunBody_eq_of_encStep {s t : State} (h : encStep s = .done t) : encRunBody s = encRunBody t := by
  by_cases hlt : s.encd < s.encn
  · exact encRunBody_of_encStep hlt h
  · rw [Flow.done.inj ((encStep_atCount (BitVec.not_lt.mp hlt)).symm.trans h)]

/-- `DEC.STEP` and then `DEC.RUN` do what `DEC.RUN` does, at the count too (R184). -/
theorem decRunBody_eq_of_decStep {s t : State} (h : decStep s = .done t) : decRunBody s = decRunBody t := by
  by_cases hlt : s.decd < s.decm
  · exact decRunBody_of_decStep hlt h
  · rw [Flow.done.inj ((decStep_atCount (BitVec.not_lt.mp hlt)).symm.trans h)]

/-- Settles O41: each first command is the first part of the run (`command_compose`): one iteration of its loop, or one symbol. -/
theorem stepsThenRunEqualRun : Obligations.StepsThenRunEqualRun := fun s =>
  ⟨command_compose encRunBody_ignores (encStep_faultsOnlyWith s) (fun _ => encRunBody_eq_of_encStep)
      (fun _ => encRunBody_of_raised),
   command_compose decRunBody_ignores (decStep_faultsOnlyWith s) (fun _ => decRunBody_eq_of_decStep)
      (fun _ => decRunBody_of_raised),
   command_compose decRunBody_ignores (decSymBody_faultsOnlyWith s) (fun _ => decRunBody_of_decSymBody)
      (fun _ => decRunBody_of_decSymBody_raised)⟩

end Sys2Proof.Machine
end

section
/-! The decoder when the bits run out (44_decoder R185, R188), and how many bits are enough (R183, R186, R257). -/

namespace Sys2Proof.Machine

section
variable {s t : State} {b : Bool} {p : List Bool} {v : Byte}

/-! ### One edge of a leaf path -/

/-- An edge to a literal ends the path. -/
theorem State.leafFrom_cons_of_leaf {i : Byte} (hc : s.childIsLeaf i b = true) (h : s.leafFrom i (b :: p) = some v) : p = [] := by
  rw [State.leafFrom, hc, if_pos rfl, Option.ite_none_right_eq_some] at h
  exact h.1

/-- An edge to a node leaves the rest of the path to be walked from that node. -/
theorem State.leafFrom_cons_of_node {i : Byte} (hc : s.childIsLeaf i b = false) :
    s.leafFrom i (b :: p) = s.leafFrom (s.child i b) p := by
  rw [State.leafFrom, hc, if_neg Bool.false_ne_true]

/-- After a `dec_step` to a child node the walk stands at that node, with the rest of the path before it. -/
theorem State.leafFrom_walkNode_of_node (hc : s.childIsLeaf s.walkNode b = false)
    (ht : t = { s with cur := s.child s.walkNode b, walk := true, rbuf := t.rbuf, rcnt := t.rcnt, pbs := t.pbs })
    (h : s.leafFrom s.walkNode (b :: p) = some v) : t.leafFrom t.walkNode p = some v := by
  have hnode : t.walkNode = s.child s.walkNode b := by rw [ht]; rfl
  rw [hnode, ← h, State.leafFrom_cons_of_node hc]
  exact State.leafFrom_congr (by rw [ht]) (by rw [ht]) (by rw [ht]) p _

end

/-! ### A symbol cut short -/

/-- A `dec_step` that raises ends the loop of `DEC.SYM` (R184). -/
theorem decSymBody_of_raised {s t : State} (h : decStep s = .raised t) : decSymBody s = .raised t := by
  have hlt : s.decd < s.decm := BitVec.not_le.mp fun hge => by cases (decStep_atCount hge).symm.trans h
  rw [decSymBody_eq, if_pos hlt, h]

/-- `DEC.SYM` in a running block is its loop (R184). -/
theorem exec_decSym_running {s : State} (hf : s.fcode = 0) : exec .decSym s = .next (decSymBody s).state.advance :=
  command_running hf decSymBody

/-- The loop of `DEC.SYM` faults when the bits end inside the path, all of them read (R185, R188). -/
theorem decSymBody_truncated {v : Byte} (p : List Bool) : ∀ {s : State}, s.rcnt ≤ 8 → s.decd < s.decm → s.nc ≠ 0 →
    s.leafFrom s.walkNode p = some v → s.unreadBits <+: p → s.unreadBits ≠ p →
    ∃ t, decSymBody s = .raised t ∧ t.unreadBits = [] ∧
      t = { s with fcode := 8, finfo := s.decd, walk := true, cur := t.cur, rbuf := t.rbuf, rcnt := t.rcnt, pbs := t.pbs } := by
  induction p with
  | nil => intro s _ _ _ hpath; cases hpath
  | cons b p ih =>
    intro s h8 hlt h0 hpath hprefix hne
    cases hbits : s.unreadBits with
    | nil => exact ⟨_, decSymBody_of_raised (decStep_truncated hlt h0 hbits), hbits, rfl⟩
    | cons c bits =>
      rw [hbits] at hprefix hne
      obtain ⟨rfl, htail⟩ := List.cons_prefix_cons.mp hprefix
      obtain ⟨t, hstep, hread, -, hnode⟩ := decStep_reads h8 hlt h0 hbits
      cases hc : s.childIsLeaf s.walkNode c with
      | true =>
        obtain rfl := State.leafFrom_cons_of_leaf hc hpath
        exact absurd (congrArg (c :: ·) (List.prefix_nil.mp htail)) hne
      | false =>
        have ht := hnode hc
        have hrest := hread.unreadBits_eq hbits
        obtain ⟨u, hsym, hnil, hu⟩ := @ih t hread.rcnt_le (by rw [ht]; exact hlt) (by rw [ht]; exact h0)
          (State.leafFrom_walkNode_of_node hc ht hpath) (by rw [hrest]; exact htail) (by rw [hrest]; rintro rfl; exact hne rfl)
        refine ⟨u, (decSymBody_of_node hlt hstep (by rw [ht])).trans hsym, hnil, ?_⟩
        rw [ht] at hu
        exact hu

/-- Settles O43: the four clauses are the loop at the count, without a tree, on a whole path (`decSymBody_decodes`) and on the
beginning of one (`decSymBody_truncated`). -/
theorem decSymDecodesOneByte : Obligations.DecSymDecodesOneByte := by
  refine ⟨rfl, fun s hf h8 => ⟨exec_decoder_atCount (.inr (.inl rfl)) hf, exec_decoder_noTree (.inr (.inl rfl)) hf,
    fun p rest v hlt h0 hpath hbits => ?_, fun p v hlt h0 hpath hprefix hne => ?_⟩⟩
  · obtain ⟨t, hsym, hread, ht⟩ := decSymBody_decodes p h8 hlt h0 hpath hbits
    refine ⟨t.advance, by rw [exec_decSym_running hf, hsym, done_state], hread, hread.unreadBits_eq hbits, ?_⟩
    exact congrArg State.advance ht
  · obtain ⟨t, hsym, hnil, ht⟩ := decSymBody_truncated p h8 hlt h0 hpath hprefix hne
    exact ⟨t.advance, by rw [exec_decSym_running hf, hsym, raised_state], hnil, congrArg State.advance ht⟩

/-! ### Bits enough -/

/-- Whatever the bits are, a walk down a well-formed tree meets a literal: the node falls with each bit (R186). -/
theorem State.TreeWF.exists_leafFrom {s : State} (hwf : s.TreeWF) (bits : List Bool) : ∀ i : Byte, i < s.nc →
    i.toNat < bits.length → ∃ p rest v, bits = p ++ rest ∧ s.leafFrom i p = some v := by
  induction bits with
  | nil => intro i _ hlen; cases hlen
  | cons b bits ih =>
    intro i hi hlen
    rw [List.length_cons] at hlen
    cases hc : s.childIsLeaf i b with
    | true => exact ⟨[b], bits, s.child i b, rfl, by rw [State.leafFrom, hc, if_pos rfl, if_pos rfl]⟩
    | false =>
      have hchild := hwf.child_lt hi hc
      obtain ⟨p, rest, v, rfl, hp⟩ := ih (s.child i b) (BitVec.lt_trans hchild hi) (by bv_omega)
      exact ⟨b :: p, rest, v, rfl, (State.leafFrom_cons_of_node hc).trans hp⟩

/-- The next step of a walk is from a loaded node. -/
theorem State.walkNode_lt {s : State} (hwalk : s.walk = true → s.cur < s.nc) (h0 : s.nc ≠ 0) : s.walkNode < s.nc := by
  unfold State.walkNode
  split
  · exact hwalk ‹_›
  · exact State.root_lt h0

/-- On a well-formed tree `NC` bits are enough for a symbol, in the middle of it too (R186). -/
theorem decSymBody_completes {s : State} (hwf : s.TreeWF) (h8 : s.rcnt ≤ 8) (hwalk : s.walk = true → s.cur < s.nc)
    (hlt : s.decd < s.decm) (h0 : s.nc ≠ 0) (hlen : s.nc.toNat ≤ s.unreadBits.length) :
    ∃ t p v, decSymBody s = .done t ∧ s.Consumed t p ∧ 1 ≤ p.length ∧ p.length ≤ s.nc.toNat ∧
      t = { s with decd := s.decd + 1, walk := false, dbs := s.dbs ++ [v],
                   cur := t.cur, rbuf := t.rbuf, rcnt := t.rcnt, pbs := t.pbs } := by
  have hnode := State.walkNode_lt hwalk h0
  obtain ⟨p, rest, v, hbits, hp⟩ := hwf.exists_leafFrom s.unreadBits s.walkNode hnode (by bv_omega)
  obtain ⟨t, hsym, hread, ht⟩ := decSymBody_decodes p h8 hlt h0 hp hbits
  have hshort := State.length_leafFrom hwf hnode hp
  exact ⟨t, p, v, hsym, hread, List.length_pos_of_ne_nil (State.leafFrom_ne_nil hp), by bv_omega, ht⟩

/-- Settles O44: the bits begin with a leaf path (`State.TreeWF.exists_leafFrom`), no longer than the node allows
(`State.length_leafFrom`). -/
theorem noWalkGoesWrong : Obligations.NoWalkGoesWrong := by
  refine ⟨fun s c bits hwf hc hlen => ?_, fun s hwf hf h8 hwalk hlt h0 hlen => ?_⟩
  · obtain ⟨p, rest, v, hbits, hp⟩ := hwf.exists_leafFrom bits c hc hlen
    exact ⟨p, rest, v, hbits, hp, List.length_pos_of_ne_nil (State.leafFrom_ne_nil hp), State.length_leafFrom hwf hc hp⟩
  · obtain ⟨t, p, v, hsym, hread, h1, hn, ht⟩ := decSymBody_completes hwf h8 hwalk hlt h0 hlen
    refine ⟨t.advance, p, by rw [exec_decSym_running hf, hsym, done_state], ?_, ?_, ?_, hread, h1, hn⟩
    · exact (congrArg State.fcode ht :).trans hf
    · exact (congrArg State.walk ht :)
    · exact (congrArg State.decd ht :)

/-- Settles O45: `DEC.RUN` on as many leaf paths as bytes are owed (`exec_decRun_decodes`). -/
theorem decRunDecodesThePaths : Obligations.DecRunDecodesThePaths := by
  refine ⟨rfl, fun s ps vs rest hf h8 hwalk hle hlen hpaths hbits => ?_⟩
  obtain ⟨t, hrun, hread, ht⟩ := exec_decRun_decodes hf h8 hwalk (by bv_omega) hpaths hbits
  exact ⟨t, hrun, hread, hread.unreadBits_eq hbits, ht⟩

/-- On a well-formed tree `NC` bits for each byte owed are enough for the loop of `DEC.RUN` (R183, R257). -/
theorem decRunBody_completes (n : Nat) : ∀ {s : State}, s.TreeWF → s.rcnt ≤ 8 → s.nc ≠ 0 →
    (s.walk = true → s.cur < s.nc ∧ s.decd < s.decm) → s.decd.toNat + n = s.decm.toNat →
    s.nc.toNat * n ≤ s.unreadBits.length →
    ∃ t out, decRunBody s = .done t ∧ out.length = n ∧
      t = { s with decd := s.decd + BitVec.ofNat 64 n, walk := false, dbs := s.dbs ++ out,
                   cur := t.cur, rbuf := t.rbuf, rcnt := t.rcnt, pbs := t.pbs } := by
  induction n with
  | zero =>
    intro s _ _ _ hwalk hn _
    have hcount : s.decd = s.decm := BitVec.eq_of_toNat_eq hn
    have hw : s.walk = false := Bool.eq_false_iff.mpr fun hw => absurd (hwalk hw).2 (by rw [hcount]; exact BitVec.lt_irrefl _)
    refine ⟨s, [], decRunBody_atCount (by rw [hcount]; exact BitVec.le_refl _), rfl, ?_⟩
    rw [← hw, List.append_nil, BitVec.add_zero]
  | succ n ih =>
    intro s hwf h8 h0 hwalk hn hlen
    rw [Nat.mul_succ] at hlen
    obtain ⟨t, p, v, hsym, hread, -, hp, ht⟩ := decSymBody_completes hwf h8 (fun hw => (hwalk hw).1) (by bv_omega) h0 (by omega)
    have hbits := congrArg List.length hread.1
    rw [List.length_append] at hbits
    have hnc : t.nc = s.nc := by rw [ht]
    obtain ⟨u, out, hrun, hout, hu⟩ := @ih t (hwf.congr hnc (by rw [ht]) (by rw [ht]) (by rw [ht])) hread.rcnt_le (hnc ▸ h0)
      (fun hw => by rw [ht] at hw; cases hw) (by rw [ht]; bv_omega) (by rw [hnc]; omega)
    refine ⟨u, v :: out, (decRunBody_of_decSymBody hsym).trans hrun, by rw [List.length_cons, hout], ?_⟩
    rw [ht] at hu
    rw [Nat.add_comm, BitVec.ofNat_add, ← BitVec.add_assoc, ← List.singleton_append, ← List.append_assoc]
    exact hu

/-- Settles O46: `NC` bits are enough for each byte owed (`decRunBody_completes`). -/
theorem decRunCompletes : Obligations.DecRunCompletes := by
  intro s hwf hf h8 h0 hle hwalk hlen
  obtain ⟨t, out, hrun, hout, ht⟩ := decRunBody_completes (s.decm - s.decd).toNat hwf h8 h0 hwalk (by bv_omega) hlen
  refine ⟨t.advance, out, by rw [exec_decRun_running hf, hrun, done_state], ?_, ?_, ?_, ?_, hout⟩
  · exact (congrArg State.fcode ht :).trans hf
  · exact (congrArg State.walk ht :)
  · exact (congrArg State.decd ht :).trans (by bv_omega)
  · exact (congrArg State.dbs ht :)

/-! ### A payload cut short -/

/-- The loop of `DEC.RUN` on the beginning of the owed leaf paths decodes the whole ones and faults inside the next (R188). -/
theorem decRunBody_truncated {ps : List (List Bool)} {vs : List Byte} : ∀ {s : State},
    List.Forall₂ (fun p v => s.leafValue p = some v) ps vs → s.rcnt ≤ 8 → s.walk = false →
    s.decd.toNat + vs.length ≤ s.decm.toNat → s.unreadBits <+: ps.flatten → s.unreadBits.length < ps.flatten.length →
    ∃ t k, decRunBody s = .raised t ∧ t.unreadBits = [] ∧ k < vs.length ∧
      t = { s with fcode := 8, finfo := s.decd + BitVec.ofNat 64 k, walk := true, decd := s.decd + BitVec.ofNat 64 k,
                   dbs := s.dbs ++ vs.take k, cur := t.cur, rbuf := t.rbuf, rcnt := t.rcnt, pbs := t.pbs } := by
  induction vs generalizing ps with
  | nil =>
    intro s hpaths _ _ _ _ hlen
    obtain rfl := List.forall₂_nil_right_iff.mp hpaths
    cases hlen
  | cons v vs ih =>
    intro s hpaths h8 hwalk hcount hprefix hlen
    obtain ⟨p, qs, hp, hqs, rfl⟩ := List.forall₂_cons_right_iff.mp hpaths
    rw [List.flatten_cons] at hprefix hlen
    rw [List.length_cons] at hcount
    obtain hshort | hwhole := lt_or_ge s.unreadBits.length p.length
    · obtain ⟨h0, hleaf⟩ := (s.leafValue_eq_some_iff p v).mp hp
      obtain ⟨t, hsym, hnil, ht⟩ := decSymBody_truncated p h8 (by bv_omega) h0 (by rw [State.walkNode, hwalk]; exact hleaf)
        (List.prefix_of_prefix_length_le hprefix (List.prefix_append p _) hshort.le) (ne_of_apply_ne _ hshort.ne)
      refine ⟨t, 0, decRunBody_of_decSymBody_raised hsym, hnil, Nat.succ_pos _, ?_⟩
      rw [List.take_zero, List.append_nil, BitVec.add_zero]
      exact ht
    · obtain ⟨rest, hbits⟩ := List.prefix_of_prefix_length_le (List.prefix_append p _) hprefix hwhole
      rw [← hbits] at hprefix hlen
      obtain ⟨t, hrun, hread, -, ht⟩ := decRunBody_decodes (ps := [p]) (vs := [v]) (rest := rest) (.cons hp .nil) h8 hwalk
        (by rw [List.length_singleton]; omega) (by rw [← hbits]; simp)
      have hpath : t.leafValue = s.leafValue :=
        funext (State.leafValue_congr (by rw [ht]) (by rw [ht]) (by rw [ht]) (by rw [ht]))
      have hrest : t.unreadBits = rest := hread.unreadBits_eq (by rw [← hbits]; simp)
      obtain ⟨u, k, hraise, hnil, hk, hu⟩ := @ih qs t (by rw [hpath]; exact hqs) hread.rcnt_le (by rw [ht]; exact hwalk)
        (by rw [ht, List.length_singleton]; bv_omega) (by rw [hrest]; exact (List.prefix_append_right_inj p).mp hprefix)
        (by rw [hrest]; simpa using hlen)
      refine ⟨u, k + 1, hrun.trans hraise, hnil, Nat.succ_lt_succ hk, ?_⟩
      rw [List.take_succ_cons, Nat.add_comm, BitVec.ofNat_add, ← BitVec.add_assoc, ← List.singleton_append, ← List.append_assoc]
      rw [ht] at hu
      exact hu

/-- Settles O47: the run decodes the paths that are whole and faults inside the next (`decRunBody_truncated`). -/
theorem truncationIsDetected : Obligations.TruncationIsDetected := by
  intro s ps vs hf h8 hwalk hle hlen hpaths hprefix hshort
  obtain ⟨t, k, hrun, hnil, hk, ht⟩ := decRunBody_truncated hpaths h8 hwalk (by bv_omega) hprefix hshort
  refine ⟨t.advance, k, by rw [exec_decRun_running hf, hrun, raised_state], ?_, ?_, ?_, ?_, hnil, hk, ?_, ?_⟩
  · exact (congrArg State.fcode ht :)
  · exact (congrArg State.finfo ht :).trans (congrArg State.decd ht :).symm
  · rw [ht]
    change s.decd + BitVec.ofNat 64 k < s.decm
    bv_omega
  · exact (congrArg State.walk ht :)
  · exact (congrArg State.decd ht :)
  · exact (congrArg State.dbs ht :)

end Sys2Proof.Machine
end
